-- ==== Sys2Proof/Word.lean ====
section
/-! DEFINITION. Words of the command port, bytes of the whitener, and the items of the streams
(20_memory.md R65 to R67, 10_state.md R25, R26). -/

namespace Sys2Proof

/-- A word of the command port or of a response (30_encoding.md R90). -/
abbrev Word := BitVec 32

/-- A byte of a whitener payload (20_memory.md R65). -/
abbrev Byte := BitVec 8

/-- A baseband sample: opaque, with a zero (46_host_commands.md R282). The code names a value of the
hardware's format and is no arithmetic quantity; nothing here computes on it. DESIGN CHOICE (log 2). -/
structure Sample where
  code : Nat
deriving DecidableEq, Repr, Inhabited

/-- The `Sample` zero of 70_reset_and_hazards.md R321. DESIGN CHOICE: its code is 0 (log 2). -/
def Sample.zero : Sample := ⟨0⟩

/-- The interpolator's private state, open content (10_state.md R26; log 2). -/
structure InterpState where
  code : Nat
deriving DecidableEq, Repr, Inhabited

/-- The tracking loop's private state, open content (10_state.md R26; log 2). -/
structure LoopState where
  code : Nat
deriving DecidableEq, Repr, Inhabited

/-- What `Interp` returns for a window of `w` samples; `advance` is at most `w`
(41_symbol_timing_recovery.md R122). -/
structure InterpResult (w : Nat) where
  sample  : Sample
  advance : Fin (w + 1)
  ist     : InterpState
deriving DecidableEq, Repr, Inhabited

/-- What `Track` returns; `index` is 0 to 831 (41_symbol_timing_recovery.md R122). -/
structure TrackResult where
  locked : Bool
  index  : Fin 832
  adj    : Sample
  lst    : LoopState
deriving DecidableEq, Repr, Inhabited

/-- The tag record of 20_memory.md R66. -/
structure SymbolTag where
  valid       : Bool
  symbolIndex : BitVec 10
  fieldMark   : BitVec 2
deriving DecidableEq, Repr, Inhabited

/-- A symbol with its tag: STR's output item and FSD's input item (20_memory.md R65). -/
structure TaggedSymbol where
  sample : Sample
  tag    : SymbolTag
deriving DecidableEq, Repr, Inhabited

/-- The marker class of a tag (42_field_sync_demux.md R142). -/
inductive MarkerClass where
  | none
  | seg
  | fs1
  | fs2
deriving DecidableEq, Repr, Inhabited

/-- An input item of FSD once its tag is classified. -/
structure MarkedSample where
  sample : Sample
  marker : MarkerClass
deriving DecidableEq, Repr, Inhabited

/-- FSD's output item: header and payload (20_memory.md R67). -/
structure DataSegment where
  fieldFlag     : BitVec 2
  segmentNumber : BitVec 16
  payload       : List Sample
deriving DecidableEq, Repr, Inhabited

/-- The two ways a code is laid out in delay lines (00_scope.md section 6, 10_state.md R40). -/
inductive Realization where
  | soai
  | siao
deriving DecidableEq, Repr, Inhabited

/-- One delay line of a realization (44_trellis_code_engine.md R214 to R216). -/
structure CodeMemory where
  owner   : Nat
  phi     : BitVec 32
  members : List Nat
  len     : Nat
  off     : Nat
deriving DecidableEq, Repr, Inhabited

/-- One entry of TRELLIS: next state and output bits (20_memory.md R61). -/
structure TrellisEntry where
  next : BitVec 32
  out  : BitVec 24
deriving DecidableEq, Repr, Inhabited

end Sys2Proof
end

