-- ==== Sys2Proof/Syntax.lean ====
section
/-! DEFINITION. The nineteen commands of 30_encoding.md R97, one constructor per row of the opcode table.
Counts and indices are natural numbers (R98, R100); register numbers, dimensions stored whole, masks,
vectors and states are bit vectors (R99 to R102). -/

namespace Sys2Proof

/-- A command of CORE. -/
inductive Instr where
  /-- `SYS.RDREG r` (R273) -/
  | sysRdreg (reg : BitVec 8)
  /-- `STR.FORECAST N` (R123) -/
  | strForecast (n : Nat)
  /-- `STR.WORK cap, avail` (R124) -/
  | strWork (cap avail : Nat)
  /-- `FSD.FORECAST N` (R151) -/
  | fsdForecast (n : Nat)
  /-- `FSD.WORK cap, avail` (R152) -/
  | fsdWork (cap avail : Nat)
  /-- `LFSR.RESET` (R172) -/
  | lfsrReset
  /-- `LFSR.OUT` (R173) -/
  | lfsrOut
  /-- `LFSR.CLK` (R176) -/
  | lfsrClk
  /-- `LFSR.WHITEN n` (R178) -/
  | lfsrWhiten (n : Nat)
  /-- `LFSR.DEWHITEN m` (R179) -/
  | lfsrDewhiten (m : Nat)
  /-- `TCE.CFG_DIM I, O` (R202) -/
  | tceCfgDim (inputs outputs : BitVec 8)
  /-- `TCE.CFG_GEN i, o, mask` (R203) -/
  | tceCfgGen (i o : Nat) (mask : BitVec 32)
  /-- `TCE.CFG_FB i, o, mask` (R204) -/
  | tceCfgFb (i o : Nat) (mask : BitVec 32)
  /-- `TCE.CFG_BLOCK term, block_len` (R205) -/
  | tceCfgBlock (term : Bool) (blockLen : BitVec 32)
  /-- `TCE.CFG_END end_state` (R206) -/
  | tceCfgEnd (endState : BitVec 32)
  /-- `TCE.BUILD` (R208) -/
  | tceBuild
  /-- `TCE.LOOKUP input_vector, state` (R230) -/
  | tceLookup (inputVector : BitVec 24) (state : BitVec 32)
  /-- `CES.FORECAST N` (R262) -/
  | cesForecast (n : Nat)
  /-- `CES.WORK cap, avail` (R256) -/
  | cesWork (cap avail : Nat)
deriving DecidableEq, Repr

end Sys2Proof
end

