-- ==== Sys2Proof/WellFormed.lean ====
section
/-! DEFINITION. Which commands have an encoding: the counts fit the fields they travel in (30_encoding.md
R98, R100). The other operands are bit vectors of their field's width. -/

namespace Sys2Proof

/-- A value of the 24-bit field `ARG`. -/
abbrev fitsArg (n : Nat) : Prop := n < 2 ^ 24

/-- A value of the extension word `EW`. -/
abbrev fitsExt (n : Nat) : Prop := n < 2 ^ 32

/-- A value of an 8-bit sub-field of `ARG`. -/
abbrev fitsIndex (n : Nat) : Prop := n < 2 ^ 8

/-- The operands of a command fit its encoding. -/
def Instr.WellFormed : Instr → Prop
  | .sysRdreg _ => True
  | .strForecast n => fitsArg n
  | .strWork cap avail => fitsArg cap ∧ fitsExt avail
  | .fsdForecast n => fitsArg n
  | .fsdWork cap avail => fitsArg cap ∧ fitsExt avail
  | .lfsrReset => True
  | .lfsrOut => True
  | .lfsrClk => True
  | .lfsrWhiten n => fitsArg n
  | .lfsrDewhiten m => fitsArg m
  | .tceCfgDim _ _ => True
  | .tceCfgGen i o _ => fitsIndex i ∧ fitsIndex o
  | .tceCfgFb i o _ => fitsIndex i ∧ fitsIndex o
  | .tceCfgBlock _ _ => True
  | .tceCfgEnd _ => True
  | .tceBuild => True
  | .tceLookup _ _ => True
  | .cesForecast n => fitsArg n
  | .cesWork cap avail => fitsArg cap ∧ fitsExt avail

end Sys2Proof
end

