-- ==== Sys2Proof/Decode.lean ====
section
/-! DEFINITION. The decoder of 30_encoding.md R91 to R106, total on any sequence of words, and the encoder. -/

namespace Sys2Proof

/-- Why a command word is illegal (R105). -/
inductive IllegalReason where
  /-- `UNIT` is 6 to 15. -/
  | reservedUnit
  /-- The (UNIT, OP) pair is not in the table of R97. -/
  | unassignedOp
  /-- A must-be-zero bit of `ARG` is one. -/
  | nonzeroReservedBits
deriving DecidableEq, Repr

/-- What the decoder finds at the head of the port's words. -/
inductive Decoded where
  /-- A whole command, and the words after it. -/
  | command (i : Instr) (rest : List Word)
  /-- An illegal command word, taken alone ("for an illegal CW no EW is taken", R105). -/
  | illegal (why : IllegalReason) (rest : List Word)
  /-- No command word, or a CX command word whose extension word is not there yet. -/
  | incomplete
deriving DecidableEq, Repr

/-- The rows of the opcode map (R97), before operands are assembled. -/
inductive Opcode where
  | sysRdreg | strForecast | strWork | fsdForecast | fsdWork
  | lfsrReset | lfsrOut | lfsrClk | lfsrWhiten | lfsrDewhiten
  | tceCfgDim | tceCfgGen | tceCfgFb | tceCfgBlock | tceCfgEnd | tceBuild | tceLookup
  | cesForecast | cesWork
deriving DecidableEq, Repr

/-- `UNIT = CW[31:28]` (R91). -/
def cwUnit (cw : Word) : BitVec 4 := cw.extractLsb' 28 4

/-- `OP = CW[27:24]` (R91). -/
def cwOp (cw : Word) : BitVec 4 := cw.extractLsb' 24 4

/-- `ARG = CW[23:0]` (R91). -/
def cwArg (cw : Word) : BitVec 24 := cw.extractLsb' 0 24

/-- The opcode map (R97). -/
def opcodeMap (unit op : Nat) : Option Opcode :=
  match unit, op with
  | 0, 1 => some .sysRdreg
  | 1, 0 => some .strForecast
  | 1, 1 => some .strWork
  | 2, 0 => some .fsdForecast
  | 2, 1 => some .fsdWork
  | 3, 0 => some .lfsrReset
  | 3, 1 => some .lfsrOut
  | 3, 2 => some .lfsrClk
  | 3, 3 => some .lfsrWhiten
  | 3, 4 => some .lfsrDewhiten
  | 4, 0 => some .tceCfgDim
  | 4, 1 => some .tceCfgGen
  | 4, 2 => some .tceCfgFb
  | 4, 3 => some .tceCfgBlock
  | 4, 4 => some .tceCfgEnd
  | 4, 5 => some .tceBuild
  | 4, 6 => some .tceLookup
  | 5, 0 => some .cesForecast
  | 5, 1 => some .cesWork
  | _, _ => none

/-- The bits of `ARG` an opcode assigns; the others must be zero (R93, R98 to R102). -/
def assignedArgBits : Opcode → BitVec 24
  | .sysRdreg => 0x0000FF
  | .lfsrReset | .lfsrOut | .lfsrClk | .tceCfgEnd | .tceBuild => 0x000000
  | .tceCfgDim | .tceCfgGen | .tceCfgFb => 0x00FFFF
  | .tceCfgBlock => 0x000001
  | .strForecast | .strWork | .fsdForecast | .fsdWork | .lfsrWhiten | .lfsrDewhiten
  | .tceLookup | .cesForecast | .cesWork => 0xFFFFFF

/-- Format CX: an extension word follows (R93, R97). -/
def hasExt : Opcode → Bool
  | .strWork | .fsdWork | .tceCfgGen | .tceCfgFb | .tceCfgBlock | .tceCfgEnd | .tceLookup
  | .cesWork => true
  | .sysRdreg | .strForecast | .fsdForecast | .lfsrReset | .lfsrOut | .lfsrClk | .lfsrWhiten
  | .lfsrDewhiten | .tceCfgDim | .tceBuild | .cesForecast => false

/-- `ARG[7:0]`. -/
def argLow (arg : BitVec 24) : BitVec 8 := arg.extractLsb' 0 8

/-- `ARG[15:8]`. -/
def argHigh (arg : BitVec 24) : BitVec 8 := arg.extractLsb' 8 8

/-- Operand assembly (R98 to R102). -/
def assemble (o : Opcode) (arg : BitVec 24) (ew : Word) : Instr :=
  match o with
  | .sysRdreg => .sysRdreg (argLow arg)
  | .strForecast => .strForecast arg.toNat
  | .strWork => .strWork arg.toNat ew.toNat
  | .fsdForecast => .fsdForecast arg.toNat
  | .fsdWork => .fsdWork arg.toNat ew.toNat
  | .lfsrReset => .lfsrReset
  | .lfsrOut => .lfsrOut
  | .lfsrClk => .lfsrClk
  | .lfsrWhiten => .lfsrWhiten arg.toNat
  | .lfsrDewhiten => .lfsrDewhiten arg.toNat
  | .tceCfgDim => .tceCfgDim (argLow arg) (argHigh arg)
  | .tceCfgGen => .tceCfgGen (argLow arg).toNat (argHigh arg).toNat ew
  | .tceCfgFb => .tceCfgFb (argLow arg).toNat (argHigh arg).toNat ew
  | .tceCfgBlock => .tceCfgBlock (arg.getLsbD 0) ew
  | .tceCfgEnd => .tceCfgEnd ew
  | .tceBuild => .tceBuild
  | .tceLookup => .tceLookup arg ew
  | .cesForecast => .cesForecast arg.toNat
  | .cesWork => .cesWork arg.toNat ew.toNat

/-- Classify a command word: its opcode, or why it is illegal (R105). -/
def classifyCw (cw : Word) : Except IllegalReason Opcode :=
  if 6 ≤ (cwUnit cw).toNat then .error .reservedUnit
  else match opcodeMap (cwUnit cw).toNat (cwOp cw).toNat with
    | none => .error .unassignedOp
    | some o =>
      if cwArg cw &&& ~~~ assignedArgBits o = 0 then .ok o else .error .nonzeroReservedBits

/-- The decoder (R106): read `CW`; if legal, the pair tells whether `EW` follows. -/
def decode (words : List Word) : Decoded :=
  match words with
  | [] => .incomplete
  | cw :: rest =>
    match classifyCw cw with
    | .error why => .illegal why rest
    | .ok o =>
      if hasExt o then
        match rest with
        | [] => .incomplete
        | ew :: rest' => .command (assemble o (cwArg cw) ew) rest'
      else .command (assemble o (cwArg cw) 0) rest

/-! ### The encoder -/

/-- `CW` from its fields (R91). -/
def packCw (unit op : BitVec 4) (arg : BitVec 24) : Word := unit ++ op ++ arg

/-- `ARG` with two 8-bit sub-fields (R100). -/
def packArg (low high : BitVec 8) : BitVec 24 := (0 : BitVec 8) ++ high ++ low

/-- The words of a command (R97 to R102). -/
def encode : Instr → List Word
  | .sysRdreg r => [packCw 0 1 (r.setWidth 24)]
  | .strForecast n => [packCw 1 0 (BitVec.ofNat 24 n)]
  | .strWork cap avail => [packCw 1 1 (BitVec.ofNat 24 cap), BitVec.ofNat 32 avail]
  | .fsdForecast n => [packCw 2 0 (BitVec.ofNat 24 n)]
  | .fsdWork cap avail => [packCw 2 1 (BitVec.ofNat 24 cap), BitVec.ofNat 32 avail]
  | .lfsrReset => [packCw 3 0 0]
  | .lfsrOut => [packCw 3 1 0]
  | .lfsrClk => [packCw 3 2 0]
  | .lfsrWhiten n => [packCw 3 3 (BitVec.ofNat 24 n)]
  | .lfsrDewhiten m => [packCw 3 4 (BitVec.ofNat 24 m)]
  | .tceCfgDim i o => [packCw 4 0 (packArg i o)]
  | .tceCfgGen i o mask => [packCw 4 1 (packArg (BitVec.ofNat 8 i) (BitVec.ofNat 8 o)), mask]
  | .tceCfgFb i o mask => [packCw 4 2 (packArg (BitVec.ofNat 8 i) (BitVec.ofNat 8 o)), mask]
  | .tceCfgBlock term len => [packCw 4 3 (if term then 1 else 0), len]
  | .tceCfgEnd e => [packCw 4 4 0, e]
  | .tceBuild => [packCw 4 5 0]
  | .tceLookup v st => [packCw 4 6 v, st]
  | .cesForecast n => [packCw 5 0 (BitVec.ofNat 24 n)]
  | .cesWork cap avail => [packCw 5 1 (BitVec.ofNat 24 cap), BitVec.ofNat 32 avail]

/-! ### The opcode table's numbering -/

/-- The two words whose bits are `w`, the first word's least significant bit first; bits at and above
`nbits` are 0. -/
def tableWords (nbits w : Nat) : List Word :=
  [BitVec.ofNat 32 (w % 2 ^ nbits), BitVec.ofNat 32 (w % 2 ^ nbits / 2 ^ 32)]

/-- Those of `tableWords` that the decoder takes: the command word, and the extension word of a CX command. -/
def commandWords (nbits w : Nat) : List Word :=
  match decode (tableWords nbits w) with
  | .command _ rest => (tableWords nbits w).take (2 - rest.length)
  | .illegal _ rest => (tableWords nbits w).take (2 - rest.length)
  | .incomplete => tableWords nbits w

/-- The command the decoder reads from a row of the opcode table. -/
def decodeTableWord (nbits w : Nat) : Option Instr :=
  match decode (tableWords nbits w) with
  | .command i _ => some i
  | .illegal _ _ => none
  | .incomplete => none

end Sys2Proof
end

