-- ==== Sys2Proof/Config.lean ====
section
/-! DEFINITION. The implementation parameters of 00_scope.md R10 to R14: constants the spec prints are
definitions, the others are opaque, with the range the spec states built into their type (log 1). The last
section holds the free values (log 6, log 9, log 10). -/

namespace Sys2Proof.Config

/-! ### Printed values -/

/-- Symbols per segment (R11). -/
def SEG_LEN : Nat := 832

/-- Reset value of `FSD.in_field2` (R11). -/
def FSD_RESET_FIELD2 : Bool := false

/-- Reset value of `FSD.segment_number` (R11). -/
def FSD_RESET_SEGNO : BitVec 16 := 0

/-- The trellis state a block starts from (R14). -/
def START_STATE : BitVec 32 := 0

/-! ### STR (R10, R122) -/

/-- `R_NUM` less one: `R` is a positive rational (R10). -/
opaque rNumPred : Nat
/-- `R_DEN` less one (R10). -/
opaque rDenPred : Nat
/-- The default of `LOOKAHEAD_MARGIN` (R10). -/
def LOOKAHEAD_MARGIN_DEFAULT : Nat := 1500
/-- A margin an implementation configures, less one; `none` where it keeps the default (R10). -/
opaque marginConfigured : Option Nat
/-- `LOOKAHEAD_MARGIN` less one: `W_LOOK` is positive and at most the margin (R122). -/
def marginPred : Nat :=
  match marginConfigured with
  | none => LOOKAHEAD_MARGIN_DEFAULT - 1
  | some pred => pred
/-- `W_LOOK` less one (R122). -/
opaque wLookPred : Fin (marginPred + 1)

/-- Numerator of the oversampling ratio (R10). -/
def R_NUM : Nat := rNumPred + 1
/-- Denominator of the oversampling ratio (R10). -/
def R_DEN : Nat := rDenPred + 1
/-- The forecast's margin: the configured one, else the default (R10). -/
def LOOKAHEAD_MARGIN : Nat := marginPred + 1
/-- The interpolator's window length, 1 to `LOOKAHEAD_MARGIN` (R122). -/
def W_LOOK : Nat := wLookPred.val + 1

/-- The open interpolator (R122): window, adjustment, private state. -/
opaque interp : List Sample → Sample → InterpState → InterpResult W_LOOK
/-- The open tracking loop (R122). -/
opaque track : Sample → LoopState → TrackResult
/-- `ISTATE0` (10_state.md R26). -/
opaque ISTATE0 : InterpState
/-- `LSTATE0` (10_state.md R26). -/
opaque LSTATE0 : LoopState

/-! ### FSD (R11) -/

/-- The default of `SEGS_PER_FIELD` (R11). -/
def SEGS_PER_FIELD_DEFAULT : Nat := 312
/-- The segments per field an implementation configures, less one: at least 1 (R11) and below 2^16
(10_state.md R30); `none` where it keeps the default. -/
opaque segsPerFieldConfigured : Option (Fin 65535)
/-- The segments per field, 1 to 65535: the configured number, else the default (R11). -/
def SEGS_PER_FIELD : Nat :=
  match segsPerFieldConfigured with
  | none => SEGS_PER_FIELD_DEFAULT
  | some pred => pred.val + 1

/-! ### LFSR (R12) -/

/-- The constant preload. No value is printed; 0 is not excluded (43_lfsr_whitener.md R184). -/
opaque PRELOAD : BitVec 16
/-- The constant feedback-tap mask. -/
opaque TAP_MASK : BitVec 16
/-- The content of WLUT (43_lfsr_whitener.md R174). -/
opaque OUT_LUT : BitVec 14 → Bool
/-- The framing byte `LFSR.DEWHITEN` puts back. -/
opaque FRAMING_BYTE : Byte

/-! ### TCE (R13) -/

/-- `MAX_STREAMS` less one: at most 24 (30_encoding.md R104). -/
opaque maxStreamsPred : Fin 24
/-- The stream-count bound, 1 to 24. -/
def MAX_STREAMS : Nat := maxStreamsPred.val + 1
/-- The largest `T` the table memory exists for, at most 24 (R13). -/
opaque maxTotalDelay : Fin 25
/-- `MAX_TOTAL_DELAY`, 0 to 24. -/
def MAX_TOTAL_DELAY : Nat := maxTotalDelay.val

/-! ### Free values -/

/-- What STR reads at a position of its window that the host did not fill (log 6). -/
opaque freeSample : Nat → Nat → Sample
/-- The same for FSD (log 6). -/
opaque freeTagged : Nat → Nat → TaggedSymbol
/-- The same for LFSR (log 6). -/
opaque freeByte : Nat → Nat → Byte
/-- The same for CES (log 6). -/
opaque freeVector : Nat → Nat → BitVec 24
/-- An 8-bit total register whose sum is 256 or more (log 9). -/
opaque freeTotal : Nat → Realization → BitVec 8
/-- The `VAL` field of a result that does not fit it (log 10). -/
opaque freeVal : Nat → BitVec 24

end Sys2Proof.Config
end

