-- ==== Sys2Proof/Machine/State.lean ====
section
/-! DEFINITION. The state of CORE (10_state.md R20 to R45) with its ports and windows, plain data
throughout, and the state after a power-up reset (70_reset_and_hazards.md R321). -/

namespace Sys2Proof.Machine

/-- FSD's control state (10_state.md R28). -/
inductive FsdPhase where
  | searching
  | locked
deriving DecidableEq, Repr, Inhabited

/-- `TCE.build_state` (10_state.md R37). -/
inductive BuildState where
  | unbuilt
  | built
  | failed
deriving DecidableEq, Repr, Inhabited

/-- `CES.phase` (10_state.md R42). -/
inductive CesPhase where
  | init
  | encodingPayload
  | terminating
deriving DecidableEq, Repr, Inhabited

/-- The `STATUS` codes of a response (60_exceptions.md R291). -/
inductive Status where
  | ok
  | illegal
  | state
  | range
  | config
  | term
deriving DecidableEq, Repr, Inhabited

/-- The non-fatal events of one command, the `EVT` field (60_exceptions.md R296). -/
structure Events where
  starved     : Bool := false
  syncLoss    : Bool := false
  segOverflow : Bool := false
  warn        : Bool := false
deriving DecidableEq, Repr, Inhabited

/-- A sparse table of 32-bit entries, the space CFG (20_memory.md R64): an entry is listed exactly when
its loaded bit is 1, and an unlisted entry holds 0 (log 20). -/
abbrev Memory := List (Nat × BitVec 32)

/-- The canonical form: keys strictly rise. -/
abbrev Memory.wf (m : Memory) : Prop := List.Pairwise (fun a b => a.1 < b.1) m

/-- Unit STR (10_state.md R23 to R26). -/
structure StrUnit where
  segLocked        : Bool
  symbolIndex      : BitVec 10
  timingAdjustment : Sample
  istate           : InterpState
  lstate           : LoopState
deriving DecidableEq, Repr

/-- Unit FSD (10_state.md R27 to R32). -/
structure FsdUnit where
  state         : FsdPhase
  inField2      : Bool
  segmentNumber : BitVec 16
  evSyncLoss    : Bool
  evOverflow    : Bool
  lossPos       : BitVec 17
deriving DecidableEq, Repr

/-- Unit LFSR (10_state.md R33, R34). -/
structure LfsrUnit where
  s : BitVec 16
deriving DecidableEq, Repr

/-- Unit TCE (10_state.md R37 to R41; 20_memory.md R61, R62, R64). `gen` and `fb` hold `TCE.G` and
`TCE.F` with their loaded bits. `table` and `term` are absent (empty) until built (R322). -/
structure TceUnit where
  buildState  : BuildState
  inputs      : BitVec 8
  outputs     : BitVec 8
  gen         : Memory
  fb          : Memory
  hasFb       : Bool
  blockLen    : BitVec 32
  doTerm      : Bool
  endState    : BitVec 32
  realization : Realization
  fbEn        : Bool
  totalDelay  : BitVec 8
  maxDelay    : BitVec 8
  totalSoai   : BitVec 8
  totalSiao   : BitVec 8
  mems        : List CodeMemory
  table       : List TrellisEntry
  term        : List (Option (List Nat))
  errDim      : Bool
  errBlocklen : Bool
  warnZeroOut : Bool
  warnZeroIn  : Bool
deriving DecidableEq, Repr

/-- Unit CES (10_state.md R42 to R45). -/
structure CesUnit where
  phase        : CesPhase
  tstate       : BitVec 32
  payloadCount : BitVec 32
  termCount    : BitVec 8
  termBase     : BitVec 32
  faultTerm    : Bool
deriving DecidableEq, Repr

/-- The host's stream windows (20_memory.md R60, R65). An input list holds what the host has filled, from
position 0; an output list holds what the window holds, from position 0. -/
structure Windows where
  strIn   : List Sample
  strOut  : List TaggedSymbol
  fsdIn   : List TaggedSymbol
  fsdOut  : List DataSegment
  lfsrIn  : List Byte
  lfsrOut : List Byte
  cesIn   : List (BitVec 24)
  cesOut  : List (BitVec 24)
deriving DecidableEq, Repr

/-- A response: `RW`, and `RX` for the commands that have one (30_encoding.md R90, R94). -/
structure Response where
  rw : Word
  rx : Option Word
deriving DecidableEq, Repr

/-- The units with a `WORK` command (46_host_commands.md R270). -/
inductive StreamUnit where
  | str
  | fsd
  | ces
deriving DecidableEq, Repr

/-- Items the host puts into an input window. -/
inductive WindowItems where
  | str (items : List Sample)
  | fsd (items : List TaggedSymbol)
  | lfsr (items : List Byte)
  | ces (items : List (BitVec 24))
deriving DecidableEq, Repr

/-- What the world outside CORE does between commands (00_scope.md R18; log 3, log 16, log 17). -/
inductive HostMove where
  /-- Place words on the command port (30_encoding.md R90). -/
  | place (words : List Word)
  /-- Present a new input window in place of the old one. -/
  | present (items : WindowItems)
  /-- Append items to an input window (46_host_commands.md R278). -/
  | append (items : WindowItems)
  /-- Commit the consumed count of the last response (46_host_commands.md R272). -/
  | commit (unit : StreamUnit)
  /-- Assert the reset input (70_reset_and_hazards.md R320). -/
  | reset
deriving DecidableEq, Repr

/-- The whole machine. -/
structure State where
  str       : StrUnit
  fsd       : FsdUnit
  lfsr      : LfsrUnit
  lutBuilt  : Bool
  tce       : TceUnit
  ces       : CesUnit
  win       : Windows
  port      : List Word
  response  : Option Response
  host      : List HostMove
  freeCount : Nat
deriving DecidableEq, Repr

/-- Why the machine stops with a fault. -/
inductive Fault where
  /-- A read of TRELLIS outside what was built (`TCE.LOOKUP`, `CES.WORK`). Safe: no state that a run from
  reset reaches raises it (log 14). -/
  | trellisHole
  /-- A read of TERM outside what was built, or of a state without a sequence (`CES.WORK`). Safe: as above
  (log 14). -/
  | termHole
deriving DecidableEq, Repr

/-- Why the model gives a command no meaning. -/
inductive Refusal where
  /-- Raised by `exec` for an instruction without a meaning yet. Safe. -/
  | notModelled (mnemonic : String)
  /-- `TCE.BUILD` with termination and `max_delay ≤ block_len < T`, `block_len ≠ 0`
  (44_trellis_code_engine.md R220, U3). Safe. -/
  | blockLengthBand
  /-- `TCE.BUILD` with `T > MAX_TOTAL_DELAY` (R221, U4). Safe. -/
  | tableTooLarge
  /-- `TCE.BUILD` with termination and `end_state ≥ 2^T` (R221, U5). Safe. -/
  | endStateOutOfRange
  /-- `FSD.WORK` on a window that holds a tag with the reserved field mark at a sync-run start
  (42_field_sync_demux.md R142, U9). Safe. -/
  | reservedFieldMark
deriving DecidableEq, Repr

/-! ### Units after reset (70_reset_and_hazards.md R321) -/

/-- STR after reset. -/
def StrUnit.reset : StrUnit where
  segLocked        := false
  symbolIndex      := 0
  timingAdjustment := Sample.zero
  istate           := Config.ISTATE0
  lstate           := Config.LSTATE0

/-- FSD after reset. -/
def FsdUnit.reset : FsdUnit where
  state         := .searching
  inField2      := Config.FSD_RESET_FIELD2
  segmentNumber := Config.FSD_RESET_SEGNO
  evSyncLoss    := false
  evOverflow    := false
  lossPos       := 0

/-- LFSR after reset. -/
def LfsrUnit.reset : LfsrUnit where
  s := Config.PRELOAD

/-- TCE after reset. -/
def TceUnit.reset : TceUnit where
  buildState  := .unbuilt
  inputs      := 0
  outputs     := 0
  gen         := []
  fb          := []
  hasFb       := false
  blockLen    := 0
  doTerm      := false
  endState    := 0
  realization := .soai
  fbEn        := false
  totalDelay  := 0
  maxDelay    := 0
  totalSoai   := 0
  totalSiao   := 0
  mems        := []
  table       := []
  term        := []
  errDim      := false
  errBlocklen := false
  warnZeroOut := false
  warnZeroIn  := false

/-- CES after reset. -/
def CesUnit.reset : CesUnit where
  phase        := .init
  tstate       := Config.START_STATE
  payloadCount := 0
  termCount    := 0
  termBase     := 0
  faultTerm    := false

/-- No window is filled. DESIGN CHOICE: the windows are the host's (log 6). -/
def Windows.empty : Windows where
  strIn   := []
  strOut  := []
  fsdIn   := []
  fsdOut  := []
  lfsrIn  := []
  lfsrOut := []
  cesIn   := []
  cesOut  := []

/-- The machine right after a power-up reset (R321). The windows, the command port, the response port,
the host's queue and the free-value counter are the model's choice (log 3, log 5, log 6, log 8). -/
def State.reset : State where
  str       := StrUnit.reset
  fsd       := FsdUnit.reset
  lfsr      := LfsrUnit.reset
  lutBuilt  := false
  tce       := TceUnit.reset
  ces       := CesUnit.reset
  win       := Windows.empty
  port      := []
  response  := none
  host      := []
  freeCount := 0

/-! ### One update per field -/

/-- Write the registers of STR. -/
def State.withStr (s : State) (u : StrUnit) : State := { s with str := u }
/-- Write the registers of FSD. -/
def State.withFsd (s : State) (u : FsdUnit) : State := { s with fsd := u }
/-- Write the registers of LFSR. -/
def State.withLfsr (s : State) (u : LfsrUnit) : State := { s with lfsr := u }
/-- Write `LUT.built`. -/
def State.withLutBuilt (s : State) (b : Bool) : State := { s with lutBuilt := b }
/-- Write the registers and tables of TCE. -/
def State.withTce (s : State) (u : TceUnit) : State := { s with tce := u }
/-- Write the registers of CES. -/
def State.withCes (s : State) (u : CesUnit) : State := { s with ces := u }
/-- Write the windows. -/
def State.withWin (s : State) (w : Windows) : State := { s with win := w }
/-- Write the words on the command port. -/
def State.withPort (s : State) (p : List Word) : State := { s with port := p }
/-- Write the response port. -/
def State.withResponse (s : State) (r : Option Response) : State := { s with response := r }
/-- Write the host's queue. -/
def State.withHost (s : State) (h : List HostMove) : State := { s with host := h }
/-- Write the free-value counter. -/
def State.withFreeCount (s : State) (n : Nat) : State := { s with freeCount := n }

end Sys2Proof.Machine
end

