-- ==== Sys2Proof/Machine/Flags.lean ====
section
/-! DEFINITION. Every packed word CORE computes from flags and registers: the response word
(30_encoding.md R94, 60_exceptions.md R291, R296) and the status registers (10_state.md R47 to R57). CORE
has no arithmetic condition codes (R46). -/

namespace Sys2Proof.Machine

/-- One flag as a bit. -/
def bit (b : Bool) : BitVec 1 := BitVec.ofBool b

/-- The code of a status (60_exceptions.md R291). -/
def statusCode : Status → BitVec 4
  | .ok => 0
  | .illegal => 1
  | .state => 2
  | .range => 3
  | .config => 4
  | .term => 5

/-- The `EVT` field (60_exceptions.md R296): bit 0 STARVED, 1 SYNC_LOSS, 2 SEG_OVERFLOW, 3 WARN. -/
def eventBits (e : Events) : BitVec 4 :=
  bit e.warn ++ bit e.segOverflow ++ bit e.syncLoss ++ bit e.starved

/-- `RW = {STATUS, EVT, VAL}` (30_encoding.md R94). -/
def packRw (st : Status) (e : Events) (val : BitVec 24) : Word :=
  statusCode st ++ eventBits e ++ val

/-! ### Codes of the control states -/

/-- 10_state.md R28. -/
def fsdPhaseBit : FsdPhase → BitVec 1
  | .searching => 0
  | .locked => 1

/-- 10_state.md R37. -/
def buildStateCode : BuildState → BitVec 2
  | .unbuilt => 0
  | .built => 1
  | .failed => 2

/-- 10_state.md R42. -/
def cesPhaseCode : CesPhase → BitVec 2
  | .init => 0
  | .encodingPayload => 1
  | .terminating => 2

/-- 10_state.md R40. -/
def realizationBit : Realization → BitVec 1
  | .soai => 0
  | .siao => 1

/-! ### The status registers -/

/-- `0x10 STR_STATUS` (R47). -/
def strStatus (u : StrUnit) : Word := (0 : BitVec 21) ++ u.symbolIndex ++ bit u.segLocked

/-- `0x20 FSD_STATUS` (R48). -/
def fsdStatus (u : FsdUnit) : Word :=
  (0 : BitVec 28) ++ bit u.evOverflow ++ bit u.evSyncLoss ++ bit u.inField2 ++ fsdPhaseBit u.state

/-- `0x21 FSD_SEGNO` (R49). -/
def fsdSegno (u : FsdUnit) : Word := (0 : BitVec 16) ++ u.segmentNumber

/-- `0x22 FSD_LOSS_POS` (R50). -/
def fsdLossPos (u : FsdUnit) : Word := (0 : BitVec 15) ++ u.lossPos

/-- `0x30 LFSR_STATE` (R51). -/
def lfsrState (u : LfsrUnit) : Word := (0 : BitVec 16) ++ u.s

/-- `0x31 LUT_STATUS` (R52). -/
def lutStatus (built : Bool) : Word := (0 : BitVec 31) ++ bit built

/-- `0x40 TCE_STATUS` (R53). -/
def tceStatus (u : TceUnit) : Word :=
  (0 : BitVec 22) ++ bit u.hasFb ++ bit u.doTerm ++ bit u.fbEn ++ realizationBit u.realization
    ++ bit u.warnZeroIn ++ bit u.warnZeroOut ++ bit u.errBlocklen ++ bit u.errDim
    ++ buildStateCode u.buildState

/-- `0x41 TCE_DIMS` (R54). -/
def tceDims (u : TceUnit) : Word := (0 : BitVec 16) ++ u.outputs ++ u.inputs

/-- `0x42 TCE_DELAYS` (R55). -/
def tceDelays (u : TceUnit) : Word := u.totalSiao ++ u.totalSoai ++ u.maxDelay ++ u.totalDelay

/-- `0x50 CES_STATUS` (R57). -/
def cesStatus (u : CesUnit) : Word := (0 : BitVec 29) ++ bit u.faultTerm ++ cesPhaseCode u.phase

/-- `0x53 CES_TERM_COUNT` (R57). -/
def cesTermCount (u : CesUnit) : Word := (0 : BitVec 24) ++ u.termCount

/-- The status register of a number, `none` where unassigned (R47 to R58). -/
def statusRegister (s : State) (r : BitVec 8) : Option Word :=
  match r.toNat with
  | 0x10 => some (strStatus s.str)
  | 0x20 => some (fsdStatus s.fsd)
  | 0x21 => some (fsdSegno s.fsd)
  | 0x22 => some (fsdLossPos s.fsd)
  | 0x30 => some (lfsrState s.lfsr)
  | 0x31 => some (lutStatus s.lutBuilt)
  | 0x40 => some (tceStatus s.tce)
  | 0x41 => some (tceDims s.tce)
  | 0x42 => some (tceDelays s.tce)
  | 0x43 => some s.tce.blockLen
  | 0x44 => some s.tce.endState
  | 0x50 => some (cesStatus s.ces)
  | 0x51 => some s.ces.tstate
  | 0x52 => some s.ces.payloadCount
  | 0x53 => some (cesTermCount s.ces)
  | _ => none

end Sys2Proof.Machine
end

