-- ==== Sys2Proof/Machine/Operands.lean ====
section
/-! DEFINITION. The forms operands, items and results take: counts and their results (30_encoding.md R98,
R103), bit numbering (00_scope.md R15), the wire records of 20_memory.md R66 and R67, the marker class of a
tag (42_field_sync_demux.md R142). -/

namespace Sys2Proof.Machine

/-- The least integer not below `a / b` (00_scope.md R16). -/
def ceilDiv (a b : Nat) : Nat := (a + (b - 1)) / b

/-- `v` with bit `i` set to `b`. -/
def setBit {w : Nat} (v : BitVec w) (i : Nat) (b : Bool) : BitVec w :=
  if b then v ||| (1#w <<< i) else v &&& ~~~ (1#w <<< i)

/-- XOR of `f 1` to `f n`. -/
def xorUpTo : Nat → (Nat → Bool) → Bool
  | 0, _ => false
  | n + 1, f => xorUpTo n f ^^ f (n + 1)

/-- XOR of `f` over a list. -/
def xorOver (f : Nat → Bool) : List Nat → Bool
  | [] => false
  | x :: xs => f x ^^ xorOver f xs

/-- A count as the `VAL` field (30_encoding.md R103). -/
def valOf (n : Nat) : BitVec 24 := BitVec.ofNat 24 n

/-- A count as the `RX` word (30_encoding.md R103). -/
def rxOf (n : Nat) : Word := BitVec.ofNat 32 n

/-- A count of up to 2^24 bytes as the `VAL` field: where it does not fit, the spec states no value and the
field is free. DESIGN CHOICE (log 10). -/
def valOrFree (free : Nat) (n : Nat) : BitVec 24 :=
  if n < 2 ^ 24 then valOf n else Config.freeVal free

/-- The tag as a 16-bit record (20_memory.md R66). -/
def tagToWire (t : SymbolTag) : BitVec 16 :=
  (0 : BitVec 3) ++ t.fieldMark ++ t.symbolIndex ++ BitVec.ofBool t.valid

/-- The record read back (20_memory.md R66). -/
def tagOfWire (w : BitVec 16) : SymbolTag where
  valid       := w.getLsbD 0
  symbolIndex := w.extractLsb' 1 10
  fieldMark   := w.extractLsb' 11 2

/-- The header word of a segment (20_memory.md R67). -/
def segmentHeader (d : DataSegment) : BitVec 32 :=
  (0 : BitVec 14) ++ d.segmentNumber ++ d.fieldFlag

/-- `class(tag)`; `none` for the reserved field mark at a sync-run start (42_field_sync_demux.md R142). -/
def markerClass (t : SymbolTag) : Option MarkerClass :=
  if t.valid = false ∨ t.symbolIndex ≠ 0 then some .none
  else match t.fieldMark.toNat with
    | 0 => some .seg
    | 1 => some .fs1
    | 2 => some .fs2
    | _ => none

/-- A window with every tag classified; `none` where it holds a tag without a class (R142; log 12). -/
def classifyWindow : List TaggedSymbol → Option (List MarkedSample)
  | [] => some []
  | x :: xs =>
    match markerClass x.tag, classifyWindow xs with
    | some c, some ms => some (⟨x.sample, c⟩ :: ms)
    | _, _ => none

/-- The `field_flag` of a header: 1 or 2 (42_field_sync_demux.md R148). -/
def fieldFlag (inField2 : Bool) : BitVec 2 := if inField2 then 2 else 1

/-- The I-bit input combination of an item: the port has I wires (20_memory.md R65; log 13). -/
def combination (inputs : Nat) (item : BitVec 24) : Nat := item.toNat % 2 ^ inputs

end Sys2Proof.Machine
end

