-- ==== Sys2Proof/Machine/Ops.lean ====
section
/-! DEFINITION. The shared operations: answering a command, raising an error status, reading and writing
windows, the space CFG and the two tables of TCE. -/

namespace Sys2Proof.Machine

/-! ### Responses -/

/-- Answer OK with events, `VAL` and, for a command that has one, `RX` (30_encoding.md R94). -/
def State.respond (s : State) (e : Events) (val : BitVec 24) (rx : Option Word) : State :=
  s.withResponse (some ⟨packRw .ok e val, rx⟩)

/-- `raise E` (00_scope.md R16, 60_exceptions.md R291, R301): the command ends with the error status; `EVT`,
`VAL` and `RX` are zero; no control state changes, nothing is saved, and there is nothing to return from
(R302). `hasRx` says whether the command's response has an `RX` (30_encoding.md R97). -/
def State.raise (s : State) (e : Status) (hasRx : Bool) : State :=
  s.withResponse (some ⟨packRw e {} 0, if hasRx then some 0 else none⟩)

/-- The end of a command that answers with an error status. -/
def raised (s : State) (e : Status) (hasRx : Bool) : Host.Outcome State Fault Refusal :=
  .next (s.raise e hasRx)

/-- Answer a forecast (30_encoding.md R103): a required count of 2^32 or more is E_RANGE. -/
def answerForecast (s : State) (required : Nat) : Host.Outcome State Fault Refusal :=
  .next (if 2 ^ 32 ≤ required then s.raise .range true else s.respond {} 0 (some (rxOf required)))

/-! ### Windows (00_scope.md R16, 20_memory.md R65) -/

/-- Items `pos` to `pos + n - 1` of an input window whose filled part from `pos` on is the list; beyond it
the spec gives no value and the item is free. DESIGN CHOICE (log 6). -/
def windowFrom {α : Type} (free : Nat → α) : (pos n : Nat) → List α → List α
  | _, 0, _ => []
  | pos, n + 1, [] => free pos :: windowFrom free (pos + 1) n []
  | pos, n + 1, x :: xs => x :: windowFrom free (pos + 1) n xs

/-- An input window of `n` items. -/
def inputWindow {α : Type} (free : Nat → α) (n : Nat) (filled : List α) : List α :=
  windowFrom free 0 n filled

/-- An output window after a command wrote its items from position 0 (46_host_commands.md R274; log 7). -/
def writeWindow {α : Type} (emitted old : List α) : List α :=
  emitted ++ old.drop emitted.length

/-- STR's input window for this command. -/
def State.strWindow (s : State) (n : Nat) : List Sample :=
  inputWindow (Config.freeSample s.freeCount) n s.win.strIn

/-- FSD's input window for this command. -/
def State.fsdWindow (s : State) (n : Nat) : List TaggedSymbol :=
  inputWindow (Config.freeTagged s.freeCount) n s.win.fsdIn

/-- LFSR's input window for this command. -/
def State.lfsrWindow (s : State) (n : Nat) : List Byte :=
  inputWindow (Config.freeByte s.freeCount) n s.win.lfsrIn

/-- CES's input window for this command. -/
def State.cesWindow (s : State) (n : Nat) : List (BitVec 24) :=
  inputWindow (Config.freeVector s.freeCount) n s.win.cesIn

/-- `Emit` to STR's output window. -/
def State.emitStr (s : State) (items : List TaggedSymbol) : State :=
  s.withWin { s.win with strOut := writeWindow items s.win.strOut }

/-- `Emit` to FSD's output window. -/
def State.emitFsd (s : State) (items : List DataSegment) : State :=
  s.withWin { s.win with fsdOut := writeWindow items s.win.fsdOut }

/-- `Emit` to LFSR's output window. -/
def State.emitLfsr (s : State) (items : List Byte) : State :=
  s.withWin { s.win with lfsrOut := writeWindow items s.win.lfsrOut }

/-- `Emit` to CES's output window. -/
def State.emitCes (s : State) (items : List (BitVec 24)) : State :=
  s.withWin { s.win with cesOut := writeWindow items s.win.cesOut }

/-- The next free values are fresh ones (log 8). -/
def State.tick (s : State) : State := s.withFreeCount (s.freeCount + 1)

/-! ### The space CFG (20_memory.md R64) -/

/-- The key of position `(i, o)`: both are 8-bit operands. -/
def cfgKey (i o : Nat) : Nat := 256 * i + o

/-- The entry at a key, `none` where it is not loaded. -/
def memRead : Memory → Nat → Option (BitVec 32)
  | [], _ => none
  | (k, v) :: m, key => if k = key then some v else memRead m key

/-- Load the entry at a key; the keys stay strictly rising. -/
def memWrite : Memory → Nat → BitVec 32 → Memory
  | [], key, val => [(key, val)]
  | (k, v) :: m, key, val =>
    if key < k then (key, val) :: (k, v) :: m
    else if key = k then (key, val) :: m
    else (k, v) :: memWrite m key val

/-- `TCE.G[i][o]` or `TCE.F[i][o]`: 0 where not loaded (10_state.md R38). -/
def cfgEntry (m : Memory) (i o : Nat) : BitVec 32 := (memRead m (cfgKey i o)).getD 0

/-- `TCE.g_loaded[i][o]` or `TCE.f_loaded[i][o]`. -/
def cfgLoaded (m : Memory) (i o : Nat) : Bool := (memRead m (cfgKey i o)).isSome

/-! ### TRELLIS and TERM (20_memory.md R61, R62, R73) -/

/-- `TblRead(TRELLIS, state * 2^I + c)`. -/
def trellisRead (t : TceUnit) (state c : Nat) : Except Fault TrellisEntry :=
  match t.table[state * 2 ^ t.inputs.toNat + c]? with
  | some e => .ok e
  | none => .error .trellisHole

/-- The termination sequence of a state: `.ok none` is NONE. -/
def termSequence (t : TceUnit) (state : Nat) : Except Fault (Option (List Nat)) :=
  match t.term[state]? with
  | some q => .ok q
  | none => .error .termHole

/-- `TERM[state][k]`. -/
def termRead (t : TceUnit) (state k : Nat) : Except Fault Nat :=
  match t.term[state]? with
  | some (some seq) =>
    match seq[k]? with
    | some c => .ok c
    | none => .error .termHole
  | _ => .error .termHole

end Sys2Proof.Machine
end

