-- ==== Sys2Proof/Machine/Ces.lean ====
section
/-! DEFINITION. Unit CES (45_conv_encoder_stage.md). -/

namespace Sys2Proof.Machine

/-- What the loop leaves: the registers, the unconsumed items, the vectors emitted in order. -/
structure CesRun where
  regs : CesUnit
  rest : List (BitVec 24)
  out  : List (BitVec 24)

/-- INIT, with an input at hand: start a block (R253). -/
def cesStartBlock (u : CesUnit) : CesUnit :=
  { u with tstate := Config.START_STATE, payloadCount := 0, phase := .encodingPayload }

/-- The next count of consumed inputs: it saturates (R254; log 15). -/
def cesCountUp (n : BitVec 32) : BitVec 32 := if n = BitVec.allOnes 32 then n else n + 1

/-- Enter TERMINATING (R257); without a sequence the fault is latched (R258). -/
def cesEnterTerminating (t : TceUnit) (u : CesUnit) : Except Fault CesUnit :=
  let u' := { u with termBase := u.tstate, termCount := 0, phase := CesPhase.terminating }
  match termSequence t u.tstate.toNat with
  | .error f => .error f
  | .ok none => .ok { u' with faultTerm := true }
  | .ok (some _) => .ok u'

/-- The end-of-payload test (R255). -/
def cesEndOfPayload (t : TceUnit) (u : CesUnit) : Except Fault CesUnit :=
  if t.blockLen ≠ 0 ∧ u.payloadCount = t.blockLen then
    if t.doTerm ∧ 0 < t.totalDelay.toNat then cesEnterTerminating t u
    else .ok { u with phase := .init }
  else .ok u

/-- One payload step (R254), then the end-of-payload test (R255). -/
def cesPayloadStep (t : TceUnit) (u : CesUnit) (item : BitVec 24) :
    Except Fault (CesUnit × BitVec 24) :=
  match trellisRead t u.tstate.toNat (combination t.inputs.toNat item) with
  | .error f => .error f
  | .ok e =>
    match cesEndOfPayload t { u with tstate := e.next, payloadCount := cesCountUp u.payloadCount } with
    | .error f => .error f
    | .ok u' => .ok (u', e.out)

/-- One termination step (R257). -/
def cesTermStep (t : TceUnit) (u : CesUnit) : Except Fault (CesUnit × BitVec 24) :=
  match termRead t u.termBase.toNat u.termCount.toNat with
  | .error f => .error f
  | .ok c =>
    match trellisRead t u.tstate.toNat c with
    | .error f => .error f
    | .ok e =>
      let u' := { u with tstate := e.next, termCount := u.termCount + 1 }
      .ok (if u'.termCount = t.totalDelay then { u' with phase := .init } else u', e.out)

/-- Put an emitted vector in front of what the rest of the loop leaves. -/
def cesPrepend (ob : BitVec 24) : Except Fault CesRun → Except Fault CesRun
  | .error f => .error f
  | .ok r => .ok { r with out := ob :: r.out }

/-- The loop of R256; every pass here produces one output. A block is started in the pass that encodes its
first item, which is what R253 and R256 do: between the two nothing can stop the loop. -/
def cesLoop (t : TceUnit) : (cap : Nat) → List (BitVec 24) → CesUnit → Except Fault CesRun
  | 0, items, u => .ok ⟨u, items, []⟩
  | cap + 1, items, u =>
    match u.phase with
    | .terminating =>
      match cesTermStep t u with
      | .error f => .error f
      | .ok r => cesPrepend r.2 (cesLoop t cap items r.1)
    | _ =>
      match items with
      | [] => .ok ⟨u, [], []⟩
      | item :: items' =>
        match cesPayloadStep t (if u.phase = .init then cesStartBlock u else u) item with
        | .error f => .error f
        | .ok r =>
          if r.1.faultTerm then .ok ⟨r.1, items', [r.2]⟩
          else cesPrepend r.2 (cesLoop t cap items' r.1)

/-- `CES.FORECAST N` (R262). -/
def execCesForecast (n : Nat) (s : State) : Host.Outcome State Fault Refusal :=
  if s.tce.buildState ≠ .built then raised s .state true
  else .next (s.respond {} 0 (some (rxOf n)))

/-- `CES.WORK cap, avail` (R256). -/
def execCesWork (cap avail : Nat) (s : State) : Host.Outcome State Fault Refusal :=
  if s.tce.buildState ≠ .built then raised s .state true
  else if s.ces.faultTerm then raised s .term true
  else
    match cesLoop s.tce cap (s.cesWindow avail) s.ces with
    | .error f => .fault f
    | .ok r =>
      .next (((s.withCes r.regs).emitCes r.out).tick.respond
        { starved := decide (r.out.length < cap) } (valOf r.out.length)
        (some (rxOf (avail - r.rest.length))))

end Sys2Proof.Machine
end

