-- ==== Sys2Proof/Machine/Fsd.lean ====
section
/-! DEFINITION. Unit FSD (42_field_sync_demux.md). The loop takes `SEGS_PER_FIELD` as an argument (R141). -/

namespace Sys2Proof.Machine

open Sys2Proof.Config (SEG_LEN)

/-- What the loop leaves: the registers, the unconsumed items, the segments emitted in order, and which
reports were raised in this command. -/
structure FsdRun where
  regs     : FsdUnit
  rest     : List MarkedSample
  out      : List DataSegment
  loss     : Bool
  overflow : Bool

/-- The counters after a marker (R145, R147): FS1 and FS2 set them, the others keep them. -/
def fsdSetCounters (u : FsdUnit) : MarkerClass → FsdUnit
  | .fs1 => { u with inField2 := false, segmentNumber := 0 }
  | .fs2 => { u with inField2 := true, segmentNumber := 0 }
  | .seg => u
  | .none => u

/-- The scan (R144): items without a marker are skipped. -/
def fsdScan (items : List MarkedSample) : List MarkedSample :=
  items.dropWhile (fun x => x.marker == .none)

/-- SEARCHING to LOCKED at the first marker (R144, R145); a locked unit is left as it is. -/
def fsdLock (u : FsdUnit) (items : List MarkedSample) : FsdUnit × List MarkedSample :=
  match u.state with
  | .locked => (u, items)
  | .searching =>
    match fsdScan items with
    | [] => (u, [])
    | x :: xs => ({ fsdSetCounters u x.marker with state := .locked }, x :: xs)

/-- Whether the overflow check of R149 fires. -/
def fsdOverflows (segs : Nat) (u : FsdUnit) : Bool := decide (segs ≤ u.segmentNumber.toNat)

/-- The number a segment is emitted with, clamped (R149). -/
def fsdEmitNumber (segs : Nat) (u : FsdUnit) : BitVec 16 :=
  if fsdOverflows segs u then BitVec.ofNat 16 (segs - 1) else u.segmentNumber

/-- The segment that starts at the boundary (R148). -/
def fsdSegment (segs : Nat) (u : FsdUnit) (items : List MarkedSample) : DataSegment where
  fieldFlag     := fieldFlag u.inField2
  segmentNumber := fsdEmitNumber segs u
  payload       := (items.take SEG_LEN).map MarkedSample.sample

/-- The registers after a segment is emitted (R148, R149). -/
def fsdAfterEmit (segs : Nat) (u : FsdUnit) : FsdUnit :=
  { u with
    segmentNumber := fsdEmitNumber segs u + 1
    evOverflow := u.evOverflow || fsdOverflows segs u }

/-- The registers after a sync loss (R150). -/
def fsdAfterLoss (u : FsdUnit) : FsdUnit :=
  { u with
    lossPos := u.segmentNumber ++ BitVec.ofBool u.inField2
    evSyncLoss := true
    state := .searching }

/-- The loop of R152. `cap` segments may still be produced; `items` are those from the cursor on. Every
pass that goes on consumes a segment's length of items, so `fuel` above `items.length / SEG_LEN` never
runs out. -/
def fsdLoop (segs : Nat) : (fuel cap : Nat) → FsdUnit → List MarkedSample → FsdRun
  | 0, _, u, items => ⟨u, items, [], false, false⟩
  | _ + 1, 0, u, items => ⟨u, items, [], false, false⟩
  | fuel + 1, cap + 1, u, items =>
    let l := fsdLock u items
    match l.2 with
    | [] => ⟨l.1, [], [], false, false⟩
    | x :: xs =>
      if xs.length + 1 < SEG_LEN then ⟨l.1, x :: xs, [], false, false⟩
      else
        match x.marker with
        | .none => ⟨fsdAfterLoss l.1, x :: xs, [], true, false⟩
        | .fs1 => fsdLoop segs fuel (cap + 1) (fsdSetCounters l.1 .fs1) ((x :: xs).drop SEG_LEN)
        | .fs2 => fsdLoop segs fuel (cap + 1) (fsdSetCounters l.1 .fs2) ((x :: xs).drop SEG_LEN)
        | .seg =>
          let r := fsdLoop segs fuel cap (fsdAfterEmit segs l.1) ((x :: xs).drop SEG_LEN)
          { r with
            out := fsdSegment segs l.1 (x :: xs) :: r.out
            overflow := fsdOverflows segs l.1 || r.overflow }

/-- The loop with fuel enough for its window. -/
def fsdRun (segs cap : Nat) (u : FsdUnit) (items : List MarkedSample) : FsdRun :=
  fsdLoop segs (items.length / SEG_LEN + 1) cap u items

/-- The count `FSD.FORECAST` answers (R151). -/
def fsdRequired (n : Nat) : Nat := n * SEG_LEN + 2 * SEG_LEN - 1

/-- `FSD.FORECAST N` (R151). -/
def execFsdForecast (n : Nat) (s : State) : Host.Outcome State Fault Refusal :=
  answerForecast s (fsdRequired n)

/-- `FSD.WORK cap, avail` (R152). A window that holds a tag without a class is refused (R142; log 12). -/
def execFsdWork (cap avail : Nat) (s : State) : Host.Outcome State Fault Refusal :=
  match classifyWindow (s.fsdWindow avail) with
  | none => .refused .reservedFieldMark
  | some items =>
    let r := fsdRun Config.SEGS_PER_FIELD cap s.fsd items
    .next (((s.withFsd r.regs).emitFsd r.out).tick.respond
      { starved := decide (r.out.length < cap) && !r.loss, syncLoss := r.loss, segOverflow := r.overflow }
      (valOf r.out.length) (some (rxOf (items.length - r.rest.length))))

end Sys2Proof.Machine
end

