-- ==== Sys2Proof/Machine/Lfsr.lean ====
section
/-! DEFINITION. Unit LFSR (43_lfsr_whitener.md). The operations take the tap mask and the table's content as
arguments, so that every law can be stated for every value of them (R171). -/

namespace Sys2Proof.Machine

/-- `output_bit()` of a register value (R173, 20_memory.md R63). -/
def outBit (lut : BitVec 14 → Bool) (v : BitVec 16) : Bool := lut (v.extractLsb' 2 14)

/-- `clock()` (R176): conditional XOR with the tap mask, then a right shift with the tested bit entering at
the top. -/
def clk (tap v : BitVec 16) : BitVec 16 :=
  let b := v.getLsbD 0
  let t := if b then v ^^^ tap else v
  BitVec.ofBool b ++ t.extractLsb' 1 15

/-- The inverse of the clock (R177). No command performs it. -/
def unclk (tap v : BitVec 16) : BitVec 16 :=
  let b := v.getLsbD 15
  (v.extractLsb' 0 15 ^^^ (if b then tap.extractLsb' 1 15 else 0)) ++ BitVec.ofBool b

/-- The clock `n` times. -/
def clkTimes (tap : BitVec 16) : Nat → BitVec 16 → BitVec 16
  | 0, v => v
  | n + 1, v => clkTimes tap n (clk tap v)

/-- The bits of a payload byte, in the order they meet the keystream (20_memory.md R68). -/
def payloadBitOrder : List Nat := [7, 6, 5, 4, 3, 2, 1, 0]

/-- The bit loop of R178 and R179 over the given positions of byte `b`: output first, then clock. -/
def xorBits (tap : BitVec 16) (lut : BitVec 14 → Bool) (b : Byte) :
    List Nat → BitVec 16 → Byte → BitVec 16 × Byte
  | [], v, w => (v, w)
  | p :: ps, v, w => xorBits tap lut b ps (clk tap v) (setBit w p (b.getLsbD p ^^ outBit lut v))

/-- One payload byte (R178, R179). -/
def xorByte (tap : BitVec 16) (lut : BitVec 14 → Bool) (v : BitVec 16) (b : Byte) :
    BitVec 16 × Byte :=
  xorBits tap lut b payloadBitOrder v 0

/-- Payload bytes in stream order (R178, R179). -/
def xorBytes (tap : BitVec 16) (lut : BitVec 14 → Bool) :
    BitVec 16 → List Byte → BitVec 16 × List Byte
  | v, [] => (v, [])
  | v, b :: bs =>
    let r := xorByte tap lut v b
    let q := xorBytes tap lut r.1 bs
    (q.1, r.2 :: q.2)

/-- `whiten(payload)` (R178): the framing byte is dropped. -/
def whitenBytes (tap : BitVec 16) (lut : BitVec 14 → Bool) (v : BitVec 16) (payload : List Byte) :
    BitVec 16 × List Byte :=
  xorBytes tap lut v (payload.drop 1)

/-- `dewhiten` (R179): the framing byte is put back. -/
def dewhitenBytes (framing : Byte) (tap : BitVec 16) (lut : BitVec 14 → Bool) (v : BitVec 16)
    (whitened : List Byte) : BitVec 16 × List Byte :=
  ((xorBytes tap lut v whitened).1, framing :: (xorBytes tap lut v whitened).2)

/-- `ensure_lut()` (R175): the first use builds the table; its content is the constant `OUT_LUT`, so the
build shows only in `LUT.built` (log 11). -/
def State.ensureLut (s : State) : State := if s.lutBuilt then s else s.withLutBuilt true

/-- `LFSR.RESET` (R172). -/
def execLfsrReset (s : State) : Host.Outcome State Fault Refusal :=
  .next ((s.withLfsr ⟨Config.PRELOAD⟩).respond {} 0 none)

/-- `LFSR.OUT` (R173). -/
def execLfsrOut (s : State) : Host.Outcome State Fault Refusal :=
  .next (s.ensureLut.respond {} ((bit (outBit Config.OUT_LUT s.lfsr.s)).setWidth 24) none)

/-- `LFSR.CLK` (R176). -/
def execLfsrClk (s : State) : Host.Outcome State Fault Refusal :=
  .next ((s.withLfsr ⟨clk Config.TAP_MASK s.lfsr.s⟩).respond {} 0 none)

/-- `LFSR.WHITEN n` (R178). -/
def execLfsrWhiten (n : Nat) (s : State) : Host.Outcome State Fault Refusal :=
  if n = 0 then raised s .range false
  else
    let r := whitenBytes Config.TAP_MASK Config.OUT_LUT s.lfsr.s (s.lfsrWindow n)
    let s' := if 1 < n then s.ensureLut else s
    .next (((s'.withLfsr ⟨r.1⟩).emitLfsr r.2).tick.respond {} (valOf (n - 1)) none)

/-- `LFSR.DEWHITEN m` (R179). -/
def execLfsrDewhiten (m : Nat) (s : State) : Host.Outcome State Fault Refusal :=
  let r := dewhitenBytes Config.FRAMING_BYTE Config.TAP_MASK Config.OUT_LUT s.lfsr.s (s.lfsrWindow m)
  let s' := if 0 < m then s.ensureLut else s
  .next (((s'.withLfsr ⟨r.1⟩).emitLfsr r.2).tick.respond {} (valOrFree s.freeCount (m + 1)) none)

end Sys2Proof.Machine
end

