-- ==== Sys2Proof/Machine/Str.lean ====
section
/-! DEFINITION. Unit STR (41_symbol_timing_recovery.md). The loop takes `Interp` and `Track` as arguments
(R122), the forecast the ratio and the margin (00_scope.md R10). -/

namespace Sys2Proof.Machine

/-- What one turn of the loop leaves: the registers, the item emitted, the step of the source index. -/
structure StrTurn where
  regs    : StrUnit
  item    : TaggedSymbol
  advance : Nat

/-- What the loop leaves: the registers, the items emitted in order, the consumed count. -/
structure StrRun where
  regs     : StrUnit
  out      : List TaggedSymbol
  consumed : Nat

/-- The tag formed from the registers (R125): STR never marks a field. -/
def strTag (u : StrUnit) : SymbolTag where
  valid       := u.segLocked
  symbolIndex := u.symbolIndex
  fieldMark   := 0

/-- One turn on a window of `w` samples (R124, R125). -/
def strTurn {w : Nat} (interp : List Sample → Sample → InterpState → InterpResult w)
    (track : Sample → LoopState → TrackResult) (window : List Sample) (u : StrUnit) : StrTurn :=
  let r := interp window u.timingAdjustment u.istate
  let t := track r.sample u.lstate
  let u' : StrUnit :=
    { segLocked := t.locked, symbolIndex := BitVec.ofNat 10 t.index.val, timingAdjustment := t.adj,
      istate := r.ist, lstate := t.lst }
  { regs := u', item := ⟨r.sample, strTag u'⟩, advance := r.advance.val }

/-- The loop of R124: `cap` outputs may still be produced, `items` are the samples from the source index
on. It starves when fewer than `w` of them are left (R126). -/
def strLoop {w : Nat} (interp : List Sample → Sample → InterpState → InterpResult w)
    (track : Sample → LoopState → TrackResult) : (cap : Nat) → List Sample → StrUnit → StrRun
  | 0, _, u => ⟨u, [], 0⟩
  | cap + 1, items, u =>
    if items.length < w then ⟨u, [], 0⟩
    else
      let t := strTurn interp track (items.take w) u
      let r := strLoop interp track cap (items.drop t.advance) t.regs
      ⟨r.regs, t.item :: r.out, t.advance + r.consumed⟩

/-- The count `STR.FORECAST` answers for the ratio `num / den` and a margin (R123; 00_scope.md R10). -/
def strRequired (num den n : Nat) (margin : Nat := Config.LOOKAHEAD_MARGIN_DEFAULT) : Nat :=
  ceilDiv (n * num) den + margin

/-- `STR.FORECAST N` (R123). -/
def execStrForecast (n : Nat) (s : State) : Host.Outcome State Fault Refusal :=
  answerForecast s (strRequired Config.R_NUM Config.R_DEN n Config.LOOKAHEAD_MARGIN)

/-- `STR.WORK cap, avail` (R124). -/
def execStrWork (cap avail : Nat) (s : State) : Host.Outcome State Fault Refusal :=
  let r := strLoop Config.interp Config.track cap (s.strWindow avail) s.str
  .next (((s.withStr r.regs).emitStr r.out).tick.respond
    { starved := decide (r.out.length < cap) } (valOf r.out.length) (some (rxOf r.consumed)))

end Sys2Proof.Machine
end

