-- ==== Sys2Proof/Machine/Sys.lean ====
section
/-! DEFINITION. Unit SYS: `SYS.RDREG` (46_host_commands.md R273). -/

namespace Sys2Proof.Machine

/-- `SYS.RDREG r` (R273): the register's value, E_RANGE where the number is unassigned (10_state.md R58);
no side effect, in every state of every unit. -/
def execSysRdreg (reg : BitVec 8) (s : State) : Host.Outcome State Fault Refusal :=
  match statusRegister s reg with
  | some v => .next (s.respond {} 0 (some v))
  | none => raised s .range true

end Sys2Proof.Machine
end

