-- ==== Sys2Proof/Machine/TceBuild.lean ====
section
/-! DEFINITION. The construction of a code (44_trellis_code_engine.md R209 to R227): checks, the two
realizations, the step functions, TRELLIS and TERM. -/

namespace Sys2Proof.Machine

/-! ### Validation (R209, R210) -/

/-- 0 < I, O ≤ the stream-count bound (R209). -/
def dimsValid (maxStreams : Nat) (u : TceUnit) : Bool :=
  decide (0 < u.inputs.toNat ∧ u.inputs.toNat ≤ maxStreams ∧
    0 < u.outputs.toNat ∧ u.outputs.toNat ≤ maxStreams)

/-- The loaded entries of a matrix are exactly the rectangle (R210). -/
def matrixValid (inputs outputs : Nat) (m : Memory) : Bool :=
  m.all (fun e => decide (e.1 / 256 < inputs ∧ e.1 % 256 < outputs)) &&
  (List.range inputs).all (fun i => (List.range outputs).all (fun o => cfgLoaded m i o))

/-- The checks that fail with `err_dim` (R209, R210). -/
def shapeValid (maxStreams : Nat) (u : TceUnit) : Bool :=
  dimsValid maxStreams u && matrixValid u.inputs.toNat u.outputs.toNat u.gen &&
    (!u.hasFb || matrixValid u.inputs.toNat u.outputs.toNat u.fb)

/-! ### The candidates (R211 to R216) -/

/-- The highest set bit at or below position `k`, 0 if none. -/
def degFrom (p : BitVec 32) : Nat → Nat
  | 0 => 0
  | k + 1 => if p.getLsbD (k + 1) then k + 1 else degFrom p k

/-- `deg(p)`, with `deg(0) = 0` (R211). -/
def deg (p : BitVec 32) : Nat := degFrom p 31

/-- `TCE.G[i][o]`. -/
def genMask (u : TceUnit) (i o : Nat) : BitVec 32 := cfgEntry u.gen i o

/-- `Fn[i][o]`: bit 0 is fixed (R212). -/
def fbMask (u : TceUnit) (i o : Nat) : BitVec 32 :=
  if u.hasFb then cfgEntry u.fb i o ||| 1 else 1

/-- A memory before its length and offset are known. -/
structure MemorySketch where
  owner   : Nat
  phi     : BitVec 32
  members : List Nat
deriving DecidableEq, Repr

/-- Join the memory with this owner and feedback, or append a new one (R214, R215). -/
def joinMemory (owner member : Nat) (phi : BitVec 32) : List MemorySketch → List MemorySketch
  | [] => [⟨owner, phi, [member]⟩]
  | m :: ms =>
    if m.owner = owner ∧ m.phi = phi then { m with members := m.members ++ [member] } :: ms
    else m :: joinMemory owner member phi ms

/-- The positions of a candidate in creation order: owners outside, members inside (R214, R215). -/
def positions (owners members : Nat) : List (Nat × Nat) :=
  (List.range owners).flatMap (fun a => (List.range members).map (fun b => (a, b)))

/-- The memories of a candidate in creation order (R213 to R215). `gen` and `fb` take owner and member. -/
def sketchMemories (gen fb : Nat → Nat → BitVec 32) :
    List (Nat × Nat) → List MemorySketch → List MemorySketch
  | [], ms => ms
  | (a, b) :: ps, ms =>
    if gen a b = 0 then sketchMemories gen fb ps ms
    else sketchMemories gen fb ps (joinMemory a b (fb a b) ms)

/-- The largest of a list of lengths, 0 if empty. -/
def maxOf : List Nat → Nat
  | [] => 0
  | x :: xs => max x (maxOf xs)

/-- The length of a memory (R216). -/
def memoryLength (gen : Nat → Nat → BitVec 32) (m : MemorySketch) : Nat :=
  max (deg m.phi) (maxOf (m.members.map (fun b => deg (gen m.owner b))))

/-- Lengths and offsets in creation order (R216). -/
def placeMemories (gen : Nat → Nat → BitVec 32) : (off : Nat) → List MemorySketch → List CodeMemory
  | _, [] => []
  | off, m :: ms =>
    ⟨m.owner, m.phi, m.members, memoryLength gen m, off⟩ ::
      placeMemories gen (off + memoryLength gen m) ms

/-- One candidate (R214 to R216). -/
def layOut (owners members : Nat) (gen fb : Nat → Nat → BitVec 32) : List CodeMemory :=
  placeMemories gen 0 (sketchMemories gen fb (positions owners members) [])

/-- The candidate's total (R216). -/
def totalBits : List CodeMemory → Nat
  | [] => 0
  | m :: ms => m.len + totalBits ms

/-- The SOAI candidate: one owner per output (R214). -/
def soaiMems (u : TceUnit) : List CodeMemory :=
  layOut u.outputs.toNat u.inputs.toNat (fun o i => genMask u i o) (fun o i => fbMask u i o)

/-- The SIAO candidate: one owner per input (R215). -/
def siaoMems (u : TceUnit) : List CodeMemory :=
  layOut u.inputs.toNat u.outputs.toNat (fun i o => genMask u i o) (fun i o => fbMask u i o)

/-! ### Selection (R217 to R219) -/

/-- The smaller total wins; ties go to SOAI (R217). -/
def selectRealization (u : TceUnit) : Realization :=
  if totalBits (siaoMems u) < totalBits (soaiMems u) then .siao else .soai

/-- The memories of a realization. -/
def memsOf (u : TceUnit) : Realization → List CodeMemory
  | .soai => soaiMems u
  | .siao => siaoMems u

/-- The memories of the chosen realization (R217). -/
def chosenMems (u : TceUnit) : List CodeMemory := memsOf u (selectRealization u)

/-- `T` as a number (R219). -/
def chosenTotal (u : TceUnit) : Nat := totalBits (chosenMems u)

/-- `max_delay` as a number (R219). -/
def chosenMaxDelay (u : TceUnit) : Nat := maxOf ((chosenMems u).map CodeMemory.len)

/-- Feedback is in use (R218). -/
def feedbackInUse (u : TceUnit) : Bool :=
  (positions u.inputs.toNat u.outputs.toNat).any
    (fun p => decide (genMask u p.1 p.2 ≠ 0 ∧ fbMask u p.1 p.2 ≠ 1))

/-- An 8-bit total register. A sum of 256 or more has no stated value there and is free. DESIGN CHOICE
(log 9). -/
def totalRegister (free : Nat) (r : Realization) (n : Nat) : BitVec 8 :=
  if n < 256 then BitVec.ofNat 8 n else Config.freeTotal free r

/-- Step 2 of `TCE.BUILD`: the derived registers (R217 to R219). -/
def analyse (free : Nat) (u : TceUnit) : TceUnit :=
  { u with
    realization := selectRealization u
    fbEn := feedbackInUse u
    mems := chosenMems u
    totalSoai := totalRegister free .soai (totalBits (soaiMems u))
    totalSiao := totalRegister free .siao (totalBits (siaoMems u))
    totalDelay := totalRegister free (selectRealization u) (chosenTotal u)
    maxDelay := BitVec.ofNat 8 (chosenMaxDelay u) }

/-! ### Warnings (R226) -/

/-- Some output's generator column is zero. -/
def zeroColumn (u : TceUnit) : Bool :=
  (List.range u.outputs.toNat).any
    (fun o => (List.range u.inputs.toNat).all (fun i => genMask u i o == 0))

/-- Some input's generator row is zero. -/
def zeroRow (u : TceUnit) : Bool :=
  (List.range u.inputs.toNat).any
    (fun i => (List.range u.outputs.toNat).all (fun o => genMask u i o == 0))

/-! ### One symbol-step (R222 to R224) -/

/-- The delay element `m_k` of a memory, k from 1 (R222). -/
def delayBit (st : BitVec 32) (m : CodeMemory) (k : Nat) : Bool := st.getLsbD (m.off + k - 1)

/-- Write the delay elements `m'_1` to `m'_n` of a memory (R222). -/
def writeDelay (m : CodeMemory) (f : Nat → Bool) : Nat → BitVec 32 → BitVec 32
  | 0, st => st
  | n + 1, st => setBit (writeDelay m f n st) (m.off + (n + 1) - 1) (f (n + 1))

/-- The bit that enters the delay line under SIAO: `u ^ fb` (R223). -/
def siaoInput (st : BitVec 32) (c : BitVec 24) (m : CodeMemory) : Bool :=
  c.getLsbD m.owner ^^ xorUpTo m.len (fun k => m.phi.getLsbD k && delayBit st m k)

/-- What a SIAO memory adds to output `o` (R223). -/
def siaoTap (gen : Nat → Nat → BitVec 32) (st : BitVec 32) (c : BitVec 24) (m : CodeMemory) (o : Nat) :
    Bool :=
  ((gen m.owner o).getLsbD 0 && siaoInput st c m) ^^
    xorUpTo m.len (fun k => (gen m.owner o).getLsbD k && delayBit st m k)

/-- Accumulate a SIAO memory's taps into its member outputs (R223). -/
def siaoOutputs (gen : Nat → Nat → BitVec 32) (st : BitVec 32) (c : BitVec 24) (m : CodeMemory) :
    List Nat → BitVec 24 → BitVec 24
  | [], out => out
  | o :: os, out =>
    siaoOutputs gen st c m os (setBit out o (out.getLsbD o ^^ siaoTap gen st c m o))

/-- One memory of a SIAO step (R223). -/
def siaoMemory (gen : Nat → Nat → BitVec 32) (st : BitVec 32) (c : BitVec 24) (m : CodeMemory)
    (e : TrellisEntry) : TrellisEntry where
  next := writeDelay m (fun k => if k = 1 then siaoInput st c m else delayBit st m (k - 1)) m.len e.next
  out  := siaoOutputs gen st c m m.members e.out

/-- The output bit of a SOAI memory (R224). -/
def soaiOutput (gen : Nat → Nat → BitVec 32) (st : BitVec 32) (c : BitVec 24) (m : CodeMemory) : Bool :=
  (decide (1 ≤ m.len) && delayBit st m 1) ^^
    xorOver (fun i => (gen i m.owner).getLsbD 0 && c.getLsbD i) m.members

/-- The delay element `m'_k` of a SOAI memory (R224). -/
def soaiDelay (gen : Nat → Nat → BitVec 32) (st : BitVec 32) (c : BitVec 24) (m : CodeMemory) (k : Nat) :
    Bool :=
  (decide (k < m.len) && delayBit st m (k + 1)) ^^
    xorOver (fun i => (gen i m.owner).getLsbD k && c.getLsbD i) m.members ^^
    (m.phi.getLsbD k && soaiOutput gen st c m)

/-- One memory of a SOAI step (R224). -/
def soaiMemory (gen : Nat → Nat → BitVec 32) (st : BitVec 32) (c : BitVec 24) (m : CodeMemory)
    (e : TrellisEntry) : TrellisEntry where
  next := writeDelay m (soaiDelay gen st c m) m.len e.next
  out  := setBit e.out m.owner (e.out.getLsbD m.owner ^^ soaiOutput gen st c m)

/-- `step(s, c)` over a list of memories, from `out = 0`, `s' = 0` (R223, R224). -/
def stepMems (gen : Nat → Nat → BitVec 32) (r : Realization) (st : BitVec 32) (c : BitVec 24) :
    List CodeMemory → TrellisEntry → TrellisEntry
  | [], e => e
  | m :: ms, e =>
    stepMems gen r st c ms
      (match r with
        | .siao => siaoMemory gen st c m e
        | .soai => soaiMemory gen st c m e)

/-- One symbol-step of the chosen realization (R223, R224). -/
def codeStep (u : TceUnit) (st : BitVec 32) (c : BitVec 24) : TrellisEntry :=
  stepMems (genMask u) (selectRealization u) st c (chosenMems u) ⟨0, 0⟩

/-! ### TRELLIS (R225) -/

/-- The whole table, densely by `state * 2^I + c` (R225, 20_memory.md R61). -/
def buildTable (u : TceUnit) : List TrellisEntry :=
  (List.range (2 ^ chosenTotal u * 2 ^ u.inputs.toNat)).map (fun idx =>
    codeStep u (BitVec.ofNat 32 (idx / 2 ^ u.inputs.toNat)) (BitVec.ofNat 24 (idx % 2 ^ u.inputs.toNat)))

/-! ### TERM (R227) -/

/-- `next(s, c)` of a table with `combos` combinations per state; a state that is none where the table has
no such entry. -/
def tableNext (table : List TrellisEntry) (combos st c : Nat) : Nat :=
  match table[st * combos + c]? with
  | some e => e.next.toNat
  | none => 2 ^ 32

/-- `Reach[0]`, one bit per state (R227). -/
def reachEnd (states endState : Nat) : List Bool := (List.range states).map (fun st => st == endState)

/-- `Reach[r]` from `Reach[r-1]` (R227). -/
def reachStep (table : List TrellisEntry) (combos states : Nat) (prev : List Bool) : List Bool :=
  (List.range states).map (fun st =>
    (List.range combos).any (fun c => prev.getD (tableNext table combos st c) false))

/-- `[Reach[r], ..., Reach[0]]` (R227). -/
def reachLevels (table : List TrellisEntry) (combos states endState : Nat) : Nat → List (List Bool)
  | 0 => [reachEnd states endState]
  | r + 1 =>
    let below := reachLevels table combos states endState r
    reachStep table combos states (below.headD []) :: below

/-- The least combination from each state into the next level, down to `Reach[0]` (R227). -/
def termPath (table : List TrellisEntry) (combos : Nat) : List (List Bool) → Nat → Option (List Nat)
  | [], _ => some []
  | level :: levels, cur =>
    match (List.range combos).find? (fun c => level.getD (tableNext table combos cur c) false) with
    | none => none
    | some c => (termPath table combos levels (tableNext table combos cur c)).map (fun cs => c :: cs)

/-- `TERM`: for each state a sequence of exactly `total` combinations, or NONE (R227). -/
def buildTerm (table : List TrellisEntry) (combos states endState total : Nat) :
    List (Option (List Nat)) :=
  let levels := reachLevels table combos states endState total
  (List.range states).map (fun st =>
    if (levels.headD []).getD st false then termPath table combos levels.tail st else none)

/-- The termination table of a configuration (R227). -/
def buildTermFor (u : TceUnit) : List (Option (List Nat)) :=
  buildTerm (buildTable u) (2 ^ u.inputs.toNat) (2 ^ chosenTotal u) u.endState.toNat (chosenTotal u)

end Sys2Proof.Machine
end

