-- ==== Sys2Proof/Machine/Tce.lean ====
section
/-! DEFINITION. The commands of unit TCE (44_trellis_code_engine.md R202 to R208, R230). -/

namespace Sys2Proof.Machine

/-- A configuration write: accepted while UNBUILT only (R207). -/
def configure (s : State) (u : TceUnit) : Host.Outcome State Fault Refusal :=
  if s.tce.buildState = .unbuilt then .next ((s.withTce u).respond {} 0 none)
  else raised s .state false

/-- `TCE.CFG_DIM I, O` (R202): any 8-bit values are stored. -/
def execTceCfgDim (inputs outputs : BitVec 8) (s : State) : Host.Outcome State Fault Refusal :=
  configure s { s.tce with inputs := inputs, outputs := outputs }

/-- A matrix write: E_STATE first, then E_RANGE (R203, R204, 60_exceptions.md R299). -/
def configureEntry (maxStreams i o : Nat) (s : State) (u : TceUnit) :
    Host.Outcome State Fault Refusal :=
  .next
    (if s.tce.buildState = .unbuilt then
      if maxStreams ≤ i ∨ maxStreams ≤ o then s.raise .range false
      else (s.withTce u).respond {} 0 none
    else s.raise .state false)

/-- `TCE.CFG_GEN i, o, mask` (R203). -/
def execTceCfgGen (i o : Nat) (mask : BitVec 32) (s : State) : Host.Outcome State Fault Refusal :=
  configureEntry Config.MAX_STREAMS i o s { s.tce with gen := memWrite s.tce.gen (cfgKey i o) mask }

/-- `TCE.CFG_FB i, o, mask` (R204). -/
def execTceCfgFb (i o : Nat) (mask : BitVec 32) (s : State) : Host.Outcome State Fault Refusal :=
  configureEntry Config.MAX_STREAMS i o s
    { s.tce with fb := memWrite s.tce.fb (cfgKey i o) mask, hasFb := true }

/-- `TCE.CFG_BLOCK term, block_len` (R205). -/
def execTceCfgBlock (term : Bool) (blockLen : BitVec 32) (s : State) :
    Host.Outcome State Fault Refusal :=
  configure s { s.tce with doTerm := term, blockLen := blockLen }

/-- `TCE.CFG_END end_state` (R206). -/
def execTceCfgEnd (endState : BitVec 32) (s : State) : Host.Outcome State Fault Refusal :=
  configure s { s.tce with endState := endState }

/-- Termination is checked against the block length (R220). -/
def checksBlockLength (u : TceUnit) : Bool := u.doTerm && decide (u.blockLen.toNat ≠ 0)

/-- Steps 5 to 8 of `TCE.BUILD` on an analysed unit (R208, R225 to R227). -/
def finishBuild (u : TceUnit) : TceUnit :=
  { u with
    warnZeroOut := zeroColumn u
    warnZeroIn := zeroRow u
    table := buildTable u
    term := if u.doTerm then buildTermFor u else []
    buildState := .built }

/-- The construction (R208), with the stream bound and the largest total delay as arguments. -/
def tceBuild (maxStreams maxTotalDelay : Nat) (s : State) : Host.Outcome State Fault Refusal :=
  if s.tce.buildState ≠ .unbuilt then raised s .state false
  else if shapeValid maxStreams s.tce = false then
    raised (s.withTce { s.tce with errDim := true, buildState := .failed }) .config false
  else
    let u := analyse s.freeCount s.tce
    if checksBlockLength u ∧ u.blockLen.toNat < chosenMaxDelay u then
      raised ((s.withTce { u with errBlocklen := true, buildState := .failed }).tick) .config false
    else if checksBlockLength u ∧ u.blockLen.toNat < chosenTotal u then .refused .blockLengthBand
    else if maxTotalDelay < chosenTotal u then .refused .tableTooLarge
    else if u.doTerm ∧ 2 ^ chosenTotal u ≤ u.endState.toNat then .refused .endStateOutOfRange
    else
      let v := finishBuild u
      .next ((s.withTce v).tick.respond { warn := v.warnZeroOut || v.warnZeroIn } 0 none)

/-- `TCE.BUILD` (R208). -/
def execTceBuild (s : State) : Host.Outcome State Fault Refusal :=
  tceBuild Config.MAX_STREAMS Config.MAX_TOTAL_DELAY s

/-- `TCE.LOOKUP input_vector, state` (R230). -/
def execTceLookup (inputVector : BitVec 24) (state : BitVec 32) (s : State) :
    Host.Outcome State Fault Refusal :=
  if s.tce.buildState ≠ .built then raised s .state true
  else if 2 ^ s.tce.totalDelay.toNat ≤ state.toNat ∨ 2 ^ s.tce.inputs.toNat ≤ inputVector.toNat then
    raised s .range true
  else
    match trellisRead s.tce state.toNat inputVector.toNat with
    | .ok e => .next (s.respond {} e.out (some e.next))
    | .error f => .fault f

end Sys2Proof.Machine
end

