-- ==== Sys2Proof/Machine/Dispatch.lean ====
section
/-! DEFINITION. One arm per command (30_encoding.md R97). -/

namespace Sys2Proof.Machine

def exec (i : Instr) (s : State) : Host.Outcome State Fault Refusal :=
  match i with
  | .sysRdreg reg => Sys2Proof.Machine.execSysRdreg reg s
  | .strForecast n => Sys2Proof.Machine.execStrForecast n s
  | .strWork cap avail => Sys2Proof.Machine.execStrWork cap avail s
  | .fsdForecast n => Sys2Proof.Machine.execFsdForecast n s
  | .fsdWork cap avail => Sys2Proof.Machine.execFsdWork cap avail s
  | .lfsrReset => Sys2Proof.Machine.execLfsrReset s
  | .lfsrOut => Sys2Proof.Machine.execLfsrOut s
  | .lfsrClk => Sys2Proof.Machine.execLfsrClk s
  | .lfsrWhiten n => Sys2Proof.Machine.execLfsrWhiten n s
  | .lfsrDewhiten m => Sys2Proof.Machine.execLfsrDewhiten m s
  | .tceCfgDim inputs outputs => Sys2Proof.Machine.execTceCfgDim inputs outputs s
  | .tceCfgGen row col mask => Sys2Proof.Machine.execTceCfgGen row col mask s
  | .tceCfgFb row col mask => Sys2Proof.Machine.execTceCfgFb row col mask s
  | .tceCfgBlock term blockLen => Sys2Proof.Machine.execTceCfgBlock term blockLen s
  | .tceCfgEnd endState => Sys2Proof.Machine.execTceCfgEnd endState s
  | .tceBuild => Sys2Proof.Machine.execTceBuild s
  | .tceLookup inputVector state => Sys2Proof.Machine.execTceLookup inputVector state s
  | .cesForecast n => Sys2Proof.Machine.execCesForecast n s
  | .cesWork cap avail => Sys2Proof.Machine.execCesWork cap avail s

end Sys2Proof.Machine
end

