-- ==== Sys2Proof/Machine/HostMoves.lean ====
section
/-! DEFINITION. What the world outside CORE does between commands: placing words, filling and committing
windows (46_host_commands.md R272, R278), and the reset input (70_reset_and_hazards.md R320). -/

namespace Sys2Proof.Machine

/-- Hardware reset (R320, R321): every register at its reset value, but `LUT.built` survives. A half-placed
command is abandoned and no response is given; the windows, the host's queue and the free-value counter are
not registers of CORE (log 17). -/
def hardwareReset (s : State) : State :=
  { State.reset with
    lutBuilt := s.lutBuilt, win := s.win, host := s.host, freeCount := s.freeCount }

/-- The host puts a window in place of the old one. -/
def presentWindow (w : Windows) : WindowItems → Windows
  | .str items => { w with strIn := items }
  | .fsd items => { w with fsdIn := items }
  | .lfsr items => { w with lfsrIn := items }
  | .ces items => { w with cesIn := items }

/-- The host appends items to a window (R278). -/
def appendWindow (w : Windows) : WindowItems → Windows
  | .str items => { w with strIn := w.strIn ++ items }
  | .fsd items => { w with fsdIn := w.fsdIn ++ items }
  | .lfsr items => { w with lfsrIn := w.lfsrIn ++ items }
  | .ces items => { w with cesIn := w.cesIn ++ items }

/-- The host removes `n` items from the front of a unit's input window (R272). -/
def commitWindow (w : Windows) (n : Nat) : StreamUnit → Windows
  | .str => { w with strIn := w.strIn.drop n }
  | .fsd => { w with fsdIn := w.fsdIn.drop n }
  | .ces => { w with cesIn := w.cesIn.drop n }

/-- The consumed count of the last response: its `RX` (30_encoding.md R97). -/
def consumedCount (r : Option Response) : Nat :=
  match r with
  | some ⟨_, some rx⟩ => rx.toNat
  | _ => 0

/-- One move of the host. -/
def hostMove (s : State) : HostMove → State
  | .place words => s.withPort (s.port ++ words)
  | .present items => s.withWin (presentWindow s.win items)
  | .append items => s.withWin (appendWindow s.win items)
  | .commit unit => s.withWin (commitWindow s.win (consumedCount s.response) unit)
  | .reset => hardwareReset s

/-- The host's turn: its next move, or none (the hardware waits for a command, 20_memory.md R75). -/
def hostTurn (s : State) : State :=
  match s.host with
  | [] => s
  | m :: rest => hostMove (s.withHost rest) m

end Sys2Proof.Machine
end

