-- ==== Sys2Proof/Machine/Step.lean ====
section
/-! DEFINITION. One step: the decoder takes the command at the head of the port and the addressed unit
executes it to completion (30_encoding.md R90, R106; 46_host_commands.md R275). -/

namespace Sys2Proof.Machine

/-- One step of the machine. A whole command is taken from the port and executed. An illegal command word is
taken alone and answered E_ILLEGAL with no change of any state (30_encoding.md R105). With no complete
command on the port it is the host's turn (log 3). -/
def step (s : State) : Host.Outcome State Fault Refusal :=
  match Sys2Proof.decode s.port with
  | .command i rest => exec i (s.withPort rest)
  | .illegal _ rest => raised (s.withPort rest) .illegal false
  | .incomplete => .next (hostTurn s)

/-- `s` with an instruction of the opcode table standing on the command port, so that the next step takes
and runs it (log 4). -/
def State.withFetchWord (s : State) (nbits w : Nat) : State :=
  s.withPort (Sys2Proof.commandWords nbits w)

end Sys2Proof.Machine
end

