-- ==== Sys2Proof/Safety.lean ====
section
/-! DEFINITION. The terms claims are made in: the fields of a response, a walk through TRELLIS, the legal
command words, and the invariant every run from reset keeps. -/

namespace Sys2Proof.Machine

/-! ### Responses -/

/-- A response: STATUS in bits 31:28, EVT in bits 27:24, VAL in bits 23:0 (30_encoding.md R94). -/
def answer (status evt val : Nat) (rx : Option Word) : Option Response :=
  some ⟨BitVec.ofNat 32 (status * 2 ^ 28 + evt * 2 ^ 24 + val), rx⟩

/-- The STATUS code of the last response (30_encoding.md R94). -/
def statusOf (s : State) : Option Nat := s.response.map (fun r => r.rw.toNat / 2 ^ 28)

/-- The VAL field of the last response: `produced` for a WORK (30_encoding.md R97). -/
def valField (s : State) : Nat :=
  match s.response with
  | some r => r.rw.toNat % 2 ^ 24
  | none => 0

/-- The RX word of the last response: `consumed` for a WORK (30_encoding.md R97). -/
def rxField (s : State) : Nat := consumedCount s.response

/-- Everything of `t` but the response is as in `s`. -/
def SameButResponse (s t : State) : Prop := t = s.withResponse t.response

/-- The step is the host's and the host asserts the reset input (70_reset_and_hazards.md R320; log 17). -/
def ResetTurn (s : State) : Prop :=
  decode s.port = .incomplete ∧ ∃ rest, s.host = .reset :: rest

/-- A window of `n` items that the host has filled whole. -/
def Filled {α : Type} (n : Nat) (l : List α) : Prop := n ≤ l.length

/-! ### Units and status registers, as the tables of 30_encoding.md R92 and 10_state.md R47 to R57 print them -/

/-- The unit number a command is addressed to (R92, R97). -/
def unitOf : Instr → Nat
  | .sysRdreg _ => 0
  | .strForecast _ | .strWork _ _ => 1
  | .fsdForecast _ | .fsdWork _ _ => 2
  | .lfsrReset | .lfsrOut | .lfsrClk | .lfsrWhiten _ | .lfsrDewhiten _ => 3
  | .tceCfgDim _ _ | .tceCfgGen _ _ _ | .tceCfgFb _ _ _ | .tceCfgBlock _ _ | .tceCfgEnd _ | .tceBuild
  | .tceLookup _ _ => 4
  | .cesForecast _ | .cesWork _ _ => 5

/-- A command accepted while UNBUILT only (44_trellis_code_engine.md R207). -/
def needsUnbuilt : Instr → Bool
  | .tceCfgDim _ _ | .tceCfgGen _ _ _ | .tceCfgFb _ _ _ | .tceCfgBlock _ _ | .tceCfgEnd _ | .tceBuild => true
  | .sysRdreg _ | .strForecast _ | .strWork _ _ | .fsdForecast _ | .fsdWork _ _ | .lfsrReset | .lfsrOut
  | .lfsrClk | .lfsrWhiten _ | .lfsrDewhiten _ | .tceLookup _ _ | .cesForecast _ | .cesWork _ _ => false

/-- A command accepted while BUILT only (44_trellis_code_engine.md R207). -/
def needsBuilt : Instr → Bool
  | .tceLookup _ _ | .cesForecast _ | .cesWork _ _ => true
  | .sysRdreg _ | .strForecast _ | .strWork _ _ | .fsdForecast _ | .fsdWork _ _ | .lfsrReset | .lfsrOut
  | .lfsrClk | .lfsrWhiten _ | .lfsrDewhiten _ | .tceCfgDim _ _ | .tceCfgGen _ _ _ | .tceCfgFb _ _ _
  | .tceCfgBlock _ _ | .tceCfgEnd _ | .tceBuild => false

/-- A flag weighted by its bit position. -/
def flagAt (b : Bool) (position : Nat) : Nat := if b then 2 ^ position else 0

/-- The value of a status register as a sum of its fields; `none` for an unassigned number (R47 to R58). -/
def registerMap (s : State) (r : Nat) : Option Nat :=
  match r with
  | 0x10 => some (flagAt s.str.segLocked 0 + s.str.symbolIndex.toNat * 2)
  | 0x20 => some (flagAt (s.fsd.state == .locked) 0 + flagAt s.fsd.inField2 1 +
      flagAt s.fsd.evSyncLoss 2 + flagAt s.fsd.evOverflow 3)
  | 0x21 => some s.fsd.segmentNumber.toNat
  | 0x22 => some s.fsd.lossPos.toNat
  | 0x30 => some s.lfsr.s.toNat
  | 0x31 => some (flagAt s.lutBuilt 0)
  | 0x40 => some (flagAt (s.tce.buildState == .built) 0 + flagAt (s.tce.buildState == .failed) 1 +
      flagAt s.tce.errDim 2 + flagAt s.tce.errBlocklen 3 + flagAt s.tce.warnZeroOut 4 +
      flagAt s.tce.warnZeroIn 5 + flagAt (s.tce.realization == .siao) 6 + flagAt s.tce.fbEn 7 +
      flagAt s.tce.doTerm 8 + flagAt s.tce.hasFb 9)
  | 0x41 => some (s.tce.inputs.toNat + s.tce.outputs.toNat * 2 ^ 8)
  | 0x42 => some (s.tce.totalDelay.toNat + s.tce.maxDelay.toNat * 2 ^ 8 + s.tce.totalSoai.toNat * 2 ^ 16 +
      s.tce.totalSiao.toNat * 2 ^ 24)
  | 0x43 => some s.tce.blockLen.toNat
  | 0x44 => some s.tce.endState.toNat
  | 0x50 => some (flagAt (s.ces.phase == .encodingPayload) 0 + flagAt (s.ces.phase == .terminating) 1 +
      flagAt s.ces.faultTerm 2)
  | 0x51 => some s.ces.tstate.toNat
  | 0x52 => some s.ces.payloadCount.toNat
  | 0x53 => some s.ces.termCount.toNat
  | _ => none

/-! ### STR: turns and calls -/

/-- The registers after turns on the given windows, and the sum of the advances
(41_symbol_timing_recovery.md R124, R128). -/
def strTurns {w : Nat} (interp : List Sample → Sample → InterpState → InterpResult w)
    (track : Sample → LoopState → TrackResult) : List (List Sample) → StrUnit → StrUnit × Nat
  | [], u => (u, 0)
  | x :: xs, u =>
    let t := strTurn interp track x u
    let r := strTurns interp track xs t.regs
    (r.1, t.advance + r.2)

/-- `InterpRateBound` for the ratio `num / den` (41_symbol_timing_recovery.md R128): for every sequence of
turns from reset and every k ≥ 1, with A the sum of the advances of the first k-1 turns,
k ≤ ceil((A + w) / R). -/
def InterpRateBound {w : Nat} (interp : List Sample → Sample → InterpState → InterpResult w)
    (track : Sample → LoopState → TrackResult) (num den : Nat) : Prop :=
  ∀ windows : List (List Sample), (∀ x ∈ windows, x.length = w) →
    windows.length + 1 ≤ ceilDiv (((strTurns interp track windows StrUnit.reset).2 + w) * den) num

/-- The number of pairs emitted over repeated calls on one stream: each call has a capacity and a window
length, and the host commits before the next (46_host_commands.md R272). -/
def strCalls {w : Nat} (interp : List Sample → Sample → InterpState → InterpResult w)
    (track : Sample → LoopState → TrackResult) : List (Nat × Nat) → List Sample → StrUnit → Nat
  | [], _, _ => 0
  | c :: cs, items, u =>
    let r := strLoop interp track c.1 (items.take c.2) u
    r.out.length + strCalls interp track cs (items.drop r.consumed) r.regs

/-! ### FSD: segments of the input stream -/

/-- 832 items of which the first has the given marker class (42_field_sync_demux.md R143). -/
def MarkedSegment (c : MarkerClass) (b : List MarkedSample) : Prop :=
  b.length = 832 ∧ ∃ x xs, b = x :: xs ∧ x.marker = c

/-- What `report SEG_OVERFLOW` and the clamp do before an emission (42_field_sync_demux.md R149). -/
def clampedNumber (segs number : Nat) : Nat := if segs ≤ number then segs - 1 else number

/-! ### The opcode map, as the table of 30_encoding.md R97 prints it -/

/-- UNIT, OP, and the number of low `ARG` bits the row assigns (all rows assign a low field). -/
def opcodeRows : List (Nat × Nat × Nat) :=
  [(0, 1, 8),
   (1, 0, 24), (1, 1, 24),
   (2, 0, 24), (2, 1, 24),
   (3, 0, 0), (3, 1, 0), (3, 2, 0), (3, 3, 24), (3, 4, 24),
   (4, 0, 16), (4, 1, 16), (4, 2, 16), (4, 3, 1), (4, 4, 0), (4, 5, 0), (4, 6, 24),
   (5, 0, 24), (5, 1, 24)]

/-- A legal command word: its pair is in the table and the bits its row does not assign are zero (R105). -/
def LegalWord (cw : Word) : Prop :=
  ∃ row ∈ opcodeRows, cw.toNat / 2 ^ 28 = row.1 ∧ cw.toNat / 2 ^ 24 % 16 = row.2.1 ∧
    cw.toNat % 2 ^ 24 < 2 ^ row.2.2

/-! ### Walks through TRELLIS -/

/-- The state a list of input combinations leads to. -/
def walk (table : List TrellisEntry) (combos : Nat) : Nat → List Nat → Nat
  | st, [] => st
  | st, c :: cs => walk table combos (tableNext table combos st c) cs

/-- The outputs of a code started in a state and fed input combinations (44_trellis_code_engine.md R229). -/
def encodeFrom (u : TceUnit) : BitVec 32 → List (BitVec 24) → List (BitVec 24)
  | _, [] => []
  | st, c :: cs => (codeStep u st c).out :: encodeFrom u (codeStep u st c).next cs

/-- The outputs of a table from a state under input combinations, 0 where the table has no such entry. -/
def tableOutputs (table : List TrellisEntry) (combos : Nat) : Nat → List Nat → List (BitVec 24)
  | _, [] => []
  | st, c :: cs =>
    (match table[st * combos + c]? with
      | some e => e.out
      | none => 0) :: tableOutputs table combos (tableNext table combos st c) cs

/-! ### TCE: what a configuration means -/

/-- The rectangle of positions loaded is exactly I by O (44_trellis_code_engine.md R210). -/
def LoadedExactly (inputs outputs : Nat) (m : Memory) : Prop :=
  ∀ i o, i < 256 → o < 256 → (cfgLoaded m i o = true ↔ i < inputs ∧ o < outputs)

/-- The space CFG: canonical, and keyed by positions of 8-bit operands (20_memory.md R64). -/
def CfgInv (m : Memory) : Prop := m.wf ∧ ∀ e ∈ m, e.1 < 65536

/-- A configuration that R209 and R210 of 44_trellis_code_engine.md accept at a stream bound. -/
def WellShaped (maxStreams : Nat) (u : TceUnit) : Prop :=
  0 < u.inputs.toNat ∧ u.inputs.toNat ≤ maxStreams ∧ 0 < u.outputs.toNat ∧ u.outputs.toNat ≤ maxStreams ∧
  CfgInv u.gen ∧ LoadedExactly u.inputs.toNat u.outputs.toNat u.gen ∧
  (u.hasFb = true → CfgInv u.fb ∧ LoadedExactly u.inputs.toNat u.outputs.toNat u.fb)

/-- `Fn[i][o]` (44_trellis_code_engine.md R212). -/
def normalFeedback (u : TceUnit) (i o : Nat) : BitVec 32 :=
  if u.hasFb = true then cfgEntry u.fb i o ||| 1 else 1

/-- The delay bits of a list of memories (44_trellis_code_engine.md R216). -/
def delayBits (ms : List CodeMemory) : Nat := (ms.map CodeMemory.len).sum

/-- What a candidate's memories are (44_trellis_code_engine.md R211, R213 to R216), for generators and
normalised feedback given by owner and member. The fields determine the list. -/
structure Candidate (owners members : Nat) (gen fb : Nat → Nat → BitVec 32) (ms : List CodeMemory) :
    Prop where
  /-- The positions that belong to some memory are the participating ones (R213). -/
  participating : ∀ a b, (∃ m ∈ ms, m.owner = a ∧ b ∈ m.members) ↔ a < owners ∧ b < members ∧ gen a b ≠ 0
  /-- A memory has the feedback of each of its members (R214, R215). -/
  feedback : ∀ m ∈ ms, ∀ b ∈ m.members, m.phi = fb m.owner b
  /-- Positions of one owner that share the feedback share the memory (R214, R215). -/
  coalesced : ms.Pairwise (fun m m' => m.owner ≠ m'.owner ∨ m.phi ≠ m'.phi)
  /-- Members join in rising order, and every memory has one (R214, R215). -/
  memberOrder : ∀ m ∈ ms, m.members ≠ [] ∧ m.members.Pairwise (· < ·)
  /-- Memories stand in the order of the positions that created them (R214, R215). -/
  creationOrder : ms.Pairwise (fun m m' =>
    m.owner < m'.owner ∨ (m.owner = m'.owner ∧ m.members.headD 0 < m'.members.headD 0))
  /-- No polynomial of a memory has a term above its length (R211, R216). -/
  lengthBounds : ∀ m ∈ ms, ∀ k, m.len < k →
    m.phi.getLsbD k = false ∧ ∀ b ∈ m.members, (gen m.owner b).getLsbD k = false
  /-- Some polynomial of a memory of positive length has that degree (R211, R216). -/
  lengthReached : ∀ m ∈ ms, 0 < m.len →
    m.phi.getLsbD m.len = true ∨ ∃ b ∈ m.members, (gen m.owner b).getLsbD m.len = true
  /-- A memory's offset is the sum of the lengths before it (R216). -/
  offset : ∀ j m, ms[j]? = some m → m.off = delayBits (ms.take j)

/-- The memories the smaller total selects, ties to SOAI (44_trellis_code_engine.md R217). -/
def selectedMems (u : TceUnit) : List CodeMemory :=
  if delayBits (siaoMems u) < delayBits (soaiMems u) then siaoMems u else soaiMems u

/-! ### TCE: convolution -/

/-- XOR of `f` at 0 to `n - 1`. -/
def xorBelow (n : Nat) (f : Nat → Bool) : Bool := ((List.range n).map f).foldr Bool.xor false

/-- XOR of `f` over the memories of a code. -/
def xorMems (ms : List CodeMemory) (f : CodeMemory → Bool) : Bool := (ms.map f).foldr Bool.xor false

/-- Bit `i` of the input combination at time `t`. -/
def inputBit (cs : List (BitVec 24)) (i t : Nat) : Bool := ((cs[t]?).getD 0).getLsbD i

/-- Coefficient `t` of the product of a mask, read as a polynomial in the delay operator, with a sequence
(44_trellis_code_engine.md R201). -/
def convolve (mask : BitVec 32) (x : Nat → Bool) (t : Nat) : Bool :=
  xorBelow (t + 1) (fun k => mask.getLsbD k && x (t - k))

/-- A list of combinations that drives the code from `st` to `goal` in exactly `total` steps
(44_trellis_code_engine.md R227). -/
def DrivesTo (table : List TrellisEntry) (combos total st goal : Nat) (cs : List Nat) : Prop :=
  cs.length = total ∧ (∀ c ∈ cs, c < combos) ∧ walk table combos st cs = goal

/-! ### The invariant -/

/-- STR: the index register is a position within a segment (10_state.md R24). -/
def StrInv (u : StrUnit) : Prop := u.symbolIndex.toNat < 832

/-- FSD: the counter never passes `SEGS_PER_FIELD` (10_state.md R30). -/
def FsdInv (u : FsdUnit) : Prop := u.segmentNumber.toNat ≤ Config.SEGS_PER_FIELD

/-- A termination sequence of a state: exactly `T` combinations, each of I bits, leading to the end state
(44_trellis_code_engine.md R227). -/
def TermSeqInv (u : TceUnit) (st : Nat) (seq : List Nat) : Prop :=
  seq.length = u.totalDelay.toNat ∧ (∀ c ∈ seq, c < 2 ^ u.inputs.toNat) ∧
    walk u.table (2 ^ u.inputs.toNat) st seq = u.endState.toNat

/-- What a finished construction leaves (R219, R225, R227; 20_memory.md R61, R62; the bounds are those of
30_encoding.md R104). -/
def BuiltInv (u : TceUnit) : Prop :=
  0 < u.inputs.toNat ∧ u.inputs.toNat ≤ 24 ∧ 0 < u.outputs.toNat ∧ u.outputs.toNat ≤ 24 ∧
  u.totalDelay.toNat ≤ 24 ∧
  u.table.length = 2 ^ u.totalDelay.toNat * 2 ^ u.inputs.toNat ∧
  (∀ e ∈ u.table, e.next.toNat < 2 ^ u.totalDelay.toNat ∧ e.out.toNat < 2 ^ u.outputs.toNat) ∧
  (u.doTerm = true → u.endState.toNat < 2 ^ u.totalDelay.toNat ∧
    u.term.length = 2 ^ u.totalDelay.toNat ∧
    ∀ st seq, u.term[st]? = some (some seq) → TermSeqInv u st seq)

/-- TCE: the tables are absent until built (70_reset_and_hazards.md R322), a failed build has recorded
exactly one cause (44_trellis_code_engine.md R228), and a built one holds its tables. -/
def TceInv (u : TceUnit) : Prop :=
  CfgInv u.gen ∧ CfgInv u.fb ∧
  (u.buildState ≠ .built → u.table = [] ∧ u.term = []) ∧
  (u.buildState = .failed → u.errDim = !u.errBlocklen) ∧
  (u.buildState ≠ .failed → u.errDim = false ∧ u.errBlocklen = false) ∧
  (u.buildState = .built → BuiltInv u)

/-- CES on its code (10_state.md R42 to R45; 20_memory.md R73): untouched until the code is built; then its
state is a state of the code, a block in progress is not complete, and a termination in progress has its
sequence, of which the part to come leads to the end state, unless the fault is latched. -/
def CesInv (t : TceUnit) (u : CesUnit) : Prop :=
  (t.buildState ≠ .built → u = CesUnit.reset) ∧
  (t.buildState = .built →
    u.tstate.toNat < 2 ^ t.totalDelay.toNat ∧
    (u.phase = .encodingPayload → t.blockLen ≠ 0 → u.payloadCount.toNat < t.blockLen.toNat) ∧
    (u.phase ≠ .terminating → u.faultTerm = false) ∧
    (u.phase = .terminating →
      t.doTerm = true ∧ t.blockLen ≠ 0 ∧
      (u.faultTerm = true → u.tstate = u.termBase ∧ t.term[u.termBase.toNat]? = some none) ∧
      (u.faultTerm = false → ∃ seq, t.term[u.termBase.toNat]? = some (some seq) ∧
        u.termCount.toNat < t.totalDelay.toNat ∧
        walk t.table (2 ^ t.inputs.toNat) u.tstate.toNat (seq.drop u.termCount.toNat) =
          t.endState.toNat)))

/-- What holds at reset and after every step. -/
def State.Inv (s : State) : Prop :=
  StrInv s.str ∧ FsdInv s.fsd ∧ TceInv s.tce ∧ CesInv s.tce s.ces

/-- A safe run ends in no fault. -/
def NoFault (o : Host.Outcome State Fault Refusal) : Prop := ∀ f, o ≠ .fault f

end Sys2Proof.Machine
end

