-- ==== Sys2Proof/Certificates/Slice0/Obligations.lean ====
section
/-! DEFINITION. The statements for the provers. Each docstring names the rules it formalises, or says that it
rests on a choice of the model and names the log entry. -/

open Sys2Proof Sys2Proof.Machine

/-! ### Decoding and stepping -/

/-- 30_encoding.md R97 to R102: decoding the words of a well-formed command gives the command back, and
leaves the words after it. -/
def Obligations.DecodeOfEncode : Prop :=
  ∀ (i : Instr) (rest : List Word), i.WellFormed → decode (encode i ++ rest) = .command i rest

/-- 30_encoding.md R97 to R106: a command decoded from words is well-formed, and the words taken are its
encoding; so no two encodings share a meaning. -/
def Obligations.EncodeOfDecode : Prop :=
  ∀ (words : List Word) (i : Instr) (rest : List Word),
    decode words = .command i rest → i.WellFormed ∧ words = encode i ++ rest

/-- 30_encoding.md R105: a command word whose pair is not in the table of R97, or that sets a bit its row does
not assign, is answered E_ILLEGAL with EVT = 0, VAL = 0 and no RX, takes no extension word and changes nothing
else; a legal word is never answered so. -/
def Obligations.IllegalWordIsAnswered : Prop :=
  ∀ (s : State) (cw : Word) (rest : List Word), s.port = cw :: rest →
    (¬ LegalWord cw → step s = .next { s with port := rest, response := answer 1 0 0 none }) ∧
    (LegalWord cw → ∀ why r, decode s.port ≠ .illegal why r)

/-- Words of 95_test_vectors.md V-DEC-1 and V-DEC-2 decode to what the vectors say. -/
def Obligations.VectorWordsDecode : Prop :=
  decode [0x01000030] = .command (.sysRdreg 0x30) [] ∧
  decode [0x11000008, 0x00001388] = .command (.strWork 8 5000) [] ∧
  decode [0x21000001, 0x00000340] = .command (.fsdWork 1 832) [] ∧
  decode [0x33000005] = .command (.lfsrWhiten 5) [] ∧
  decode [0x40000201] = .command (.tceCfgDim 1 2) [] ∧
  decode [0x41000100, 0x00000005] = .command (.tceCfgGen 0 1 5) [] ∧
  decode [0x43000001, 0x00000004] = .command (.tceCfgBlock true 4) [] ∧
  decode [0x46000001, 0x00000000] = .command (.tceLookup 1 0) [] ∧
  decode [0x51000005, 0x00000004] = .command (.cesWork 5 4) [] ∧
  decode [0x00000000] = .illegal .unassignedOp [] ∧
  decode [0x40010201] = .illegal .nonzeroReservedBits [] ∧
  decode [0x60000000] = .illegal .reservedUnit []

/-- 30_encoding.md R90, R106: when the words on the command port begin with the words of a well-formed
command, the step takes exactly those words and is that command. -/
def Obligations.StepRunsDecodedCommand : Prop :=
  (∀ (s : State) (i : Instr) (rest : List Word),
    decode s.port = .command i rest → step s = exec i { s with port := rest }) ∧
  (∀ (s : State) (i : Instr) (rest : List Word),
    i.WellFormed → s.port = encode i ++ rest → step s = exec i { s with port := rest })

/-- The model's choice (log 3, log 16): with no whole command on the port the step is the host's next move,
and with no move left the machine waits (20_memory.md R75). A move places words (30_encoding.md R90), presents a
window in place of the old one, appends to a window (46_host_commands.md R278), commits (R272), or asserts the
reset input (70_reset_and_hazards.md R320, R321, 10_state.md R36), which puts every register at its reset value but
`LUT.built`; that a half-placed command is dropped and that windows, host queue and free-value counter stay is
log 17. -/
def Obligations.HostMovesBetweenCommands : Prop :=
  ∀ (s : State) (rest : List HostMove), decode s.port = .incomplete →
    (s.host = [] → step s = .next s) ∧
    (∀ ws, s.host = .place ws :: rest → step s = .next { s with port := s.port ++ ws, host := rest }) ∧
    (∀ items, s.host = .present items :: rest →
      step s = .next { s with
        host := rest
        win := match items with
          | .str l => { s.win with strIn := l }
          | .fsd l => { s.win with fsdIn := l }
          | .lfsr l => { s.win with lfsrIn := l }
          | .ces l => { s.win with cesIn := l } }) ∧
    (∀ items, s.host = .append items :: rest →
      step s = .next { s with
        host := rest
        win := match items with
          | .str l => { s.win with strIn := s.win.strIn ++ l }
          | .fsd l => { s.win with fsdIn := s.win.fsdIn ++ l }
          | .lfsr l => { s.win with lfsrIn := s.win.lfsrIn ++ l }
          | .ces l => { s.win with cesIn := s.win.cesIn ++ l } }) ∧
    (s.host = .commit .str :: rest →
      step s = .next { s with win := { s.win with strIn := s.win.strIn.drop (rxField s) }, host := rest }) ∧
    (s.host = .commit .fsd :: rest →
      step s = .next { s with win := { s.win with fsdIn := s.win.fsdIn.drop (rxField s) }, host := rest }) ∧
    (s.host = .commit .ces :: rest →
      step s = .next { s with win := { s.win with cesIn := s.win.cesIn.drop (rxField s) }, host := rest }) ∧
    (s.host = .reset :: rest →
      step s = .next { State.reset with
        lutBuilt := s.lutBuilt, win := s.win, host := rest, freeCount := s.freeCount })

/-! ### Invariants and whole-machine rules -/

/-- The invariant of Safety.lean (10_state.md R24, R30, R39, R43; 20_memory.md R61, R62, R73;
44_trellis_code_engine.md R228): every step from a state that has it leads to one that has it. -/
def Obligations.StepKeepsInvariant : Prop :=
  ∀ s t : State, s.Inv → step s = .next t → t.Inv

/-- The state after reset has the invariant. -/
def Obligations.ResetHasInvariant : Prop := State.reset.Inv

/-- 20_memory.md R73: "CES and LFSR form their indices from registers that are in range by construction". From
a state that has the invariant no step ends in a fault of the model (log 14). -/
def Obligations.InvariantStatesDoNotFault : Prop :=
  ∀ s : State, s.Inv → NoFault (step s)

/-- 93_implementation_defined.md U3, U4, U5, U9: only `TCE.BUILD` and `FSD.WORK` are ever refused, each for
the reasons listed there. -/
def Obligations.OnlyListedRefusals : Prop :=
  ∀ (s : State) (r : Refusal), step s = .refused r →
    (∃ rest, decode s.port = .command .tceBuild rest ∧
      (r = .blockLengthBand ∨ r = .tableTooLarge ∨ r = .endStateOutOfRange)) ∨
    (∃ cap avail rest, decode s.port = .command (.fsdWork cap avail) rest ∧ r = .reservedFieldMark)

/-- 10_state.md R20, 20_memory.md R65, R77: a command writes no register and no output window of a unit it
is not addressed to, no input window, and nothing of the host's. -/
def Obligations.CommandsKeepOtherUnits : Prop :=
  ∀ (i : Instr) (s t : State), exec i s = .next t →
    (unitOf i ≠ 1 → t.str = s.str ∧ t.win.strOut = s.win.strOut) ∧
    (unitOf i ≠ 2 → t.fsd = s.fsd ∧ t.win.fsdOut = s.win.fsdOut) ∧
    (unitOf i ≠ 3 → t.lfsr = s.lfsr ∧ t.lutBuilt = s.lutBuilt ∧ t.win.lfsrOut = s.win.lfsrOut) ∧
    (unitOf i ≠ 4 → t.tce = s.tce) ∧
    (unitOf i ≠ 5 → t.ces = s.ces ∧ t.win.cesOut = s.win.cesOut) ∧
    t.win.strIn = s.win.strIn ∧ t.win.fsdIn = s.win.fsdIn ∧ t.win.lfsrIn = s.win.lfsrIn ∧
    t.win.cesIn = s.win.cesIn ∧ t.port = s.port ∧ t.host = s.host

/-- 10_state.md R20, R36: what an STR, FSD or LFSR command answers, emits and leaves in its registers depends on
its own unit's registers and window only; in particular not on `LUT.built`. Between states with equal free-value
counters, so that an item the host did not fill is the same in both (log 6, log 8). -/
def Obligations.UnitsDoNotReadEachOther : Prop :=
  ∀ (i : Instr) (s s' t : State), s.freeCount = s'.freeCount → exec i s = .next t →
    (unitOf i = 1 → s.str = s'.str → s.win.strIn = s'.win.strIn →
      ∃ t', exec i s' = .next t' ∧ t'.str = t.str ∧ t'.response = t.response ∧
        t'.win.strOut.take (valField t) = t.win.strOut.take (valField t)) ∧
    (unitOf i = 2 → s.fsd = s'.fsd → s.win.fsdIn = s'.win.fsdIn →
      ∃ t', exec i s' = .next t' ∧ t'.fsd = t.fsd ∧ t'.response = t.response ∧
        t'.win.fsdOut.take (valField t) = t.win.fsdOut.take (valField t)) ∧
    (unitOf i = 3 → s.lfsr = s'.lfsr → s.win.lfsrIn = s'.win.lfsrIn →
      ∃ t', exec i s' = .next t' ∧ t'.lfsr = t.lfsr ∧ t'.response = t.response ∧
        (i ≠ .lfsrOut → t'.win.lfsrOut.take (valField t) = t.win.lfsrOut.take (valField t)))

/-- 60_exceptions.md R291: the only status codes are 0 to 5; with a status other than OK the fields EVT, VAL
and RX are zero, no item is emitted and nothing changes, but for E_CONFIG, which leaves `TCE.build_state` =
FAILED and one error flag set and changes no other unit. -/
def Obligations.ErrorStatusesChangeNothing : Prop :=
  ∀ (i : Instr) (s t : State) (code : Nat), exec i s = .next t → statusOf t = some code → code ≠ 0 →
    code ≤ 5 ∧ (t.response = answer code 0 0 none ∨ t.response = answer code 0 0 (some 0)) ∧
    (code ≠ 4 → SameButResponse s t) ∧
    (code = 4 → i = .tceBuild ∧
      t = { s with tce := t.tce, freeCount := t.freeCount, response := t.response } ∧
      t.tce.buildState = .failed ∧
      (s.tce.errDim = false → s.tce.errBlocklen = false → t.tce.errDim = !t.tce.errBlocklen))

/-- 60_exceptions.md R293: E_STATE is raised by a configuration command or `TCE.BUILD` when `TCE.build_state` is
not UNBUILT, and by `TCE.LOOKUP`, `CES.WORK` or `CES.FORECAST` when it is not BUILT; no other unit raises it;
nothing is recorded. -/
def Obligations.StateGates : Prop :=
  ∀ (i : Instr) (s : State),
    (needsUnbuilt i = true → s.tce.buildState ≠ .unbuilt →
      exec i s = .next { s with response := answer 2 0 0 none }) ∧
    (needsBuilt i = true → s.tce.buildState ≠ .built →
      exec i s = .next { s with response := answer 2 0 0 (some 0) }) ∧
    (unitOf i ≤ 3 → ∀ t, exec i s = .next t → statusOf t ≠ some 2)

/-- 20_memory.md R82, 44_trellis_code_engine.md R207, 70_reset_and_hazards.md R320: once `TCE.build_state` is
not UNBUILT, no step changes anything of TCE (configuration, TRELLIS, TERM, flags) but the hardware reset. -/
def Obligations.TablesAreImmutable : Prop :=
  ∀ s t : State, step s = .next t → s.tce.buildState ≠ .unbuilt →
    t.tce = s.tce ∨ (ResetTurn s ∧ t.tce = TceUnit.reset)

/-- 10_state.md R32, R36, R45, 60_exceptions.md R296: a sticky bit is cleared by the hardware reset only, and
`LUT.built` by nothing. -/
def Obligations.StickyBitsStay : Prop :=
  ∀ s t : State, step s = .next t →
    (s.lutBuilt = true → t.lutBuilt = true) ∧
    (¬ ResetTurn s →
      (s.fsd.evSyncLoss = true → t.fsd.evSyncLoss = true) ∧
      (s.fsd.evOverflow = true → t.fsd.evOverflow = true) ∧
      (s.ces.faultTerm = true → t.ces.faultTerm = true))

/-! ### Reset -/

/-- 70_reset_and_hazards.md R321: every register after a power-up reset, with `LUT.built` unchanged by a later
one, and what the status registers read then. The tables are absent (R322). -/
def Obligations.ResetValues : Prop :=
  (∀ s : State, (hostMove s .reset).lutBuilt = s.lutBuilt) ∧
  State.reset.str = ⟨false, 0, Sample.zero, Config.ISTATE0, Config.LSTATE0⟩ ∧
  State.reset.fsd = ⟨.searching, false, 0, false, false, 0⟩ ∧
  State.reset.lfsr.s = Config.PRELOAD ∧ State.reset.lutBuilt = false ∧
  State.reset.tce = ⟨.unbuilt, 0, 0, [], [], false, 0, false, 0, .soai, false, 0, 0, 0, 0, [], [], [],
    false, false, false, false⟩ ∧
  State.reset.ces = ⟨.init, 0, 0, 0, 0, false⟩ ∧
  (∀ r ∈ [0x10, 0x20, 0x21, 0x22, 0x31, 0x40, 0x41, 0x42, 0x43, 0x44, 0x50, 0x51, 0x52, 0x53],
    exec (.sysRdreg (BitVec.ofNat 8 r)) State.reset =
      .next { State.reset with response := answer 0 0 0 (some 0) }) ∧
  exec (.sysRdreg 0x30) State.reset =
    .next { State.reset with response := answer 0 0 0 (some (Config.PRELOAD.setWidth 32)) }

/-! ### SYS -/

/-- 46_host_commands.md R273 with the register map of 10_state.md R47 to R58: `SYS.RDREG` completes in every
state, answers the register's fields at their bits, E_RANGE for an unassigned number, and changes nothing. -/
def Obligations.RdregAnswersTheMap : Prop :=
  ∀ (r : BitVec 8) (s : State),
    exec (.sysRdreg r) s =
      .next { s with
        response :=
          match registerMap s r.toNat with
          | some v => answer 0 0 0 (some (BitVec.ofNat 32 v))
          | none => answer 3 0 0 (some 0) }

/-! ### STR -/

/-- 41_symbol_timing_recovery.md R123: `STR.FORECAST N` answers ceil(N * R_NUM / R_DEN) + LOOKAHEAD_MARGIN,
E_RANGE at 2^32 or more, and changes nothing. -/
def Obligations.StrForecast : Prop :=
  ∀ (n : Nat) (s : State), ∃ c : Nat,
    n * Config.R_NUM ≤ c * Config.R_DEN ∧ c * Config.R_DEN < n * Config.R_NUM + Config.R_DEN ∧
    exec (.strForecast n) s =
      .next { s with
        response :=
          if 2 ^ 32 ≤ c + Config.LOOKAHEAD_MARGIN then answer 3 0 0 (some 0)
          else answer 0 0 0 (some (BitVec.ofNat 32 (c + Config.LOOKAHEAD_MARGIN))) }

/-- 46_host_commands.md R274, 41_symbol_timing_recovery.md R124, R125: `STR.WORK` completes on every state and
all data, with produced ≤ cap, consumed ≤ avail, STARVED exactly when produced < cap; every tag has
`field_mark` 0 and an index below 832; beyond the registers of STR, the written positions of its output window,
the response and the model's counter (log 8), nothing changes, later positions of the window included (log 7). -/
def Obligations.StrWorkCompletes : Prop :=
  ∀ (cap avail : Nat) (s : State), cap < 2 ^ 24 → avail < 2 ^ 32 →
    ∃ (u : StrUnit) (out : List TaggedSymbol) (consumed : Nat),
      out.length ≤ cap ∧ consumed ≤ avail ∧
      (∀ x ∈ out, x.tag.fieldMark = 0 ∧ x.tag.symbolIndex.toNat < 832) ∧
      exec (.strWork cap avail) s =
        .next { s with
          str := u, win := { s.win with strOut := out ++ s.win.strOut.drop out.length },
          freeCount := s.freeCount + 1,
          response := answer 0 (if out.length < cap then 1 else 0) out.length
            (some (BitVec.ofNat 32 consumed)) }

/-- 41_symbol_timing_recovery.md R124, R125: one turn. The open functions get the next `W_LOOK` samples and the
registers; what they return is written, emitted with its tag, and consumed. The output window keeps its later
positions (log 7), and the counter is the model's (log 8). -/
def Obligations.StrTurn : Prop :=
  ∀ (avail : Nat) (s : State), Config.W_LOOK ≤ avail →
    let r := Config.interp ((s.strWindow avail).take Config.W_LOOK) s.str.timingAdjustment s.str.istate
    let t := Config.track r.sample s.str.lstate
    exec (.strWork 1 avail) s =
      .next { s with
        str := ⟨t.locked, BitVec.ofNat 10 t.index.val, t.adj, r.ist, t.lst⟩,
        win := { s.win with
          strOut := ⟨r.sample, ⟨t.locked, BitVec.ofNat 10 t.index.val, 0⟩⟩ :: s.win.strOut.drop 1 },
        freeCount := s.freeCount + 1,
        response := answer 0 0 1 (some (BitVec.ofNat 32 r.advance.val)) }

/-- 41_symbol_timing_recovery.md R126, R129: no capacity, or fewer than `W_LOOK` samples: no turn, nothing
produced or consumed, no register changes; STARVED in the second case. The counter is the model's (log 8). -/
def Obligations.StrWorkCorners : Prop :=
  ∀ (cap avail : Nat) (s : State), cap = 0 ∨ avail < Config.W_LOOK →
    exec (.strWork cap avail) s =
      .next { s with
        freeCount := s.freeCount + 1,
        response := answer 0 (if 0 < cap then 1 else 0) 0 (some 0) }

/-- 41_symbol_timing_recovery.md R127, R129, 20_memory.md R78: a `STR.WORK` on the first `avail1` items of the
window, the host's commit, and one on everything that is left then do together what one on the whole window does
with the summed capacity: the capacity produced by the first and offered to the second, or the one offered to
both where neither cut is by a capacity the other does not have (both see the same items, or the second ends with
capacity left). -/
def Obligations.StrWorkSplits : Prop :=
  ∀ (a b c avail1 avail : Nat) (s t u v : State), a < 2 ^ 24 → b < 2 ^ 24 → c < 2 ^ 24 →
    avail1 ≤ avail → avail < 2 ^ 32 → Filled avail s.win.strIn →
    exec (.strWork a avail1) s = .next t →
    exec (.strWork b (avail - rxField t)) (hostMove t (.commit .str)) = .next u →
    exec (.strWork c avail) s = .next v →
    (c = valField t + b ∨ (c = a + b ∧ (avail1 = avail ∨ valField u < b))) →
    v.str = u.str ∧ valField v = valField t + valField u ∧ rxField v = rxField t + rxField u ∧
    v.win.strOut.take (valField v) =
      t.win.strOut.take (valField t) ++ u.win.strOut.take (valField u)

/-- 41_symbol_timing_recovery.md R128: under `InterpRateBound`, however the host cuts the stream into calls, no
more than ceil(total_input / R) pairs are emitted from reset. For every interpolator and loop. -/
def Obligations.StrRateBound : Prop :=
  ∀ (w num den : Nat) (interp : List Sample → Sample → InterpState → InterpResult w)
    (track : Sample → LoopState → TrackResult), 0 < num → InterpRateBound interp track num den →
    ∀ (calls : List (Nat × Nat)) (items : List Sample),
      strCalls interp track calls items StrUnit.reset ≤ ceilDiv (items.length * den) num

/-! ### FSD -/

/-- 42_field_sync_demux.md R151: `FSD.FORECAST N` answers 832 N + 1663, E_RANGE at 2^32 or more, and changes
nothing. -/
def Obligations.FsdForecast : Prop :=
  ∀ (n : Nat) (s : State),
    exec (.fsdForecast n) s =
      .next { s with
        response :=
          if 2 ^ 32 ≤ 832 * n + 1663 then answer 3 0 0 (some 0)
          else answer 0 0 0 (some (BitVec.ofNat 32 (832 * n + 1663))) }

/-- 42_field_sync_demux.md R142: the class of a tag; a tag has none exactly when it is the reserved one. -/
def Obligations.MarkerClasses : Prop :=
  ∀ tag : SymbolTag,
    (markerClass tag = some .none ↔ tag.valid = false ∨ tag.symbolIndex ≠ 0) ∧
    (markerClass tag = some .seg ↔ tag.valid = true ∧ tag.symbolIndex = 0 ∧ tag.fieldMark = 0) ∧
    (markerClass tag = some .fs1 ↔ tag.valid = true ∧ tag.symbolIndex = 0 ∧ tag.fieldMark = 1) ∧
    (markerClass tag = some .fs2 ↔ tag.valid = true ∧ tag.symbolIndex = 0 ∧ tag.fieldMark = 2) ∧
    (markerClass tag = none ↔ tag.valid = true ∧ tag.symbolIndex = 0 ∧ tag.fieldMark = 3)

/-- 46_host_commands.md R274, 42_field_sync_demux.md R142, R152, 20_memory.md R67, R74: `FSD.WORK` completes on
every window whose tags all have a class: it runs the state machine on them, with produced ≤ cap and consumed ≤
avail, and every segment emitted is whole, with a `field_flag` of 1 or 2 and a number below `SEGS_PER_FIELD`. A
window that holds a tag without a class is refused (93_implementation_defined.md U9; log 12). The output window keeps
its later positions (log 7), and the counter is the model's (log 8). -/
def Obligations.FsdWorkCompletes : Prop :=
  ∀ (cap avail : Nat) (s : State), cap < 2 ^ 24 → avail < 2 ^ 32 →
    ((∃ x ∈ s.fsdWindow avail, markerClass x.tag = none) →
      exec (.fsdWork cap avail) s = .refused .reservedFieldMark) ∧
    ((∀ x ∈ s.fsdWindow avail, markerClass x.tag ≠ none) →
      ∃ items, classifyWindow (s.fsdWindow avail) = some items ∧
        items.map MarkedSample.sample = (s.fsdWindow avail).map TaggedSymbol.sample ∧
        items.map (fun x => some x.marker) = (s.fsdWindow avail).map (fun x => markerClass x.tag) ∧
        let r := fsdRun Config.SEGS_PER_FIELD cap s.fsd items
        r.out.length ≤ cap ∧ r.rest.length ≤ avail ∧
        (∀ d ∈ r.out, d.segmentNumber.toNat < Config.SEGS_PER_FIELD ∧
          (d.fieldFlag = 1 ∨ d.fieldFlag = 2) ∧ d.payload.length = 832) ∧
        exec (.fsdWork cap avail) s =
          .next { s with
            fsd := r.regs, win := { s.win with fsdOut := r.out ++ s.win.fsdOut.drop r.out.length },
            freeCount := s.freeCount + 1,
            response := answer 0
              (flagAt (decide (r.out.length < cap) && !r.loss) 0 + flagAt r.loss 1 + flagAt r.overflow 2)
              r.out.length (some (BitVec.ofNat 32 (avail - r.rest.length))) })

/-- 42_field_sync_demux.md R144, R145, R146, R155. While SEARCHING, items of class NONE are skipped; if the window
ends first, all are consumed and nothing else changes. At a marker the counters are set by a field sync and kept
by a plain segment sync, and the unit is LOCKED with the marker's item as the boundary. LOCKED with less than a
whole segment left, nothing happens and the items stay unconsumed. No capacity: nothing happens, not even the
scan. -/
def Obligations.FsdScanAndLock : Prop :=
  ∀ (segs cap : Nat) (u : FsdUnit) (skipped rest : List MarkedSample),
    (∀ x ∈ skipped, x.marker = .none) →
    fsdRun segs 0 u (skipped ++ rest) = ⟨u, skipped ++ rest, [], false, false⟩ ∧
    (u.state = .locked → rest.length < 832 → fsdRun segs (cap + 1) u rest = ⟨u, rest, [], false, false⟩) ∧
    (u.state = .searching →
      fsdRun segs (cap + 1) u skipped = ⟨u, [], [], false, false⟩ ∧
      (∀ x xs, rest = x :: xs → x.marker ≠ .none →
        fsdRun segs (cap + 1) u (skipped ++ rest) =
          fsdRun segs (cap + 1)
            { u with
              state := .locked
              inField2 := if x.marker = .fs1 then false else if x.marker = .fs2 then true else u.inField2
              segmentNumber := if x.marker = .seg then u.segmentNumber else 0 }
            rest))

/-- 42_field_sync_demux.md R147: LOCKED at a field sync: the counters are set, 832 items are consumed, nothing
is emitted, and the run goes on at the next boundary. -/
def Obligations.FsdFieldSync : Prop :=
  ∀ (segs cap : Nat) (u : FsdUnit) (b rest : List MarkedSample), u.state = .locked →
    (MarkedSegment .fs1 b → fsdRun segs (cap + 1) u (b ++ rest) =
      fsdRun segs (cap + 1) { u with inField2 := false, segmentNumber := 0 } rest) ∧
    (MarkedSegment .fs2 b → fsdRun segs (cap + 1) u (b ++ rest) =
      fsdRun segs (cap + 1) { u with inField2 := true, segmentNumber := 0 } rest)

/-- 42_field_sync_demux.md R148, R149: LOCKED at a segment sync: one segment of the 832 samples is emitted with
the field and the (clamped) number, overflow is reported and recorded, the counter is the number plus one, and
the run goes on at the next boundary. -/
def Obligations.FsdEmission : Prop :=
  ∀ (segs cap : Nat) (u : FsdUnit) (b rest : List MarkedSample), 0 < segs → segs < 2 ^ 16 →
    u.state = .locked → MarkedSegment .seg b →
    let n := clampedNumber segs u.segmentNumber.toNat
    let clamped := decide (segs ≤ u.segmentNumber.toNat)
    let r := fsdRun segs cap
      { u with segmentNumber := BitVec.ofNat 16 (n + 1), evOverflow := u.evOverflow || clamped } rest
    fsdRun segs (cap + 1) u (b ++ rest) =
      { r with
        out := ⟨if u.inField2 then 2 else 1, BitVec.ofNat 16 n, b.map MarkedSample.sample⟩ :: r.out
        overflow := clamped || r.overflow }

/-- 42_field_sync_demux.md R150: LOCKED with a whole segment whose first item has class NONE: `FSD.loss_pos` is
{segment_number, in_field2}, SYNC_LOSS is reported and recorded, the unit is SEARCHING, the counters stay, and
the run ends with the boundary unconsumed. -/
def Obligations.FsdSyncLoss : Prop :=
  ∀ (segs cap : Nat) (u : FsdUnit) (b rest : List MarkedSample), u.state = .locked →
    MarkedSegment .none b →
    fsdRun segs (cap + 1) u (b ++ rest) =
      ⟨{ u with
          state := .searching, evSyncLoss := true,
          lossPos := BitVec.ofNat 17 (u.segmentNumber.toNat * 2 + (if u.inField2 then 1 else 0)) },
        b ++ rest, [], true, false⟩

/-- 42_field_sync_demux.md R156 with its source's property: a field-sync-1 segment, then segments, then a
field-sync-1 segment, then segments, in either number at most `SEGS_PER_FIELD`: the headers are (1, 0), (1, 1),
... and start again at (1, 0) after the second field sync; the payloads are the segments' samples in order; no
report is raised. For every `SEGS_PER_FIELD`, from every state of the unit. -/
def Obligations.FsdNumbersAField : Prop :=
  ∀ (segs cap : Nat) (u : FsdUnit) (f f' : List MarkedSample) (bs bs' : List (List MarkedSample)),
    segs < 2 ^ 16 → MarkedSegment .fs1 f → MarkedSegment .fs1 f' →
    (∀ b ∈ bs, MarkedSegment .seg b) → (∀ b ∈ bs', MarkedSegment .seg b) →
    bs.length ≤ segs → bs'.length ≤ segs → bs.length + bs'.length < cap →
    let r := fsdRun segs cap u (f ++ bs.flatten ++ f' ++ bs'.flatten)
    r.out.map (fun d => (d.fieldFlag.toNat, d.segmentNumber.toNat)) =
      (List.range bs.length ++ List.range bs'.length).map (fun n => (1, n)) ∧
    r.out.map DataSegment.payload = (bs ++ bs').map (fun b => b.map MarkedSample.sample) ∧
    r.loss = false ∧ r.overflow = false ∧ r.rest = []

/-- 20_memory.md R78, 42_field_sync_demux.md R150: as long as no sync loss ends the first run, a run on the items
w1 and one on what it left unconsumed, followed by the items w2, do together what one run on w1 and w2 does with
the summed capacity: the one produced by the first and offered to the second, or the one offered to both where
the cuts are not by a capacity the other run does not have. -/
def Obligations.FsdRunSplits : Prop :=
  ∀ (segs a b c : Nat) (u : FsdUnit) (w1 w2 : List MarkedSample),
    let r := fsdRun segs a u w1
    let q := fsdRun segs b r.regs (r.rest ++ w2)
    r.loss = false →
      ((c = r.out.length + b ∧ (0 < b ∨ r.out.length = a)) ∨
        (c = a + b ∧ (w2 = [] ∨ q.out.length < b))) →
      fsdRun segs c u (w1 ++ w2) = { q with out := r.out ++ q.out, overflow := r.overflow || q.overflow }

/-! ### LFSR -/

/-- 43_lfsr_whitener.md R172, R173, R175: `LFSR.RESET` writes `PRELOAD` and nothing else, from every state;
`LFSR.OUT` answers `OUT_LUT` of bits 15 to 2, builds the table on first use and does not advance the register. -/
def Obligations.LfsrResetAndOut : Prop :=
  ∀ s : State,
    exec .lfsrReset s = .next { s with lfsr := ⟨Config.PRELOAD⟩, response := answer 0 0 0 none } ∧
    exec .lfsrOut s =
      .next { s with
        lutBuilt := true
        response := answer 0 0
          (if Config.OUT_LUT (BitVec.ofNat 14 (s.lfsr.s.toNat / 4)) then 1 else 0) none }

/-- 43_lfsr_whitener.md R176: `LFSR.CLK`, bit by bit: bit 15 is the old bit 0, and bit j is the old bit j + 1,
flipped where the old bit 0 and the mask's bit j + 1 are both 1; nothing else changes. -/
def Obligations.LfsrClk : Prop :=
  ∀ s : State, ∃ v : BitVec 16,
    exec .lfsrClk s = .next { s with lfsr := ⟨v⟩, response := answer 0 0 0 none } ∧
    v.getLsbD 15 = s.lfsr.s.getLsbD 0 ∧
    ∀ j < 15, v.getLsbD j =
      (s.lfsr.s.getLsbD (j + 1) ^^ (s.lfsr.s.getLsbD 0 && Config.TAP_MASK.getLsbD (j + 1)))

/-- 43_lfsr_whitener.md R177, R184: for every tap mask the clock is a bijection with the inverse the rule
gives, and the zero state is its fixed point. -/
def Obligations.ClockIsBijective : Prop :=
  ∀ tap : BitVec 16, Function.Bijective (clk tap) ∧ clk tap 0 = 0 ∧
    ∀ v : BitVec 16, unclk tap (clk tap v) = v ∧ clk tap (unclk tap v) = v

/-- 43_lfsr_whitener.md R178: `LFSR.WHITEN n`: E_RANGE with no change for n = 0; else byte j of the output is
byte j + 1 of the payload, its bits from the most significant down XORed with successive output bits, one clock
a bit; the register is advanced 8 (n - 1) times, and the table is built if a bit was needed. That the output
window keeps its later positions is log 7, and the counter is the model's (log 8). -/
def Obligations.LfsrWhiten : Prop :=
  ∀ (n : Nat) (s : State), n < 2 ^ 24 →
    (n = 0 → exec (.lfsrWhiten n) s = .next { s with response := answer 3 0 0 none }) ∧
    (0 < n → ∃ out : List Byte, out.length = n - 1 ∧
      (∀ j p, j + 1 < n → p < 8 → ((out[j]?).getD 0).getLsbD p =
        ((((s.lfsrWindow n)[j + 1]?).getD 0).getLsbD p ^^
          outBit Config.OUT_LUT (clkTimes Config.TAP_MASK (8 * j + (7 - p)) s.lfsr.s))) ∧
      exec (.lfsrWhiten n) s =
        .next { s with
          lfsr := ⟨clkTimes Config.TAP_MASK (8 * (n - 1)) s.lfsr.s⟩
          lutBuilt := s.lutBuilt || decide (1 < n)
          win := { s.win with lfsrOut := out ++ s.win.lfsrOut.drop out.length }
          freeCount := s.freeCount + 1
          response := answer 0 0 (n - 1) none })

/-- 43_lfsr_whitener.md R179: `LFSR.DEWHITEN m`: the framing byte, then each byte of the window XORed as in R178;
VAL is m + 1. The last operand value, 2^24 - 1, is `LfsrDewhitenLongest`. That the output window keeps its later
positions is log 7, and the counter is the model's (log 8). -/
def Obligations.LfsrDewhiten : Prop :=
  ∀ (m : Nat) (s : State), m + 1 < 2 ^ 24 →
    ∃ out : List Byte, out.length = m + 1 ∧ out[0]? = some Config.FRAMING_BYTE ∧
      (∀ j p, j < m → p < 8 → ((out[j + 1]?).getD 0).getLsbD p =
        ((((s.lfsrWindow m)[j]?).getD 0).getLsbD p ^^
          outBit Config.OUT_LUT (clkTimes Config.TAP_MASK (8 * j + (7 - p)) s.lfsr.s))) ∧
      exec (.lfsrDewhiten m) s =
        .next { s with
          lfsr := ⟨clkTimes Config.TAP_MASK (8 * m) s.lfsr.s⟩
          lutBuilt := s.lutBuilt || decide (0 < m)
          win := { s.win with lfsrOut := out ++ s.win.lfsrOut.drop out.length }
          freeCount := s.freeCount + 1
          response := answer 0 0 (m + 1) none }

/-- The model's choice (log 10): `LFSR.DEWHITEN` of 2^24 - 1 bytes completes, emits what 43_lfsr_whitener.md R179
says (the framing byte, then each byte of the window XORed), and its VAL, which the spec does not state, is a free
value. That the output window keeps its later positions is log 7, and the counter is the model's (log 8). -/
def Obligations.LfsrDewhitenLongest : Prop :=
  ∀ s : State, ∃ (out : List Byte) (val : Nat), out.length = 2 ^ 24 ∧ val < 2 ^ 24 ∧
    out[0]? = some Config.FRAMING_BYTE ∧
    (∀ j p, j < 2 ^ 24 - 1 → p < 8 → ((out[j + 1]?).getD 0).getLsbD p =
      ((((s.lfsrWindow (2 ^ 24 - 1))[j]?).getD 0).getLsbD p ^^
        outBit Config.OUT_LUT (clkTimes Config.TAP_MASK (8 * j + (7 - p)) s.lfsr.s))) ∧
    exec (.lfsrDewhiten (2 ^ 24 - 1)) s =
      .next { s with
        lfsr := ⟨clkTimes Config.TAP_MASK (8 * (2 ^ 24 - 1)) s.lfsr.s⟩
        lutBuilt := true
        win := { s.win with lfsrOut := out ++ s.win.lfsrOut.drop out.length }
        freeCount := s.freeCount + 1
        response := answer 0 0 val none }

/-- 43_lfsr_whitener.md R181: whitening a payload that begins with the framing byte and de-whitening the result
from the same register value gives the payload back, and both leave the register at that value advanced
8 (n - 1) times. The start value, the mask, the table and the framing byte are arbitrary. -/
def Obligations.WhitenRoundTrip : Prop :=
  ∀ (n : Nat) (s s' : State), 0 < n → n < 2 ^ 24 → Filled n s.win.lfsrIn →
    s.win.lfsrIn[0]? = some Config.FRAMING_BYTE → s'.lfsr = s.lfsr →
    ∃ t : State, exec (.lfsrWhiten n) s = .next t ∧
      t.lfsr.s = clkTimes Config.TAP_MASK (8 * (n - 1)) s.lfsr.s ∧
      (s'.win.lfsrIn = t.win.lfsrOut.take (n - 1) →
        ∃ t' : State, exec (.lfsrDewhiten (n - 1)) s' = .next t' ∧
          t'.win.lfsrOut.take n = s.win.lfsrIn.take n ∧ t'.lfsr = t.lfsr)

/-- 43_lfsr_whitener.md R180, R183, 30_encoding.md R108: the keystream by single commands. After k words of
`LFSR.CLK` on the port, `LFSR.OUT` answers the bit the payload operations use at position k. -/
def Obligations.KeystreamByStepping : Prop :=
  ∀ (k : Nat) (s : State),
    s.port = List.replicate k (0x32000000 : Word) ++ [0x31000000] →
    ∃ t : State, Host.Core.run Sys2Proof.core (k + 1) s = .next t ∧
      t.lfsr.s = clkTimes Config.TAP_MASK k s.lfsr.s ∧
      t.response = answer 0 0
        (if outBit Config.OUT_LUT (clkTimes Config.TAP_MASK k s.lfsr.s) then 1 else 0) none

/-! ### TCE -/

/-- 44_trellis_code_engine.md R202, R205, R206: the configuration writes of one register group, while UNBUILT,
and E_STATE otherwise. -/
def Obligations.ConfigurationWrites : Prop :=
  (∀ (i o : BitVec 8) (s : State), exec (.tceCfgDim i o) s =
    if s.tce.buildState = .unbuilt then
      .next { s with tce := { s.tce with inputs := i, outputs := o }, response := answer 0 0 0 none }
    else .next { s with response := answer 2 0 0 none }) ∧
  (∀ (term : Bool) (len : BitVec 32) (s : State), exec (.tceCfgBlock term len) s =
    if s.tce.buildState = .unbuilt then
      .next { s with tce := { s.tce with doTerm := term, blockLen := len }, response := answer 0 0 0 none }
    else .next { s with response := answer 2 0 0 none }) ∧
  (∀ (e : BitVec 32) (s : State), exec (.tceCfgEnd e) s =
    if s.tce.buildState = .unbuilt then
      .next { s with tce := { s.tce with endState := e }, response := answer 0 0 0 none }
    else .next { s with response := answer 2 0 0 none })

/-- 44_trellis_code_engine.md R203, R204, 20_memory.md R64: a matrix write loads its one entry and keeps every
other; it is E_STATE unless UNBUILT, else E_RANGE for an index at or above the stream bound. -/
def Obligations.MatrixWrites : Prop :=
  ∀ (i o : Nat) (mask : BitVec 32) (s : State), s.tce.gen.wf → s.tce.fb.wf →
    (s.tce.buildState ≠ .unbuilt →
      exec (.tceCfgGen i o mask) s = .next { s with response := answer 2 0 0 none } ∧
      exec (.tceCfgFb i o mask) s = .next { s with response := answer 2 0 0 none }) ∧
    (s.tce.buildState = .unbuilt → Config.MAX_STREAMS ≤ i ∨ Config.MAX_STREAMS ≤ o →
      exec (.tceCfgGen i o mask) s = .next { s with response := answer 3 0 0 none } ∧
      exec (.tceCfgFb i o mask) s = .next { s with response := answer 3 0 0 none }) ∧
    (s.tce.buildState = .unbuilt → i < Config.MAX_STREAMS → o < Config.MAX_STREAMS →
      ∃ g f : Memory, g.wf ∧ f.wf ∧
        (∀ a b, b < 256 → memRead g (cfgKey a b) =
          if a = i ∧ b = o then some mask else memRead s.tce.gen (cfgKey a b)) ∧
        (∀ a b, b < 256 → memRead f (cfgKey a b) =
          if a = i ∧ b = o then some mask else memRead s.tce.fb (cfgKey a b)) ∧
        exec (.tceCfgGen i o mask) s =
          .next { s with tce := { s.tce with gen := g }, response := answer 0 0 0 none } ∧
        exec (.tceCfgFb i o mask) s =
          .next { s with tce := { s.tce with fb := f, hasFb := true }, response := answer 0 0 0 none })

/-- 44_trellis_code_engine.md R209, R210: dimensions out of bounds, or loaded positions that are not exactly the
rectangle (of the feedback matrix too, where one is present): E_CONFIG with `err_dim`, the engine FAILED, and
nothing else written. -/
def Obligations.BuildRejectsBadShape : Prop :=
  ∀ s : State, s.tce.buildState = .unbuilt → CfgInv s.tce.gen → CfgInv s.tce.fb →
    (s.tce.inputs = 0 ∨ Config.MAX_STREAMS < s.tce.inputs.toNat ∨ s.tce.outputs = 0 ∨
      Config.MAX_STREAMS < s.tce.outputs.toNat ∨
      ¬ LoadedExactly s.tce.inputs.toNat s.tce.outputs.toNat s.tce.gen ∨
      (s.tce.hasFb = true ∧ ¬ LoadedExactly s.tce.inputs.toNat s.tce.outputs.toNat s.tce.fb)) →
    exec .tceBuild s =
      .next { s with
        tce := { s.tce with errDim := true, buildState := .failed }
        response := answer 4 0 0 none }

/-- 44_trellis_code_engine.md R220, R221, R208, with the stream bound and the largest total delay arbitrary, for a
configuration that R209 and R210 accept. With a checked block length: shorter than some memory is E_CONFIG with
`err_blocklen`, no table written and the configuration registers as they were; otherwise shorter than T is refused.
Past that check a T above the limit and an end state that is no state are refused. All compare exact sums (log 9),
and where two bands hold the first one is named (log 18). -/
def Obligations.BuildRejectsOrRefuses : Prop :=
  (∀ s : State, exec .tceBuild s = tceBuild Config.MAX_STREAMS Config.MAX_TOTAL_DELAY s) ∧
  ∀ (ms mt : Nat) (s : State), s.tce.buildState = .unbuilt → WellShaped ms s.tce →
    let checked := s.tce.doTerm = true ∧ s.tce.blockLen ≠ 0
    let len := s.tce.blockLen.toNat
    let mems := selectedMems s.tce
    let total := delayBits mems
    (checked ∧ (∃ m ∈ mems, len < m.len) →
      ∃ u : TceUnit, tceBuild ms mt s =
          .next { s with tce := u, freeCount := s.freeCount + 1, response := answer 4 0 0 none } ∧
        u.buildState = .failed ∧ u.errBlocklen = true ∧ u.errDim = s.tce.errDim ∧
        u.table = s.tce.table ∧ u.term = s.tce.term ∧ u.inputs = s.tce.inputs ∧
        u.outputs = s.tce.outputs ∧ u.gen = s.tce.gen ∧ u.fb = s.tce.fb ∧ u.hasFb = s.tce.hasFb ∧
        u.blockLen = s.tce.blockLen ∧ u.doTerm = s.tce.doTerm ∧ u.endState = s.tce.endState) ∧
    (checked ∧ (∀ m ∈ mems, m.len ≤ len) ∧ len < total →
      tceBuild ms mt s = .refused .blockLengthBand) ∧
    (¬ (checked ∧ len < total) → mt < total → tceBuild ms mt s = .refused .tableTooLarge) ∧
    (¬ (checked ∧ len < total) → total ≤ mt → s.tce.doTerm = true → 2 ^ total ≤ s.tce.endState.toNat →
      tceBuild ms mt s = .refused .endStateOutOfRange)

/-- 44_trellis_code_engine.md R208 to R219, R225. The two candidates of every configuration are the memories that
R211 to R216 describe. A configuration that R209 and R210 accept, with a block length of at least T where it is
checked, T within the limit and an end state that is a state where it is used, is built: the selected memories
(ties to SOAI), `fb_en`, T, `max_delay` and the totals as the rules say, TRELLIS with exactly 2^T * 2^I entries of
which entry s * 2^I + c is the symbol-step from s under c (`SymbolStepSiao`, `SymbolStepSoai`); the configuration
registers, the error flags and every other unit stay. The selection is by exact sums and a total of 256 or more is
a free register (log 9); the counter is the model's (log 8). -/
def Obligations.BuildCompletes : Prop :=
  (∀ u : TceUnit,
    Candidate u.outputs.toNat u.inputs.toNat (fun o i => cfgEntry u.gen i o)
      (fun o i => normalFeedback u i o) (soaiMems u) ∧
    Candidate u.inputs.toNat u.outputs.toNat (cfgEntry u.gen) (normalFeedback u) (siaoMems u)) ∧
  ∀ s : State, s.tce.buildState = .unbuilt → WellShaped Config.MAX_STREAMS s.tce →
    let mems := selectedMems s.tce
    let soai := delayBits (soaiMems s.tce)
    let siao := delayBits (siaoMems s.tce)
    (s.tce.doTerm = true → s.tce.blockLen ≠ 0 → delayBits mems ≤ s.tce.blockLen.toNat) →
    delayBits mems ≤ Config.MAX_TOTAL_DELAY →
    (s.tce.doTerm = true → s.tce.endState.toNat < 2 ^ delayBits mems) →
    ∃ u : TceUnit,
      exec .tceBuild s =
        .next { s with
          tce := u, freeCount := s.freeCount + 1
          response := answer 0 (flagAt (u.warnZeroOut || u.warnZeroIn) 3) 0 none } ∧
      u.buildState = .built ∧ u.mems = mems ∧ (u.realization = .siao ↔ siao < soai) ∧
      (u.fbEn = true ↔ ∃ i < s.tce.inputs.toNat, ∃ o < s.tce.outputs.toNat,
        cfgEntry s.tce.gen i o ≠ 0 ∧ normalFeedback s.tce i o ≠ 1) ∧
      u.totalDelay.toNat = min soai siao ∧ u.totalDelay.toNat = delayBits mems ∧
      (∀ m ∈ mems, m.len ≤ u.maxDelay.toNat) ∧
      (0 < u.maxDelay.toNat → ∃ m ∈ mems, m.len = u.maxDelay.toNat) ∧
      (soai < 256 → u.totalSoai.toNat = soai) ∧ (siao < 256 → u.totalSiao.toNat = siao) ∧
      u.table.length = 2 ^ u.totalDelay.toNat * 2 ^ u.inputs.toNat ∧
      (∀ st c, st < 2 ^ u.totalDelay.toNat → c < 2 ^ u.inputs.toNat →
        u.table[st * 2 ^ u.inputs.toNat + c]? =
          some (codeStep s.tce (BitVec.ofNat 32 st) (BitVec.ofNat 24 c))) ∧
      u.inputs = s.tce.inputs ∧ u.outputs = s.tce.outputs ∧ u.gen = s.tce.gen ∧ u.fb = s.tce.fb ∧
      u.hasFb = s.tce.hasFb ∧ u.blockLen = s.tce.blockLen ∧ u.doTerm = s.tce.doTerm ∧
      u.endState = s.tce.endState ∧ u.errDim = s.tce.errDim ∧ u.errBlocklen = s.tce.errBlocklen

/-- 44_trellis_code_engine.md R226: a build that succeeds sets the warnings exactly for an output whose generator
column, and an input whose generator row, is all zero, and reports WARN for either. For arbitrary limits
(`TCE.BUILD` is `tceBuild` at the configured ones). -/
def Obligations.BuildWarnings : Prop :=
  ∀ (ms mt : Nat) (s t : State), tceBuild ms mt s = .next t → statusOf t = some 0 →
    (t.tce.warnZeroOut = true ↔ ∃ o < s.tce.outputs.toNat, ∀ i < s.tce.inputs.toNat,
      cfgEntry s.tce.gen i o = 0) ∧
    (t.tce.warnZeroIn = true ↔ ∃ i < s.tce.inputs.toNat, ∀ o < s.tce.outputs.toNat,
      cfgEntry s.tce.gen i o = 0) ∧
    t.response = answer 0 (if t.tce.warnZeroOut = true ∨ t.tce.warnZeroIn = true then 8 else 0) 0 none

/-- 44_trellis_code_engine.md R227: after a build with termination, TERM holds for each state NONE exactly when no
T combinations lead from it to the end state, and otherwise the lexicographically least T combinations that do. For
arbitrary limits (`TCE.BUILD` is `tceBuild` at the configured ones). -/
def Obligations.TerminationTable : Prop :=
  ∀ (ms mt : Nat) (s t : State), mt ≤ 24 → tceBuild ms mt s = .next t → statusOf t = some 0 →
    s.tce.doTerm = true →
    let drives := DrivesTo t.tce.table (2 ^ t.tce.inputs.toNat) t.tce.totalDelay.toNat
    t.tce.term.length = 2 ^ t.tce.totalDelay.toNat ∧
    ∀ st < 2 ^ t.tce.totalDelay.toNat,
      (t.tce.term[st]? = some none ∧ ∀ cs, ¬ drives st t.tce.endState.toNat cs) ∨
      (∃ seq, t.tce.term[st]? = some (some seq) ∧ drives st t.tce.endState.toNat seq ∧
        ∀ cs, drives st t.tce.endState.toNat cs → seq = cs ∨ List.Lex (· < ·) seq cs)

/-- 44_trellis_code_engine.md R223, with the packing of R222: one symbol-step under SIAO, bit by bit, for every
code that fits a state word: the fed-back input enters each delay line at its newest end, the line shifts, and
each output is the XOR of its memories' taps, the delay-0 tap reading the fed-back input. -/
def Obligations.SymbolStepSiao : Prop :=
  ∀ (u : TceUnit) (st : BitVec 32) (c : BitVec 24), selectRealization u = .siao →
    chosenTotal u ≤ 32 → u.outputs.toNat ≤ 24 →
    let e := codeStep u st c
    let delay := fun (m : CodeMemory) (k : Nat) => st.getLsbD (m.off + k - 1)
    let w := fun (m : CodeMemory) =>
      (c.getLsbD m.owner ^^ xorUpTo m.len (fun k => m.phi.getLsbD k && delay m k))
    (∀ m ∈ chosenMems u, ∀ k, 1 ≤ k → k ≤ m.len →
      e.next.getLsbD (m.off + k - 1) = if k = 1 then w m else delay m (k - 1)) ∧
    (∀ o < u.outputs.toNat, e.out.getLsbD o =
      xorMems (chosenMems u) (fun m => decide (o ∈ m.members) &&
        (((genMask u m.owner o).getLsbD 0 && w m) ^^
          xorUpTo m.len (fun k => (genMask u m.owner o).getLsbD k && delay m k))))

/-- 44_trellis_code_engine.md R224, with the packing of R222: one symbol-step under SOAI, bit by bit, for every
code that fits a state word: each output is the XOR of its memories' newest elements and the members' delay-0
taps; each line shifts towards the newest end with the members' taps and the fed-back output injected. -/
def Obligations.SymbolStepSoai : Prop :=
  ∀ (u : TceUnit) (st : BitVec 32) (c : BitVec 24), selectRealization u = .soai →
    chosenTotal u ≤ 32 → u.outputs.toNat ≤ 24 →
    let e := codeStep u st c
    let delay := fun (m : CodeMemory) (k : Nat) => decide (k ≤ m.len) && st.getLsbD (m.off + k - 1)
    let tap := fun (m : CodeMemory) (k : Nat) =>
      xorOver (fun i => (genMask u i m.owner).getLsbD k && c.getLsbD i) m.members
    let y := fun (m : CodeMemory) => delay m 1 ^^ tap m 0
    (∀ m ∈ chosenMems u, ∀ k, 1 ≤ k → k ≤ m.len →
      e.next.getLsbD (m.off + k - 1) = (delay m (k + 1) ^^ tap m k ^^ (m.phi.getLsbD k && y m))) ∧
    (∀ o < u.outputs.toNat, e.out.getLsbD o =
      xorMems (chosenMems u) (fun m => decide (m.owner = o) && y m))

/-- 44_trellis_code_engine.md R229, R232: for every feed-forward code that fits a state word, under whichever
realization is chosen, the outputs from state 0 are the direct convolution of the generator taps over the input
history. -/
def Obligations.FeedForwardIsConvolution : Prop :=
  ∀ (u : TceUnit) (cs : List (BitVec 24)), u.hasFb = false → u.inputs.toNat ≤ 24 → u.outputs.toNat ≤ 24 →
    chosenTotal u ≤ 32 →
    ∀ t < cs.length, ∀ o < u.outputs.toNat,
      (((encodeFrom u 0 cs)[t]?).getD 0).getLsbD o =
        xorBelow u.inputs.toNat (fun i => convolve (genMask u i o) (inputBit cs i) t)

/-- 44_trellis_code_engine.md R229: for every code that fits a state word, with or without feedback and under
whichever realization is chosen, the output stream o from state 0 is the sum over the inputs of G / Fn applied to
the input: for the streams y with Fn * y = G * u, position by position, it is their XOR. -/
def Obligations.TransferFunction : Prop :=
  ∀ (u : TceUnit) (cs : List (BitVec 24)) (y : Nat → Nat → Nat → Bool),
    u.inputs.toNat ≤ 24 → u.outputs.toNat ≤ 24 → chosenTotal u ≤ 32 →
    (∀ i < u.inputs.toNat, ∀ o < u.outputs.toNat, ∀ t < cs.length,
      convolve (fbMask u i o) (y i o) t = convolve (genMask u i o) (inputBit cs i) t) →
    ∀ t < cs.length, ∀ o < u.outputs.toNat,
      (((encodeFrom u 0 cs)[t]?).getD 0).getLsbD o = xorBelow u.inputs.toNat (fun i => y i o t)

/-- 44_trellis_code_engine.md R230, 20_memory.md R73: `TCE.LOOKUP`: E_STATE unless BUILT, E_RANGE for an operand
outside the table, else the entry, in range; it changes nothing. For every state with the invariant. -/
def Obligations.LookupAnswers : Prop :=
  ∀ (v : BitVec 24) (st : BitVec 32) (s : State), s.Inv →
    (s.tce.buildState ≠ .built →
      exec (.tceLookup v st) s = .next { s with response := answer 2 0 0 (some 0) }) ∧
    (s.tce.buildState = .built →
      2 ^ s.tce.totalDelay.toNat ≤ st.toNat ∨ 2 ^ s.tce.inputs.toNat ≤ v.toNat →
      exec (.tceLookup v st) s = .next { s with response := answer 3 0 0 (some 0) }) ∧
    (s.tce.buildState = .built → st.toNat < 2 ^ s.tce.totalDelay.toNat →
      v.toNat < 2 ^ s.tce.inputs.toNat →
      ∃ e, s.tce.table[st.toNat * 2 ^ s.tce.inputs.toNat + v.toNat]? = some e ∧
        e.next.toNat < 2 ^ s.tce.totalDelay.toNat ∧ e.out.toNat < 2 ^ s.tce.outputs.toNat ∧
        exec (.tceLookup v st) s = .next { s with response := answer 0 0 e.out.toNat (some e.next) })

/-! ### CES -/

/-- 45_conv_encoder_stage.md R262: `CES.FORECAST N` answers N when the code is built, E_STATE otherwise, and
changes nothing. -/
def Obligations.CesForecast : Prop :=
  ∀ (n : Nat) (s : State), exec (.cesForecast n) s =
    .next { s with
      response :=
        if s.tce.buildState = .built then answer 0 0 0 (some (BitVec.ofNat 32 n))
        else answer 2 0 0 (some 0) }

/-- 46_host_commands.md R274, 45_conv_encoder_stage.md R256: on a built code without a latched fault `CES.WORK`
completes whatever the data, with produced ≤ cap, consumed ≤ avail, consumed ≤ produced and STARVED exactly when
produced < cap; beyond its registers, the written positions of its output window, the response and the model's
counter (log 8), nothing changes, later positions of the window included (log 7). For every state with the
invariant. -/
def Obligations.CesWorkCompletes : Prop :=
  ∀ (cap avail : Nat) (s : State), cap < 2 ^ 24 → avail < 2 ^ 32 → s.Inv → s.tce.buildState = .built →
    s.ces.faultTerm = false →
    ∃ (u : CesUnit) (out : List (BitVec 24)) (consumed : Nat),
      out.length ≤ cap ∧ consumed ≤ avail ∧ consumed ≤ out.length ∧
      exec (.cesWork cap avail) s =
        .next { s with
          ces := u, win := { s.win with cesOut := out ++ s.win.cesOut.drop out.length }
          freeCount := s.freeCount + 1
          response := answer 0 (if out.length < cap then 1 else 0) out.length
            (some (BitVec.ofNat 32 consumed)) }

/-- 45_conv_encoder_stage.md R253, R254, R255, R257, R258, 20_memory.md R61: one input of a block, bounded or not.
From INIT the state is loaded with 0 and the count with 0. The entry of the state and the item is emitted, its next
state kept, and the count advanced, saturating (log 15). If the count then is a `block_len` other than 0 the block
ends: in TERMINATING, with the fault latched where the state reached has no sequence, if termination is asked for
and T > 0; else in INIT. The item's low I bits are the combination (log 13), the output window keeps its later
positions (log 7), and the counter is the model's (log 8). -/
def Obligations.CesPayloadStep : Prop :=
  ∀ (s : State) (item : BitVec 24) (rest : List (BitVec 24)) (e : TrellisEntry) (seq : Option (List Nat)),
    s.tce.buildState = .built → s.ces.faultTerm = false → s.ces.phase ≠ .terminating →
    s.win.cesIn = item :: rest →
    let st := if s.ces.phase = .init then 0 else s.ces.tstate.toNat
    let count := min ((if s.ces.phase = .init then 0 else s.ces.payloadCount.toNat) + 1) (2 ^ 32 - 1)
    let ends := s.tce.blockLen ≠ 0 ∧ count = s.tce.blockLen.toNat
    let terminates := ends ∧ s.tce.doTerm = true ∧ s.tce.totalDelay ≠ 0
    s.tce.table[st * 2 ^ s.tce.inputs.toNat + item.toNat % 2 ^ s.tce.inputs.toNat]? = some e →
    (terminates → s.tce.term[e.next.toNat]? = some seq) →
    ∃ u : CesUnit,
      exec (.cesWork 1 1) s =
        .next { s with
          ces := u
          win := { s.win with cesOut := e.out :: s.win.cesOut.drop 1 }
          freeCount := s.freeCount + 1
          response := answer 0 0 1 (some 1) } ∧
      (terminates → u = ⟨.terminating, e.next, BitVec.ofNat 32 count, 0, e.next, seq.isNone⟩) ∧
      (¬ terminates → ends →
        u = { s.ces with phase := .init, tstate := e.next, payloadCount := BitVec.ofNat 32 count }) ∧
      (¬ ends →
        u = { s.ces with
          phase := .encodingPayload, tstate := e.next, payloadCount := BitVec.ofNat 32 count })

/-- 45_conv_encoder_stage.md R255, R261: with `block_len` = 0 the stage never enters TERMINATING, and every
`CES.WORK` produces as many outputs as it consumes inputs. -/
def Obligations.CesStreaming : Prop :=
  ∀ (cap avail : Nat) (s t : State), cap < 2 ^ 24 → avail < 2 ^ 32 → s.tce.blockLen = 0 →
    s.ces.phase ≠ .terminating → exec (.cesWork cap avail) s = .next t →
    t.ces.phase ≠ .terminating ∧ valField t = rxField t

/-- 45_conv_encoder_stage.md R257, R261. One termination step, whatever the window: the entry of the state and the
next combination of the base state's sequence is emitted, its next state kept, the count advanced, no input
consumed, and the phase is INIT once T combinations are used. A whole terminated block of B inputs from INIT, with
capacity for it: the outputs are the table's on the items and then on a sequence of exactly T combinations, the one
`TERM` holds for the state the items lead to; B items are consumed, and the stage is back in INIT at the end state,
unless it latches the fault of R258. For every state with the invariant; log 7, log 8 and log 13 as in
`CesPayloadStep`. -/
def Obligations.CesTerminatedBlock : Prop :=
  (∀ (avail : Nat) (s : State) (seq : List Nat) (c : Nat) (e : TrellisEntry), avail < 2 ^ 32 →
    s.tce.buildState = .built → s.ces.faultTerm = false → s.ces.phase = .terminating →
    s.tce.term[s.ces.termBase.toNat]? = some (some seq) → seq[s.ces.termCount.toNat]? = some c →
    s.tce.table[s.ces.tstate.toNat * 2 ^ s.tce.inputs.toNat + c]? = some e →
    exec (.cesWork 1 avail) s =
      .next { s with
        ces := { s.ces with
          phase := if s.ces.termCount + 1 = s.tce.totalDelay then .init else .terminating
          tstate := e.next, termCount := s.ces.termCount + 1 }
        win := { s.win with cesOut := e.out :: s.win.cesOut.drop 1 }
        freeCount := s.freeCount + 1
        response := answer 0 0 1 (some 0) }) ∧
  (∀ s t : State, s.Inv → s.tce.buildState = .built → s.tce.doTerm = true → s.tce.blockLen ≠ 0 →
    s.ces.phase = .init → s.tce.blockLen.toNat + s.tce.totalDelay.toNat < 2 ^ 24 →
    exec (.cesWork (s.tce.blockLen.toNat + s.tce.totalDelay.toNat) s.tce.blockLen.toNat) s = .next t →
    t.ces.faultTerm = false →
    valField t = s.tce.blockLen.toNat + s.tce.totalDelay.toNat ∧ rxField t = s.tce.blockLen.toNat ∧
      t.ces.phase = .init ∧ t.ces.tstate = s.tce.endState ∧
      let items := (s.cesWindow s.tce.blockLen.toNat).map (fun x => x.toNat % 2 ^ s.tce.inputs.toNat)
      ∃ seq : List Nat, seq.length = s.tce.totalDelay.toNat ∧
        (s.tce.totalDelay ≠ 0 →
          s.tce.term[walk s.tce.table (2 ^ s.tce.inputs.toNat) 0 items]? = some (some seq)) ∧
        t.win.cesOut.take (valField t) =
          tableOutputs s.tce.table (2 ^ s.tce.inputs.toNat) 0 (items ++ seq))

/-- 45_conv_encoder_stage.md R258, 60_exceptions.md R297: when the last input of a block leads to a state without a
termination sequence, the command ends OK with that output emitted and that input consumed, the fault latched and
the offending state kept; and on a built code every `CES.WORK` with the fault latched answers E_TERM and does
nothing (that only the hardware reset clears it is `StickyBitsStay`). Log 7, log 8 and log 13 as in
`CesPayloadStep`. -/
def Obligations.CesTerminationUnreachable : Prop :=
  (∀ (cap avail : Nat) (s : State) (item : BitVec 24) (rest : List (BitVec 24)) (e : TrellisEntry),
    cap + 1 < 2 ^ 24 → avail + 1 < 2 ^ 32 → s.tce.buildState = .built → s.ces.faultTerm = false →
    s.ces.phase = .encodingPayload → s.ces.payloadCount.toNat + 1 = s.tce.blockLen.toNat →
    s.tce.doTerm = true → s.tce.totalDelay ≠ 0 → s.win.cesIn = item :: rest →
    s.tce.table[s.ces.tstate.toNat * 2 ^ s.tce.inputs.toNat + item.toNat % 2 ^ s.tce.inputs.toNat]? =
      some e →
    s.tce.term[e.next.toNat]? = some none →
    exec (.cesWork (cap + 1) (avail + 1)) s =
      .next { s with
        ces := ⟨.terminating, e.next, s.tce.blockLen, 0, e.next, true⟩
        win := { s.win with cesOut := e.out :: s.win.cesOut.drop 1 }
        freeCount := s.freeCount + 1
        response := answer 0 (if 0 < cap then 1 else 0) 1 (some 1) }) ∧
  (∀ (cap avail : Nat) (s : State), s.tce.buildState = .built → s.ces.faultTerm = true →
    exec (.cesWork cap avail) s = .next { s with response := answer 5 0 0 (some 0) })

/-- 20_memory.md R78, 45_conv_encoder_stage.md R259: as long as no fault is latched in the first run, a run on the
items w1 and one on what it left, followed by the items w2, do together what one run on w1 and w2 does with the
summed capacity: the one produced by the first and offered to the second, or the one offered to both where the
cuts are not by a capacity the other run does not have. -/
def Obligations.CesLoopSplits : Prop :=
  ∀ (t : TceUnit) (a b c : Nat) (w1 w2 : List (BitVec 24)) (u : CesUnit) (r q : CesRun),
    cesLoop t a w1 u = .ok r → r.regs.faultTerm = false → cesLoop t b (r.rest ++ w2) r.regs = .ok q →
    (c = r.out.length + b ∨ (c = a + b ∧ (w2 = [] ∨ q.out.length < b))) →
    cesLoop t c (w1 ++ w2) u = .ok { q with out := r.out ++ q.out }
end

