-- ==== Sys2Proof/Laws/State.lean ====
section
/-! SUPPORT. One lemma per field per update of the state, and per derived update (respond, raise, emit, tick,
ensureLut), so that no proof unfolds a record update. -/

namespace Sys2Proof.Machine

@[simp] theorem State.withStr_str (s : State) (x : StrUnit) : (s.withStr x).str = x := rfl
@[simp] theorem State.withStr_fsd (s : State) (x : StrUnit) : (s.withStr x).fsd = s.fsd := rfl
@[simp] theorem State.withStr_lfsr (s : State) (x : StrUnit) : (s.withStr x).lfsr = s.lfsr := rfl
@[simp] theorem State.withStr_lutBuilt (s : State) (x : StrUnit) : (s.withStr x).lutBuilt = s.lutBuilt := rfl
@[simp] theorem State.withStr_tce (s : State) (x : StrUnit) : (s.withStr x).tce = s.tce := rfl
@[simp] theorem State.withStr_ces (s : State) (x : StrUnit) : (s.withStr x).ces = s.ces := rfl
@[simp] theorem State.withStr_win (s : State) (x : StrUnit) : (s.withStr x).win = s.win := rfl
@[simp] theorem State.withStr_port (s : State) (x : StrUnit) : (s.withStr x).port = s.port := rfl
@[simp] theorem State.withStr_response (s : State) (x : StrUnit) : (s.withStr x).response = s.response := rfl
@[simp] theorem State.withStr_host (s : State) (x : StrUnit) : (s.withStr x).host = s.host := rfl
@[simp] theorem State.withStr_freeCount (s : State) (x : StrUnit) : (s.withStr x).freeCount = s.freeCount := rfl

@[simp] theorem State.withFsd_str (s : State) (x : FsdUnit) : (s.withFsd x).str = s.str := rfl
@[simp] theorem State.withFsd_fsd (s : State) (x : FsdUnit) : (s.withFsd x).fsd = x := rfl
@[simp] theorem State.withFsd_lfsr (s : State) (x : FsdUnit) : (s.withFsd x).lfsr = s.lfsr := rfl
@[simp] theorem State.withFsd_lutBuilt (s : State) (x : FsdUnit) : (s.withFsd x).lutBuilt = s.lutBuilt := rfl
@[simp] theorem State.withFsd_tce (s : State) (x : FsdUnit) : (s.withFsd x).tce = s.tce := rfl
@[simp] theorem State.withFsd_ces (s : State) (x : FsdUnit) : (s.withFsd x).ces = s.ces := rfl
@[simp] theorem State.withFsd_win (s : State) (x : FsdUnit) : (s.withFsd x).win = s.win := rfl
@[simp] theorem State.withFsd_port (s : State) (x : FsdUnit) : (s.withFsd x).port = s.port := rfl
@[simp] theorem State.withFsd_response (s : State) (x : FsdUnit) : (s.withFsd x).response = s.response := rfl
@[simp] theorem State.withFsd_host (s : State) (x : FsdUnit) : (s.withFsd x).host = s.host := rfl
@[simp] theorem State.withFsd_freeCount (s : State) (x : FsdUnit) : (s.withFsd x).freeCount = s.freeCount := rfl

@[simp] theorem State.withLfsr_str (s : State) (x : LfsrUnit) : (s.withLfsr x).str = s.str := rfl
@[simp] theorem State.withLfsr_fsd (s : State) (x : LfsrUnit) : (s.withLfsr x).fsd = s.fsd := rfl
@[simp] theorem State.withLfsr_lfsr (s : State) (x : LfsrUnit) : (s.withLfsr x).lfsr = x := rfl
@[simp] theorem State.withLfsr_lutBuilt (s : State) (x : LfsrUnit) : (s.withLfsr x).lutBuilt = s.lutBuilt := rfl
@[simp] theorem State.withLfsr_tce (s : State) (x : LfsrUnit) : (s.withLfsr x).tce = s.tce := rfl
@[simp] theorem State.withLfsr_ces (s : State) (x : LfsrUnit) : (s.withLfsr x).ces = s.ces := rfl
@[simp] theorem State.withLfsr_win (s : State) (x : LfsrUnit) : (s.withLfsr x).win = s.win := rfl
@[simp] theorem State.withLfsr_port (s : State) (x : LfsrUnit) : (s.withLfsr x).port = s.port := rfl
@[simp] theorem State.withLfsr_response (s : State) (x : LfsrUnit) : (s.withLfsr x).response = s.response := rfl
@[simp] theorem State.withLfsr_host (s : State) (x : LfsrUnit) : (s.withLfsr x).host = s.host := rfl
@[simp] theorem State.withLfsr_freeCount (s : State) (x : LfsrUnit) : (s.withLfsr x).freeCount = s.freeCount := rfl

@[simp] theorem State.withLutBuilt_str (s : State) (x : Bool) : (s.withLutBuilt x).str = s.str := rfl
@[simp] theorem State.withLutBuilt_fsd (s : State) (x : Bool) : (s.withLutBuilt x).fsd = s.fsd := rfl
@[simp] theorem State.withLutBuilt_lfsr (s : State) (x : Bool) : (s.withLutBuilt x).lfsr = s.lfsr := rfl
@[simp] theorem State.withLutBuilt_lutBuilt (s : State) (x : Bool) : (s.withLutBuilt x).lutBuilt = x := rfl
@[simp] theorem State.withLutBuilt_tce (s : State) (x : Bool) : (s.withLutBuilt x).tce = s.tce := rfl
@[simp] theorem State.withLutBuilt_ces (s : State) (x : Bool) : (s.withLutBuilt x).ces = s.ces := rfl
@[simp] theorem State.withLutBuilt_win (s : State) (x : Bool) : (s.withLutBuilt x).win = s.win := rfl
@[simp] theorem State.withLutBuilt_port (s : State) (x : Bool) : (s.withLutBuilt x).port = s.port := rfl
@[simp] theorem State.withLutBuilt_response (s : State) (x : Bool) : (s.withLutBuilt x).response = s.response := rfl
@[simp] theorem State.withLutBuilt_host (s : State) (x : Bool) : (s.withLutBuilt x).host = s.host := rfl
@[simp] theorem State.withLutBuilt_freeCount (s : State) (x : Bool) : (s.withLutBuilt x).freeCount = s.freeCount := rfl

@[simp] theorem State.withTce_str (s : State) (x : TceUnit) : (s.withTce x).str = s.str := rfl
@[simp] theorem State.withTce_fsd (s : State) (x : TceUnit) : (s.withTce x).fsd = s.fsd := rfl
@[simp] theorem State.withTce_lfsr (s : State) (x : TceUnit) : (s.withTce x).lfsr = s.lfsr := rfl
@[simp] theorem State.withTce_lutBuilt (s : State) (x : TceUnit) : (s.withTce x).lutBuilt = s.lutBuilt := rfl
@[simp] theorem State.withTce_tce (s : State) (x : TceUnit) : (s.withTce x).tce = x := rfl
@[simp] theorem State.withTce_ces (s : State) (x : TceUnit) : (s.withTce x).ces = s.ces := rfl
@[simp] theorem State.withTce_win (s : State) (x : TceUnit) : (s.withTce x).win = s.win := rfl
@[simp] theorem State.withTce_port (s : State) (x : TceUnit) : (s.withTce x).port = s.port := rfl
@[simp] theorem State.withTce_response (s : State) (x : TceUnit) : (s.withTce x).response = s.response := rfl
@[simp] theorem State.withTce_host (s : State) (x : TceUnit) : (s.withTce x).host = s.host := rfl
@[simp] theorem State.withTce_freeCount (s : State) (x : TceUnit) : (s.withTce x).freeCount = s.freeCount := rfl

@[simp] theorem State.withCes_str (s : State) (x : CesUnit) : (s.withCes x).str = s.str := rfl
@[simp] theorem State.withCes_fsd (s : State) (x : CesUnit) : (s.withCes x).fsd = s.fsd := rfl
@[simp] theorem State.withCes_lfsr (s : State) (x : CesUnit) : (s.withCes x).lfsr = s.lfsr := rfl
@[simp] theorem State.withCes_lutBuilt (s : State) (x : CesUnit) : (s.withCes x).lutBuilt = s.lutBuilt := rfl
@[simp] theorem State.withCes_tce (s : State) (x : CesUnit) : (s.withCes x).tce = s.tce := rfl
@[simp] theorem State.withCes_ces (s : State) (x : CesUnit) : (s.withCes x).ces = x := rfl
@[simp] theorem State.withCes_win (s : State) (x : CesUnit) : (s.withCes x).win = s.win := rfl
@[simp] theorem State.withCes_port (s : State) (x : CesUnit) : (s.withCes x).port = s.port := rfl
@[simp] theorem State.withCes_response (s : State) (x : CesUnit) : (s.withCes x).response = s.response := rfl
@[simp] theorem State.withCes_host (s : State) (x : CesUnit) : (s.withCes x).host = s.host := rfl
@[simp] theorem State.withCes_freeCount (s : State) (x : CesUnit) : (s.withCes x).freeCount = s.freeCount := rfl

@[simp] theorem State.withWin_str (s : State) (x : Windows) : (s.withWin x).str = s.str := rfl
@[simp] theorem State.withWin_fsd (s : State) (x : Windows) : (s.withWin x).fsd = s.fsd := rfl
@[simp] theorem State.withWin_lfsr (s : State) (x : Windows) : (s.withWin x).lfsr = s.lfsr := rfl
@[simp] theorem State.withWin_lutBuilt (s : State) (x : Windows) : (s.withWin x).lutBuilt = s.lutBuilt := rfl
@[simp] theorem State.withWin_tce (s : State) (x : Windows) : (s.withWin x).tce = s.tce := rfl
@[simp] theorem State.withWin_ces (s : State) (x : Windows) : (s.withWin x).ces = s.ces := rfl
@[simp] theorem State.withWin_win (s : State) (x : Windows) : (s.withWin x).win = x := rfl
@[simp] theorem State.withWin_port (s : State) (x : Windows) : (s.withWin x).port = s.port := rfl
@[simp] theorem State.withWin_response (s : State) (x : Windows) : (s.withWin x).response = s.response := rfl
@[simp] theorem State.withWin_host (s : State) (x : Windows) : (s.withWin x).host = s.host := rfl
@[simp] theorem State.withWin_freeCount (s : State) (x : Windows) : (s.withWin x).freeCount = s.freeCount := rfl

@[simp] theorem State.withPort_str (s : State) (x : List Word) : (s.withPort x).str = s.str := rfl
@[simp] theorem State.withPort_fsd (s : State) (x : List Word) : (s.withPort x).fsd = s.fsd := rfl
@[simp] theorem State.withPort_lfsr (s : State) (x : List Word) : (s.withPort x).lfsr = s.lfsr := rfl
@[simp] theorem State.withPort_lutBuilt (s : State) (x : List Word) : (s.withPort x).lutBuilt = s.lutBuilt := rfl
@[simp] theorem State.withPort_tce (s : State) (x : List Word) : (s.withPort x).tce = s.tce := rfl
@[simp] theorem State.withPort_ces (s : State) (x : List Word) : (s.withPort x).ces = s.ces := rfl
@[simp] theorem State.withPort_win (s : State) (x : List Word) : (s.withPort x).win = s.win := rfl
@[simp] theorem State.withPort_port (s : State) (x : List Word) : (s.withPort x).port = x := rfl
@[simp] theorem State.withPort_response (s : State) (x : List Word) : (s.withPort x).response = s.response := rfl
@[simp] theorem State.withPort_host (s : State) (x : List Word) : (s.withPort x).host = s.host := rfl
@[simp] theorem State.withPort_freeCount (s : State) (x : List Word) : (s.withPort x).freeCount = s.freeCount := rfl

@[simp] theorem State.withResponse_str (s : State) (x : Option Response) : (s.withResponse x).str = s.str := rfl
@[simp] theorem State.withResponse_fsd (s : State) (x : Option Response) : (s.withResponse x).fsd = s.fsd := rfl
@[simp] theorem State.withResponse_lfsr (s : State) (x : Option Response) : (s.withResponse x).lfsr = s.lfsr := rfl
@[simp] theorem State.withResponse_lutBuilt (s : State) (x : Option Response) : (s.withResponse x).lutBuilt = s.lutBuilt := rfl
@[simp] theorem State.withResponse_tce (s : State) (x : Option Response) : (s.withResponse x).tce = s.tce := rfl
@[simp] theorem State.withResponse_ces (s : State) (x : Option Response) : (s.withResponse x).ces = s.ces := rfl
@[simp] theorem State.withResponse_win (s : State) (x : Option Response) : (s.withResponse x).win = s.win := rfl
@[simp] theorem State.withResponse_port (s : State) (x : Option Response) : (s.withResponse x).port = s.port := rfl
@[simp] theorem State.withResponse_response (s : State) (x : Option Response) : (s.withResponse x).response = x := rfl
@[simp] theorem State.withResponse_host (s : State) (x : Option Response) : (s.withResponse x).host = s.host := rfl
@[simp] theorem State.withResponse_freeCount (s : State) (x : Option Response) : (s.withResponse x).freeCount = s.freeCount := rfl

@[simp] theorem State.withHost_str (s : State) (x : List HostMove) : (s.withHost x).str = s.str := rfl
@[simp] theorem State.withHost_fsd (s : State) (x : List HostMove) : (s.withHost x).fsd = s.fsd := rfl
@[simp] theorem State.withHost_lfsr (s : State) (x : List HostMove) : (s.withHost x).lfsr = s.lfsr := rfl
@[simp] theorem State.withHost_lutBuilt (s : State) (x : List HostMove) : (s.withHost x).lutBuilt = s.lutBuilt := rfl
@[simp] theorem State.withHost_tce (s : State) (x : List HostMove) : (s.withHost x).tce = s.tce := rfl
@[simp] theorem State.withHost_ces (s : State) (x : List HostMove) : (s.withHost x).ces = s.ces := rfl
@[simp] theorem State.withHost_win (s : State) (x : List HostMove) : (s.withHost x).win = s.win := rfl
@[simp] theorem State.withHost_port (s : State) (x : List HostMove) : (s.withHost x).port = s.port := rfl
@[simp] theorem State.withHost_response (s : State) (x : List HostMove) : (s.withHost x).response = s.response := rfl
@[simp] theorem State.withHost_host (s : State) (x : List HostMove) : (s.withHost x).host = x := rfl
@[simp] theorem State.withHost_freeCount (s : State) (x : List HostMove) : (s.withHost x).freeCount = s.freeCount := rfl

@[simp] theorem State.withFreeCount_str (s : State) (x : Nat) : (s.withFreeCount x).str = s.str := rfl
@[simp] theorem State.withFreeCount_fsd (s : State) (x : Nat) : (s.withFreeCount x).fsd = s.fsd := rfl
@[simp] theorem State.withFreeCount_lfsr (s : State) (x : Nat) : (s.withFreeCount x).lfsr = s.lfsr := rfl
@[simp] theorem State.withFreeCount_lutBuilt (s : State) (x : Nat) : (s.withFreeCount x).lutBuilt = s.lutBuilt := rfl
@[simp] theorem State.withFreeCount_tce (s : State) (x : Nat) : (s.withFreeCount x).tce = s.tce := rfl
@[simp] theorem State.withFreeCount_ces (s : State) (x : Nat) : (s.withFreeCount x).ces = s.ces := rfl
@[simp] theorem State.withFreeCount_win (s : State) (x : Nat) : (s.withFreeCount x).win = s.win := rfl
@[simp] theorem State.withFreeCount_port (s : State) (x : Nat) : (s.withFreeCount x).port = s.port := rfl
@[simp] theorem State.withFreeCount_response (s : State) (x : Nat) : (s.withFreeCount x).response = s.response := rfl
@[simp] theorem State.withFreeCount_host (s : State) (x : Nat) : (s.withFreeCount x).host = s.host := rfl
@[simp] theorem State.withFreeCount_freeCount (s : State) (x : Nat) : (s.withFreeCount x).freeCount = x := rfl

@[simp] theorem State.respond_str (s : State) (e : Events) (v : BitVec 24) (rx : Option Word) :
    (s.respond e v rx).str = s.str := rfl
@[simp] theorem State.raise_str (s : State) (e : Status) (h : Bool) : (s.raise e h).str = s.str := rfl
@[simp] theorem State.respond_fsd (s : State) (e : Events) (v : BitVec 24) (rx : Option Word) :
    (s.respond e v rx).fsd = s.fsd := rfl
@[simp] theorem State.raise_fsd (s : State) (e : Status) (h : Bool) : (s.raise e h).fsd = s.fsd := rfl
@[simp] theorem State.respond_lfsr (s : State) (e : Events) (v : BitVec 24) (rx : Option Word) :
    (s.respond e v rx).lfsr = s.lfsr := rfl
@[simp] theorem State.raise_lfsr (s : State) (e : Status) (h : Bool) : (s.raise e h).lfsr = s.lfsr := rfl
@[simp] theorem State.respond_lutBuilt (s : State) (e : Events) (v : BitVec 24) (rx : Option Word) :
    (s.respond e v rx).lutBuilt = s.lutBuilt := rfl
@[simp] theorem State.raise_lutBuilt (s : State) (e : Status) (h : Bool) : (s.raise e h).lutBuilt = s.lutBuilt := rfl
@[simp] theorem State.respond_tce (s : State) (e : Events) (v : BitVec 24) (rx : Option Word) :
    (s.respond e v rx).tce = s.tce := rfl
@[simp] theorem State.raise_tce (s : State) (e : Status) (h : Bool) : (s.raise e h).tce = s.tce := rfl
@[simp] theorem State.respond_ces (s : State) (e : Events) (v : BitVec 24) (rx : Option Word) :
    (s.respond e v rx).ces = s.ces := rfl
@[simp] theorem State.raise_ces (s : State) (e : Status) (h : Bool) : (s.raise e h).ces = s.ces := rfl
@[simp] theorem State.respond_win (s : State) (e : Events) (v : BitVec 24) (rx : Option Word) :
    (s.respond e v rx).win = s.win := rfl
@[simp] theorem State.raise_win (s : State) (e : Status) (h : Bool) : (s.raise e h).win = s.win := rfl
@[simp] theorem State.respond_port (s : State) (e : Events) (v : BitVec 24) (rx : Option Word) :
    (s.respond e v rx).port = s.port := rfl
@[simp] theorem State.raise_port (s : State) (e : Status) (h : Bool) : (s.raise e h).port = s.port := rfl
@[simp] theorem State.respond_response (s : State) (e : Events) (v : BitVec 24) (rx : Option Word) :
    (s.respond e v rx).response = some ⟨packRw .ok e v, rx⟩ := rfl
@[simp] theorem State.raise_response (s : State) (e : Status) (h : Bool) :
    (s.raise e h).response = some ⟨packRw e ⟨false, false, false, false⟩ 0, if h then some 0 else none⟩ := rfl
@[simp] theorem State.respond_host (s : State) (e : Events) (v : BitVec 24) (rx : Option Word) :
    (s.respond e v rx).host = s.host := rfl
@[simp] theorem State.raise_host (s : State) (e : Status) (h : Bool) : (s.raise e h).host = s.host := rfl
@[simp] theorem State.respond_freeCount (s : State) (e : Events) (v : BitVec 24) (rx : Option Word) :
    (s.respond e v rx).freeCount = s.freeCount := rfl
@[simp] theorem State.raise_freeCount (s : State) (e : Status) (h : Bool) : (s.raise e h).freeCount = s.freeCount := rfl

@[simp] theorem State.tick_str (s : State) : s.tick.str = s.str := rfl
@[simp] theorem State.tick_fsd (s : State) : s.tick.fsd = s.fsd := rfl
@[simp] theorem State.tick_lfsr (s : State) : s.tick.lfsr = s.lfsr := rfl
@[simp] theorem State.tick_lutBuilt (s : State) : s.tick.lutBuilt = s.lutBuilt := rfl
@[simp] theorem State.tick_tce (s : State) : s.tick.tce = s.tce := rfl
@[simp] theorem State.tick_ces (s : State) : s.tick.ces = s.ces := rfl
@[simp] theorem State.tick_win (s : State) : s.tick.win = s.win := rfl
@[simp] theorem State.tick_port (s : State) : s.tick.port = s.port := rfl
@[simp] theorem State.tick_response (s : State) : s.tick.response = s.response := rfl
@[simp] theorem State.tick_host (s : State) : s.tick.host = s.host := rfl
@[simp] theorem State.tick_freeCount (s : State) : s.tick.freeCount = s.freeCount + 1 := rfl

@[simp] theorem State.emitStr_str (s : State) (items : List TaggedSymbol) :
    (s.emitStr items).str = s.str := rfl
@[simp] theorem State.emitStr_fsd (s : State) (items : List TaggedSymbol) :
    (s.emitStr items).fsd = s.fsd := rfl
@[simp] theorem State.emitStr_lfsr (s : State) (items : List TaggedSymbol) :
    (s.emitStr items).lfsr = s.lfsr := rfl
@[simp] theorem State.emitStr_lutBuilt (s : State) (items : List TaggedSymbol) :
    (s.emitStr items).lutBuilt = s.lutBuilt := rfl
@[simp] theorem State.emitStr_tce (s : State) (items : List TaggedSymbol) :
    (s.emitStr items).tce = s.tce := rfl
@[simp] theorem State.emitStr_ces (s : State) (items : List TaggedSymbol) :
    (s.emitStr items).ces = s.ces := rfl
@[simp] theorem State.emitStr_win (s : State) (items : List TaggedSymbol) :
    (s.emitStr items).win = { s.win with strOut := writeWindow items s.win.strOut } := rfl
@[simp] theorem State.emitStr_port (s : State) (items : List TaggedSymbol) :
    (s.emitStr items).port = s.port := rfl
@[simp] theorem State.emitStr_response (s : State) (items : List TaggedSymbol) :
    (s.emitStr items).response = s.response := rfl
@[simp] theorem State.emitStr_host (s : State) (items : List TaggedSymbol) :
    (s.emitStr items).host = s.host := rfl
@[simp] theorem State.emitStr_freeCount (s : State) (items : List TaggedSymbol) :
    (s.emitStr items).freeCount = s.freeCount := rfl

@[simp] theorem State.emitFsd_str (s : State) (items : List DataSegment) :
    (s.emitFsd items).str = s.str := rfl
@[simp] theorem State.emitFsd_fsd (s : State) (items : List DataSegment) :
    (s.emitFsd items).fsd = s.fsd := rfl
@[simp] theorem State.emitFsd_lfsr (s : State) (items : List DataSegment) :
    (s.emitFsd items).lfsr = s.lfsr := rfl
@[simp] theorem State.emitFsd_lutBuilt (s : State) (items : List DataSegment) :
    (s.emitFsd items).lutBuilt = s.lutBuilt := rfl
@[simp] theorem State.emitFsd_tce (s : State) (items : List DataSegment) :
    (s.emitFsd items).tce = s.tce := rfl
@[simp] theorem State.emitFsd_ces (s : State) (items : List DataSegment) :
    (s.emitFsd items).ces = s.ces := rfl
@[simp] theorem State.emitFsd_win (s : State) (items : List DataSegment) :
    (s.emitFsd items).win = { s.win with fsdOut := writeWindow items s.win.fsdOut } := rfl
@[simp] theorem State.emitFsd_port (s : State) (items : List DataSegment) :
    (s.emitFsd items).port = s.port := rfl
@[simp] theorem State.emitFsd_response (s : State) (items : List DataSegment) :
    (s.emitFsd items).response = s.response := rfl
@[simp] theorem State.emitFsd_host (s : State) (items : List DataSegment) :
    (s.emitFsd items).host = s.host := rfl
@[simp] theorem State.emitFsd_freeCount (s : State) (items : List DataSegment) :
    (s.emitFsd items).freeCount = s.freeCount := rfl

@[simp] theorem State.emitLfsr_str (s : State) (items : List Byte) :
    (s.emitLfsr items).str = s.str := rfl
@[simp] theorem State.emitLfsr_fsd (s : State) (items : List Byte) :
    (s.emitLfsr items).fsd = s.fsd := rfl
@[simp] theorem State.emitLfsr_lfsr (s : State) (items : List Byte) :
    (s.emitLfsr items).lfsr = s.lfsr := rfl
@[simp] theorem State.emitLfsr_lutBuilt (s : State) (items : List Byte) :
    (s.emitLfsr items).lutBuilt = s.lutBuilt := rfl
@[simp] theorem State.emitLfsr_tce (s : State) (items : List Byte) :
    (s.emitLfsr items).tce = s.tce := rfl
@[simp] theorem State.emitLfsr_ces (s : State) (items : List Byte) :
    (s.emitLfsr items).ces = s.ces := rfl
@[simp] theorem State.emitLfsr_win (s : State) (items : List Byte) :
    (s.emitLfsr items).win = { s.win with lfsrOut := writeWindow items s.win.lfsrOut } := rfl
@[simp] theorem State.emitLfsr_port (s : State) (items : List Byte) :
    (s.emitLfsr items).port = s.port := rfl
@[simp] theorem State.emitLfsr_response (s : State) (items : List Byte) :
    (s.emitLfsr items).response = s.response := rfl
@[simp] theorem State.emitLfsr_host (s : State) (items : List Byte) :
    (s.emitLfsr items).host = s.host := rfl
@[simp] theorem State.emitLfsr_freeCount (s : State) (items : List Byte) :
    (s.emitLfsr items).freeCount = s.freeCount := rfl

@[simp] theorem State.emitCes_str (s : State) (items : List (BitVec 24)) :
    (s.emitCes items).str = s.str := rfl
@[simp] theorem State.emitCes_fsd (s : State) (items : List (BitVec 24)) :
    (s.emitCes items).fsd = s.fsd := rfl
@[simp] theorem State.emitCes_lfsr (s : State) (items : List (BitVec 24)) :
    (s.emitCes items).lfsr = s.lfsr := rfl
@[simp] theorem State.emitCes_lutBuilt (s : State) (items : List (BitVec 24)) :
    (s.emitCes items).lutBuilt = s.lutBuilt := rfl
@[simp] theorem State.emitCes_tce (s : State) (items : List (BitVec 24)) :
    (s.emitCes items).tce = s.tce := rfl
@[simp] theorem State.emitCes_ces (s : State) (items : List (BitVec 24)) :
    (s.emitCes items).ces = s.ces := rfl
@[simp] theorem State.emitCes_win (s : State) (items : List (BitVec 24)) :
    (s.emitCes items).win = { s.win with cesOut := writeWindow items s.win.cesOut } := rfl
@[simp] theorem State.emitCes_port (s : State) (items : List (BitVec 24)) :
    (s.emitCes items).port = s.port := rfl
@[simp] theorem State.emitCes_response (s : State) (items : List (BitVec 24)) :
    (s.emitCes items).response = s.response := rfl
@[simp] theorem State.emitCes_host (s : State) (items : List (BitVec 24)) :
    (s.emitCes items).host = s.host := rfl
@[simp] theorem State.emitCes_freeCount (s : State) (items : List (BitVec 24)) :
    (s.emitCes items).freeCount = s.freeCount := rfl

@[simp] theorem State.ensureLut_lutBuilt (s : State) : s.ensureLut.lutBuilt = true := by
  unfold State.ensureLut; split <;> simp_all

@[simp] theorem State.ensureLut_str (s : State) : s.ensureLut.str = s.str := by
  unfold State.ensureLut; split <;> rfl
@[simp] theorem State.ensureLut_fsd (s : State) : s.ensureLut.fsd = s.fsd := by
  unfold State.ensureLut; split <;> rfl
@[simp] theorem State.ensureLut_lfsr (s : State) : s.ensureLut.lfsr = s.lfsr := by
  unfold State.ensureLut; split <;> rfl
@[simp] theorem State.ensureLut_tce (s : State) : s.ensureLut.tce = s.tce := by
  unfold State.ensureLut; split <;> rfl
@[simp] theorem State.ensureLut_ces (s : State) : s.ensureLut.ces = s.ces := by
  unfold State.ensureLut; split <;> rfl
@[simp] theorem State.ensureLut_win (s : State) : s.ensureLut.win = s.win := by
  unfold State.ensureLut; split <;> rfl
@[simp] theorem State.ensureLut_port (s : State) : s.ensureLut.port = s.port := by
  unfold State.ensureLut; split <;> rfl
@[simp] theorem State.ensureLut_response (s : State) : s.ensureLut.response = s.response := by
  unfold State.ensureLut; split <;> rfl
@[simp] theorem State.ensureLut_host (s : State) : s.ensureLut.host = s.host := by
  unfold State.ensureLut; split <;> rfl
@[simp] theorem State.ensureLut_freeCount (s : State) : s.ensureLut.freeCount = s.freeCount := by
  unfold State.ensureLut; split <;> rfl

/-- `ensure_lut()` sets `LUT.built` and nothing else (43_lfsr_whitener.md R175). -/
theorem State.ensureLut_eq (s : State) : s.ensureLut = s.withLutBuilt true := by
  unfold State.ensureLut
  split
  · next h => cases s; simp_all [State.withLutBuilt]
  · rfl

end Sys2Proof.Machine
end

