-- ==== Sys2Proof/Laws/Ops.lean ====
section
/-! SUPPORT. What each shared operation can do, said once: windows, the space CFG and its canonical form,
the tables, the response word, the host's moves. -/

namespace Sys2Proof.Machine

/-! ### Windows -/

@[simp] theorem windowFrom_length {α : Type} (free : Nat → α) (pos n : Nat) (l : List α) :
    (windowFrom free pos n l).length = n := by
  induction n generalizing pos l with
  | zero => cases l <;> rfl
  | succ n ih => cases l <;> simp [windowFrom, ih]

@[simp] theorem inputWindow_length {α : Type} (free : Nat → α) (n : Nat) (l : List α) :
    (inputWindow free n l).length = n := windowFrom_length free 0 n l

/-- Item `k` of a window: the host's item where it filled the position, else a free one. -/
theorem windowFrom_getElem? {α : Type} (free : Nat → α) (pos n : Nat) (l : List α) (k : Nat)
    (hk : k < n) : (windowFrom free pos n l)[k]? = some ((l[k]?).getD (free (pos + k))) := by
  induction n generalizing pos l k with
  | zero => omega
  | succ n ih =>
    cases l with
    | nil =>
      cases k with
      | zero => simp [windowFrom]
      | succ k =>
        have := ih (pos + 1) [] k (by omega)
        simpa [windowFrom, Nat.add_assoc, Nat.add_comm 1] using this
    | cons x xs =>
      cases k with
      | zero => simp [windowFrom]
      | succ k =>
        have := ih (pos + 1) xs k (by omega)
        simpa [windowFrom, Nat.add_assoc, Nat.add_comm 1] using this

/-- Item `k` of an input window. -/
theorem inputWindow_getElem? {α : Type} (free : Nat → α) (n : Nat) (l : List α) (k : Nat) (hk : k < n) :
    (inputWindow free n l)[k]? = some ((l[k]?).getD (free k)) := by
  simpa [inputWindow] using windowFrom_getElem? free 0 n l k hk

/-- A window the host filled is its first `n` items. -/
theorem inputWindow_filled {α : Type} (free : Nat → α) (n : Nat) (l : List α) (h : n ≤ l.length) :
    inputWindow free n l = l.take n := by
  apply List.ext_getElem?
  intro k
  by_cases hk : k < n
  · rw [inputWindow_getElem? free n l k hk, List.getElem?_take_of_lt hk,
      List.getElem?_eq_getElem (by omega)]
    rfl
  · rw [List.getElem?_eq_none (by simp; omega), List.getElem?_eq_none (by simp; omega)]

/-- An output window: the items written, then what stood beyond them (46_host_commands.md R274). -/
theorem writeWindow_getElem? {α : Type} (emitted old : List α) (k : Nat) :
    (writeWindow emitted old)[k]? = if k < emitted.length then emitted[k]? else old[k]? := by
  unfold writeWindow
  split
  · next h => exact List.getElem?_append_left h
  · next h =>
    rw [List.getElem?_append_right (by omega), List.getElem?_drop]
    congr 1; omega

@[simp] theorem writeWindow_take {α : Type} (emitted old : List α) :
    (writeWindow emitted old).take emitted.length = emitted := by
  simp [writeWindow]

@[simp] theorem writeWindow_nil {α : Type} (old : List α) : writeWindow [] old = old := rfl

/-! ### The space CFG -/

/-- Reading after a write: the entry written, every other entry as before. -/
theorem memRead_memWrite (m : Memory) (h : m.wf) (key key' : Nat) (v : BitVec 32) :
    memRead (memWrite m key v) key' = if key' = key then some v else memRead m key' := by
  induction m with
  | nil => simp only [memWrite, memRead, eq_comm]
  | cons e m ih =>
    obtain ⟨k, w⟩ := e
    have hm : Memory.wf m := (List.pairwise_cons.mp h).2
    simp only [memWrite]
    split
    · simp only [memRead, eq_comm]
    · split
      · next _ hk => subst hk; simp only [memRead, eq_comm]; split <;> rfl
      · next hlt hne =>
        simp only [memRead, ih hm]
        by_cases h1 : k = key'
        · subst h1; simp [Ne.symm hne]
        · simp [h1]

/-- Every key of a written memory is the key written or an old one. -/
theorem mem_memWrite (m : Memory) (key : Nat) (v : BitVec 32) (e : Nat × BitVec 32)
    (he : e ∈ memWrite m key v) : e = (key, v) ∨ e ∈ m := by
  induction m with
  | nil => simpa [memWrite] using he
  | cons e' m ih =>
    obtain ⟨k, w⟩ := e'
    simp only [memWrite] at he
    split at he
    · rcases List.mem_cons.mp he with h | h
      · exact .inl h
      · exact .inr h
    · split at he
      · rcases List.mem_cons.mp he with h | h
        · exact .inl h
        · exact .inr (List.mem_cons_of_mem _ h)
      · rcases List.mem_cons.mp he with h | h
        · exact .inr (h ▸ List.mem_cons_self)
        · rcases ih h with h | h
          · exact .inl h
          · exact .inr (List.mem_cons_of_mem _ h)

/-- A write keeps the canonical form. -/
theorem memWrite_wf (m : Memory) (h : m.wf) (key : Nat) (v : BitVec 32) : (memWrite m key v).wf := by
  induction m with
  | nil => simp [memWrite, Memory.wf]
  | cons e m ih =>
    obtain ⟨k, w⟩ := e
    have hc := List.pairwise_cons.mp h
    simp only [memWrite]
    split
    · next hlt =>
      refine List.pairwise_cons.mpr ⟨?_, h⟩
      intro a ha
      rcases List.mem_cons.mp ha with rfl | ha
      · exact hlt
      · exact Nat.lt_trans hlt (hc.1 a ha)
    · split
      · next hk => subst hk; exact List.pairwise_cons.mpr ⟨hc.1, hc.2⟩
      · next hlt hne =>
        refine List.pairwise_cons.mpr ⟨?_, ih hc.2⟩
        intro a ha
        rcases mem_memWrite m key v a ha with rfl | ha
        · show k < key; omega
        · exact hc.1 a ha

/-- Reset's memories have the canonical form. -/
theorem reset_memory_wf : State.reset.tce.gen.wf ∧ State.reset.tce.fb.wf := by
  constructor <;> exact List.Pairwise.nil

/-- The keys of 8-bit positions are distinct. -/
theorem cfgKey_inj {i o a b : Nat} (ho : o < 256) (hb : b < 256) :
    cfgKey i o = cfgKey a b ↔ i = a ∧ o = b := by
  unfold cfgKey; omega

/-! ### TRELLIS and TERM -/

theorem trellisRead_ok (t : TceUnit) (st c : Nat) (e : TrellisEntry) :
    trellisRead t st c = .ok e ↔ t.table[st * 2 ^ t.inputs.toNat + c]? = some e := by
  unfold trellisRead; split <;> simp_all

/-- A read of TRELLIS in range answers. -/
theorem trellisRead_in_range (t : TceUnit) (st c : Nat) (states : Nat)
    (hlen : t.table.length = states * 2 ^ t.inputs.toNat) (hs : st < states)
    (hc : c < 2 ^ t.inputs.toNat) : ∃ e ∈ t.table, trellisRead t st c = .ok e := by
  have hlt : st * 2 ^ t.inputs.toNat + c < t.table.length := by
    rw [hlen]; nlinarith [Nat.mul_le_mul_right (2 ^ t.inputs.toNat) (Nat.succ_le_of_lt hs)]
  refine ⟨t.table[st * 2 ^ t.inputs.toNat + c], List.getElem_mem hlt, ?_⟩
  rw [trellisRead_ok]; exact List.getElem?_eq_getElem hlt

theorem termSequence_ok (t : TceUnit) (st : Nat) (q : Option (List Nat)) :
    termSequence t st = .ok q ↔ t.term[st]? = some q := by
  unfold termSequence; split <;> simp_all

theorem termRead_ok (t : TceUnit) (st k c : Nat) :
    termRead t st k = .ok c ↔ ∃ seq, t.term[st]? = some (some seq) ∧ seq[k]? = some c := by
  unfold termRead
  split
  · next seq h => split <;> simp_all
  · next h =>
    simp only [reduceCtorEq, false_iff, not_exists, not_and]
    intro seq hs; exact absurd hs (h seq)

/-! ### Answers -/

@[simp] theorem raised_eq (s : State) (e : Status) (h : Bool) : raised s e h = .next (s.raise e h) := rfl

/-- A forecast always answers. -/
theorem answerForecast_eq (s : State) (n : Nat) :
    answerForecast s n =
      .next (if 2 ^ 32 ≤ n then s.raise .range true
        else s.respond ⟨false, false, false, false⟩ 0 (some (rxOf n))) := rfl

/-! ### The host's moves -/

@[simp] theorem hardwareReset_lutBuilt (s : State) : (hardwareReset s).lutBuilt = s.lutBuilt := rfl
@[simp] theorem hardwareReset_str (s : State) : (hardwareReset s).str = StrUnit.reset := rfl
@[simp] theorem hardwareReset_fsd (s : State) : (hardwareReset s).fsd = FsdUnit.reset := rfl
@[simp] theorem hardwareReset_lfsr (s : State) : (hardwareReset s).lfsr = LfsrUnit.reset := rfl
@[simp] theorem hardwareReset_tce (s : State) : (hardwareReset s).tce = TceUnit.reset := rfl
@[simp] theorem hardwareReset_ces (s : State) : (hardwareReset s).ces = CesUnit.reset := rfl

/-- What a move of the host can do to the units: nothing, or the hardware reset. -/
theorem hostMove_units (s : State) (m : HostMove) :
    ((hostMove s m).str = s.str ∧ (hostMove s m).fsd = s.fsd ∧ (hostMove s m).lfsr = s.lfsr ∧
      (hostMove s m).tce = s.tce ∧ (hostMove s m).ces = s.ces ∧ (hostMove s m).lutBuilt = s.lutBuilt) ∨
    (m = .reset ∧ hostMove s m = hardwareReset s) := by
  cases m <;> first | exact .inl ⟨rfl, rfl, rfl, rfl, rfl, rfl⟩ | exact .inr ⟨rfl, rfl⟩

/-- What the host's turn can do to the units. -/
theorem hostTurn_units (s : State) :
    ((hostTurn s).str = s.str ∧ (hostTurn s).fsd = s.fsd ∧ (hostTurn s).lfsr = s.lfsr ∧
      (hostTurn s).tce = s.tce ∧ (hostTurn s).ces = s.ces ∧ (hostTurn s).lutBuilt = s.lutBuilt) ∨
    (∃ rest, s.host = .reset :: rest ∧ hostTurn s = hardwareReset (s.withHost rest)) := by
  unfold hostTurn
  split
  · exact .inl ⟨rfl, rfl, rfl, rfl, rfl, rfl⟩
  · next m rest h =>
    rcases hostMove_units (s.withHost rest) m with h' | ⟨rfl, h'⟩
    · exact .inl h'
    · exact .inr ⟨rest, h, h'⟩

end Sys2Proof.Machine
end

