-- ==== Sys2Proof/Laws/Code.lean ====
section
/-! SUPPORT. What the construction of a code yields: memories inside the state, table entries in range,
termination sequences that reach the end state. -/

namespace Sys2Proof.Machine

/-! ### Bits -/

theorem setBit_lt {w : Nat} (v : BitVec w) (i n : Nat) (b : Bool) (hv : v.toNat < 2 ^ n) (hi : i < n) :
    (setBit v i b).toNat < 2 ^ n := by
  unfold setBit
  split
  · rw [BitVec.toNat_or]
    apply Nat.or_lt_two_pow hv
    rw [BitVec.toNat_shiftLeft]
    refine lt_of_le_of_lt (Nat.mod_le _ _) ?_
    rw [Nat.shiftLeft_eq]
    have h1 : (1#w).toNat ≤ 1 := by simp [BitVec.toNat_ofNat]; exact Nat.mod_le _ _
    calc (1#w).toNat * 2 ^ i ≤ 1 * 2 ^ i := Nat.mul_le_mul_right _ h1
      _ < 2 ^ n := by rw [Nat.one_mul]; exact Nat.pow_lt_pow_right (by omega) hi
  · rw [BitVec.toNat_and]
    exact lt_of_le_of_lt Nat.and_le_left hv

theorem writeDelay_lt (m : CodeMemory) (f : Nat → Bool) (k n : Nat) (st : BitVec 32)
    (hst : st.toNat < 2 ^ n) (h : m.off + k ≤ n) : (writeDelay m f k st).toNat < 2 ^ n := by
  induction k with
  | zero => exact hst
  | succ k ih => exact setBit_lt _ _ _ _ (ih (by omega)) (by omega)

/-! ### Memories (44_trellis_code_engine.md R214 to R216) -/

/-- Owners and members of the sketches are in range. -/
def SketchesIn (owners members : Nat) (ms : List MemorySketch) : Prop :=
  ∀ m ∈ ms, m.owner < owners ∧ ∀ b ∈ m.members, b < members

theorem joinMemory_in (owners members a b : Nat) (phi : BitVec 32) (ms : List MemorySketch)
    (ha : a < owners) (hb : b < members) (h : SketchesIn owners members ms) :
    SketchesIn owners members (joinMemory a b phi ms) := by
  induction ms with
  | nil => intro m hm; simp [joinMemory] at hm; subst hm; simp [ha, hb]
  | cons m ms ih =>
    have hm := h m List.mem_cons_self
    have hms : SketchesIn owners members ms := fun x hx => h x (List.mem_cons_of_mem _ hx)
    unfold joinMemory
    split
    · intro x hx
      rcases List.mem_cons.mp hx with rfl | hx
      · refine ⟨hm.1, fun c hc => ?_⟩
        rcases List.mem_append.mp hc with hc | hc
        · exact hm.2 c hc
        · simp at hc; omega
      · exact hms x hx
    · intro x hx
      rcases List.mem_cons.mp hx with rfl | hx
      · exact hm
      · exact ih hms x hx

theorem sketchMemories_in (owners members : Nat) (gen fb : Nat → Nat → BitVec 32)
    (ps : List (Nat × Nat)) (ms : List MemorySketch)
    (hps : ∀ p ∈ ps, p.1 < owners ∧ p.2 < members) (h : SketchesIn owners members ms) :
    SketchesIn owners members (sketchMemories gen fb ps ms) := by
  induction ps generalizing ms with
  | nil => exact h
  | cons p ps ih =>
    obtain ⟨a, b⟩ := p
    have hp := hps (a, b) List.mem_cons_self
    have hps' : ∀ p ∈ ps, p.1 < owners ∧ p.2 < members := fun p hp => hps p (List.mem_cons_of_mem _ hp)
    unfold sketchMemories
    split
    · exact ih ms hps' h
    · exact ih _ hps' (joinMemory_in owners members a b _ ms hp.1 hp.2 h)

/-- Memories lie one after the other, from `off` to `off` plus their total. -/
theorem placeMemories_in (gen : Nat → Nat → BitVec 32) (off : Nat) (ms : List MemorySketch) :
    ∀ m ∈ placeMemories gen off ms, off ≤ m.off ∧
      m.off + m.len ≤ off + totalBits (placeMemories gen off ms) := by
  induction ms generalizing off with
  | nil => simp [placeMemories]
  | cons s ms ih =>
    intro m hm
    simp only [placeMemories, totalBits] at hm ⊢
    rcases List.mem_cons.mp hm with rfl | hm
    · simp
    · have := ih _ m hm
      omega

theorem placeMemories_sketch (gen : Nat → Nat → BitVec 32) (off : Nat) (ms : List MemorySketch) :
    ∀ m ∈ placeMemories gen off ms, ∃ s ∈ ms, m.owner = s.owner ∧ m.members = s.members := by
  induction ms generalizing off with
  | nil => simp [placeMemories]
  | cons s ms ih =>
    intro m hm
    simp only [placeMemories] at hm
    rcases List.mem_cons.mp hm with rfl | hm
    · exact ⟨s, List.mem_cons_self, rfl, rfl⟩
    · obtain ⟨s', hs', h⟩ := ih _ m hm
      exact ⟨s', List.mem_cons_of_mem _ hs', h⟩

/-- A candidate's memories are within its total, with owners and members in range. -/
theorem layOut_in (owners members : Nat) (gen fb : Nat → Nat → BitVec 32) :
    ∀ m ∈ layOut owners members gen fb,
      m.off + m.len ≤ totalBits (layOut owners members gen fb) ∧ m.owner < owners ∧
        ∀ b ∈ m.members, b < members := by
  intro m hm
  have h1 := placeMemories_in gen 0 _ m hm
  obtain ⟨s, hs, ho, hmem⟩ := placeMemories_sketch gen 0 _ m hm
  have h2 := sketchMemories_in owners members gen fb (positions owners members) []
    (by
      intro p hp
      simp only [positions, List.mem_flatMap, List.mem_map, List.mem_range] at hp
      obtain ⟨a, ha, b, hb, rfl⟩ := hp
      exact ⟨ha, hb⟩)
    (by simp [SketchesIn]) s hs
  refine ⟨by simpa [layOut] using h1.2, ho ▸ h2.1, hmem ▸ h2.2⟩

/-! ### One step stays within T state bits and O output bits -/

theorem siaoOutputs_lt (gen : Nat → Nat → BitVec 32) (st : BitVec 32) (c : BitVec 24) (m : CodeMemory)
    (n : Nat) (os : List Nat) (out : BitVec 24) (hos : ∀ o ∈ os, o < n) (h : out.toNat < 2 ^ n) :
    (siaoOutputs gen st c m os out).toNat < 2 ^ n := by
  induction os generalizing out with
  | nil => exact h
  | cons o os ih =>
    exact ih _ (fun x hx => hos x (List.mem_cons_of_mem _ hx))
      (setBit_lt _ _ _ _ h (hos o List.mem_cons_self))

/-- A step over memories that lie within `t` bits, for outputs below `n`. -/
theorem stepMems_lt (gen : Nat → Nat → BitVec 32) (r : Realization) (st : BitVec 32) (c : BitVec 24)
    (t n : Nat) (ms : List CodeMemory) (e : TrellisEntry)
    (hms : ∀ m ∈ ms, m.off + m.len ≤ t ∧
      (match r with
        | .siao => ∀ o ∈ m.members, o < n
        | .soai => m.owner < n))
    (he : e.next.toNat < 2 ^ t ∧ e.out.toNat < 2 ^ n) :
    (stepMems gen r st c ms e).next.toNat < 2 ^ t ∧ (stepMems gen r st c ms e).out.toNat < 2 ^ n := by
  induction ms generalizing e with
  | nil => exact he
  | cons m ms ih =>
    have hm := hms m List.mem_cons_self
    refine ih _ (fun x hx => hms x (List.mem_cons_of_mem _ hx)) ?_
    cases r with
    | siao => exact ⟨writeDelay_lt _ _ _ _ _ he.1 hm.1, siaoOutputs_lt _ _ _ _ _ _ _ hm.2 he.2⟩
    | soai => exact ⟨writeDelay_lt _ _ _ _ _ he.1 hm.1, setBit_lt _ _ _ _ he.2 hm.2⟩

/-- A symbol-step's next state and output are in range (20_memory.md R61). -/
theorem codeStep_lt (u : TceUnit) (st : BitVec 32) (c : BitVec 24) :
    (codeStep u st c).next.toNat < 2 ^ chosenTotal u ∧
      (codeStep u st c).out.toNat < 2 ^ u.outputs.toNat := by
  refine stepMems_lt _ _ _ _ _ _ _ _ ?_ ⟨by simp, by simp⟩
  intro m hm
  unfold chosenTotal chosenMems at *
  cases h : selectRealization u with
  | siao =>
    rw [h] at hm
    have := layOut_in _ _ _ _ m hm
    exact ⟨this.1, this.2.2⟩
  | soai =>
    rw [h] at hm
    have := layOut_in _ _ _ _ m hm
    exact ⟨this.1, this.2.1⟩

/-! ### TRELLIS (R225) -/

@[simp] theorem buildTable_length (u : TceUnit) :
    (buildTable u).length = 2 ^ chosenTotal u * 2 ^ u.inputs.toNat := by
  simp [buildTable]

/-- Every entry of TRELLIS is in range. -/
theorem buildTable_lt (u : TceUnit) : ∀ e ∈ buildTable u,
    e.next.toNat < 2 ^ chosenTotal u ∧ e.out.toNat < 2 ^ u.outputs.toNat := by
  intro e he
  simp only [buildTable, List.mem_map] at he
  obtain ⟨i, -, rfl⟩ := he
  exact codeStep_lt u _ _

/-- `TRELLIS[s * 2^I + c]` is the step from `s` under `c` (R225). -/
theorem buildTable_getElem? (u : TceUnit) (st c : Nat) (hs : st < 2 ^ chosenTotal u)
    (hc : c < 2 ^ u.inputs.toNat) :
    (buildTable u)[st * 2 ^ u.inputs.toNat + c]? =
      some (codeStep u (BitVec.ofNat 32 st) (BitVec.ofNat 24 c)) := by
  have hlt : st * 2 ^ u.inputs.toNat + c < 2 ^ chosenTotal u * 2 ^ u.inputs.toNat := by
    nlinarith [Nat.mul_le_mul_right (2 ^ u.inputs.toNat) (Nat.succ_le_of_lt hs)]
  simp only [buildTable, List.getElem?_map, List.getElem?_range hlt, Option.map_some]
  rw [Nat.mul_comm st, Nat.mul_add_div (by positivity), Nat.div_eq_of_lt hc, Nat.mul_add_mod,
    Nat.mod_eq_of_lt hc, Nat.add_zero]

/-- The next state of a table whose entries are all in range. -/
theorem tableNext_lt (table : List TrellisEntry) (combos states st c : Nat)
    (hlen : table.length = states * combos) (hent : ∀ e ∈ table, e.next.toNat < states)
    (hs : st < states) (hc : c < combos) : tableNext table combos st c < states := by
  have hlt : st * combos + c < table.length := by
    rw [hlen]; nlinarith [Nat.mul_le_mul_right combos (Nat.succ_le_of_lt hs)]
  unfold tableNext
  rw [List.getElem?_eq_getElem hlt]
  exact hent _ (List.getElem_mem hlt)

/-! ### The analysis writes registers that the construction does not read (R208) -/

@[simp] theorem analyse_inputs (n : Nat) (u : TceUnit) : (analyse n u).inputs = u.inputs := rfl
@[simp] theorem analyse_outputs (n : Nat) (u : TceUnit) : (analyse n u).outputs = u.outputs := rfl
@[simp] theorem analyse_blockLen (n : Nat) (u : TceUnit) : (analyse n u).blockLen = u.blockLen := rfl
@[simp] theorem analyse_doTerm (n : Nat) (u : TceUnit) : (analyse n u).doTerm = u.doTerm := rfl
@[simp] theorem analyse_endState (n : Nat) (u : TceUnit) : (analyse n u).endState = u.endState := rfl
@[simp] theorem genMask_analyse (n : Nat) (u : TceUnit) : genMask (analyse n u) = genMask u := rfl
@[simp] theorem chosenMems_analyse (n : Nat) (u : TceUnit) : chosenMems (analyse n u) = chosenMems u := rfl
@[simp] theorem chosenTotal_analyse (n : Nat) (u : TceUnit) : chosenTotal (analyse n u) = chosenTotal u := rfl
@[simp] theorem chosenMaxDelay_analyse (n : Nat) (u : TceUnit) :
    chosenMaxDelay (analyse n u) = chosenMaxDelay u := rfl
@[simp] theorem codeStep_analyse (n : Nat) (u : TceUnit) : codeStep (analyse n u) = codeStep u := rfl
@[simp] theorem buildTable_analyse (n : Nat) (u : TceUnit) : buildTable (analyse n u) = buildTable u := rfl

/-! ### The terms of the statements and the model's own -/

theorem totalBits_eq (ms : List CodeMemory) : totalBits ms = delayBits ms := by
  induction ms with
  | nil => rfl
  | cons m ms ih => simp [totalBits, delayBits, ih]

theorem selectedMems_eq (u : TceUnit) : selectedMems u = chosenMems u := by
  unfold selectedMems chosenMems selectRealization
  rw [totalBits_eq, totalBits_eq]
  split <;> rfl

theorem chosenTotal_eq (u : TceUnit) : chosenTotal u = delayBits (selectedMems u) := by
  rw [selectedMems_eq, ← totalBits_eq]; rfl

theorem fbMask_eq (u : TceUnit) : fbMask u = normalFeedback u := rfl

/-- `max_delay` is the largest length (R219). -/
theorem maxOf_le (xs : List Nat) (n : Nat) : maxOf xs ≤ n ↔ ∀ x ∈ xs, x ≤ n := by
  induction xs with
  | nil => simp [maxOf]
  | cons x xs ih => simp [maxOf, ih]

theorem maxOf_mem (xs : List Nat) (h : 0 < maxOf xs) : maxOf xs ∈ xs := by
  induction xs with
  | nil => simp [maxOf] at h
  | cons x xs ih =>
    unfold maxOf at h ⊢
    rcases Nat.le_total (maxOf xs) x with hx | hx
    · rw [Nat.max_eq_left hx]; exact List.mem_cons_self
    · rw [Nat.max_eq_right hx] at h ⊢; exact List.mem_cons_of_mem _ (ih h)

/-- An entry is loaded exactly when its key is listed. -/
theorem cfgLoaded_iff (m : Memory) (i o : Nat) : cfgLoaded m i o = true ↔ ∃ e ∈ m, e.1 = cfgKey i o := by
  unfold cfgLoaded
  induction m with
  | nil => simp [memRead]
  | cons e m ih =>
    unfold memRead
    by_cases h : e.1 = cfgKey i o
    · simp [h]
    · simp [h, ih]

/-- The check of one matrix is R210. -/
theorem matrixValid_iff (inputs outputs : Nat) (m : Memory) (hm : CfgInv m) (hi : inputs ≤ 256)
    (ho : outputs ≤ 256) : matrixValid inputs outputs m = true ↔ LoadedExactly inputs outputs m := by
  unfold matrixValid LoadedExactly
  simp only [Bool.and_eq_true, List.all_eq_true, decide_eq_true_eq, List.mem_range, cfgLoaded_iff]
  constructor
  · rintro ⟨hall, hrect⟩ i o hi' ho'
    constructor
    · rintro ⟨e, he, hk⟩
      obtain ⟨h1, h2⟩ := hall e he
      unfold cfgKey at hk
      omega
    · rintro ⟨h1, h2⟩; exact hrect i h1 o h2
  · intro h
    refine ⟨fun e he => ?_, fun i h1 o h2 => (h i o (by omega) (by omega)).mpr ⟨h1, h2⟩⟩
    have := hm.2 e he
    exact (h (e.1 / 256) (e.1 % 256) (by omega) (by omega)).mp
      ⟨e, he, by unfold cfgKey; omega⟩

/-- The checks of R209 and R210 pass exactly on the configurations they describe. -/
theorem shapeValid_iff (ms : Nat) (u : TceUnit) (hg : CfgInv u.gen) (hf : CfgInv u.fb) :
    shapeValid ms u = true ↔ WellShaped ms u := by
  have hi := u.inputs.isLt
  have ho := u.outputs.isLt
  unfold shapeValid WellShaped dimsValid
  rw [Bool.and_eq_true, Bool.and_eq_true, decide_eq_true_eq, Bool.or_eq_true,
    matrixValid_iff _ _ _ hg (by omega) (by omega), matrixValid_iff _ _ _ hf (by omega) (by omega)]
  cases u.hasFb <;> simp [hg, hf, and_assoc]

/-- A configuration that R209 and R210 accept passes the checks. -/
theorem shapeValid_of_wellShaped (ms : Nat) (u : TceUnit) (h : WellShaped ms u) :
    shapeValid ms u = true := by
  have hi := u.inputs.isLt
  have ho := u.outputs.isLt
  obtain ⟨h1, h2, h3, h4, hg, hl, hf⟩ := h
  unfold shapeValid dimsValid
  rw [Bool.and_eq_true, Bool.and_eq_true, decide_eq_true_eq, Bool.or_eq_true,
    matrixValid_iff _ _ _ hg (by omega) (by omega)]
  refine ⟨⟨⟨h1, h2, h3, h4⟩, hl⟩, ?_⟩
  cases hb : u.hasFb with
  | false => exact .inl rfl
  | true => exact .inr ((matrixValid_iff _ _ _ (hf hb).1 (by omega) (by omega)).mpr (hf hb).2)

/-! ### TERM (R227) -/

/-- What a level list means: its head is `Reach[r]` for `r` the number of levels below it. -/
def ReachLevel (table : List TrellisEntry) (combos endState : Nat) (level : List Bool) (r : Nat) : Prop :=
  ∀ st, level.getD st false = true → ∃ cs : List Nat, cs.length = r ∧ (∀ c ∈ cs, c < combos) ∧
    walk table combos st cs = endState

theorem walk_append (table : List TrellisEntry) (combos st : Nat) (xs ys : List Nat) :
    walk table combos st (xs ++ ys) = walk table combos (walk table combos st xs) ys := by
  induction xs generalizing st with
  | nil => rfl
  | cons x xs ih => exact ih _

@[simp] theorem reachLevels_length (table : List TrellisEntry) (combos states endState r : Nat) :
    (reachLevels table combos states endState r).length = r + 1 := by
  induction r with
  | zero => rfl
  | succ r ih => simp [reachLevels, ih]

/-- The last level of a chain holds the end state alone. -/
theorem reachEnd_getD (states endState st : Nat) (h : (reachEnd states endState).getD st false = true) :
    st = endState := by
  unfold reachEnd at h
  by_cases hst : st < states
  · simpa [List.getD, List.getElem?_range hst] using h
  · simp [List.getD, hst] at h

theorem reachStep_getD (table : List TrellisEntry) (combos states : Nat) (prev : List Bool) (st : Nat) :
    (reachStep table combos states prev).getD st false = true ↔
      st < states ∧ ∃ c < combos, prev.getD (tableNext table combos st c) false = true := by
  unfold reachStep
  by_cases hst : st < states
  · simp [List.getD, hst]
  · simp [List.getD, hst]

/-- A path through the levels below a state of `Reach[r]` exists, has `r` combinations, and leads to the end
state (R227). -/
theorem termPath_spec (table : List TrellisEntry) (combos states endState r st : Nat)
    (h : ((reachLevels table combos states endState r).headD []).getD st false = true) :
    ∃ cs, termPath table combos (reachLevels table combos states endState r).tail st = some cs ∧
      cs.length = r ∧ (∀ c ∈ cs, c < combos) ∧ walk table combos st cs = endState := by
  induction r generalizing st with
  | zero =>
    refine ⟨[], rfl, rfl, by simp, ?_⟩
    simpa [walk] using reachEnd_getD states endState st h
  | succ r ih =>
    simp only [reachLevels, List.headD_cons, List.tail_cons] at h ⊢
    obtain ⟨hst, c0, hc0, hlev⟩ := (reachStep_getD _ _ _ _ _).mp h
    have hne : reachLevels table combos states endState r ≠ [] := by
      intro h0; have := reachLevels_length table combos states endState r; simp [h0] at this
    obtain ⟨level, levels, hl⟩ := List.exists_cons_of_ne_nil hne
    rw [hl] at hlev ⊢
    simp only [List.headD_cons] at hlev
    unfold termPath
    cases hf : (List.range combos).find?
        (fun c => level.getD (tableNext table combos st c) false) with
    | none =>
      have := List.find?_eq_none.mp hf c0 (List.mem_range.mpr hc0)
      exact absurd hlev this
    | some c =>
      have hc := List.find?_some hf
      have hmem := List.mem_range.mp (List.mem_of_find?_eq_some hf)
      obtain ⟨cs, h1, h2, h3, h4⟩ := ih (tableNext table combos st c) (by rw [hl]; exact hc)
      rw [hl, List.tail_cons] at h1
      refine ⟨c :: cs, by simp [h1], by simp [h2], ?_, h4⟩
      intro x hx
      rcases List.mem_cons.mp hx with rfl | hx
      · exact hmem
      · exact h3 x hx

@[simp] theorem buildTerm_length (table : List TrellisEntry) (combos states endState total : Nat) :
    (buildTerm table combos states endState total).length = states := by simp [buildTerm]

/-- Every sequence of TERM has exactly T combinations and leads to the end state (R227). -/
theorem buildTerm_spec (table : List TrellisEntry) (combos states endState total st : Nat)
    (seq : List Nat) (h : (buildTerm table combos states endState total)[st]? = some (some seq)) :
    seq.length = total ∧ (∀ c ∈ seq, c < combos) ∧ walk table combos st seq = endState := by
  unfold buildTerm at h
  by_cases hst : st < states
  · simp only [List.getElem?_map, List.getElem?_range hst, Option.map_some, Option.some.injEq] at h
    split at h
    · next hr =>
      obtain ⟨cs, h1, h2⟩ := termPath_spec table combos states endState total st hr
      rw [h1] at h; cases h; exact h2
    · cases h
  · rw [List.getElem?_eq_none (by simpa using hst)] at h; cases h

end Sys2Proof.Machine
end

