-- ==== Sys2Proof/Laws/Config.lean ====
section
/-! SUPPORT. The ranges of the implementation parameters (00_scope.md R10 to R13), said once. -/

namespace Sys2Proof.Config

theorem R_NUM_pos : 0 < R_NUM := Nat.succ_pos _

theorem R_DEN_pos : 0 < R_DEN := Nat.succ_pos _

theorem LOOKAHEAD_MARGIN_default (h : marginConfigured = none) :
    LOOKAHEAD_MARGIN = LOOKAHEAD_MARGIN_DEFAULT := by
  unfold LOOKAHEAD_MARGIN marginPred; rw [h]; rfl

theorem W_LOOK_pos : 0 < W_LOOK := Nat.succ_pos _

theorem W_LOOK_le_margin : W_LOOK ≤ LOOKAHEAD_MARGIN := wLookPred.isLt

theorem SEGS_PER_FIELD_default (h : segsPerFieldConfigured = none) :
    SEGS_PER_FIELD = SEGS_PER_FIELD_DEFAULT := by
  unfold SEGS_PER_FIELD; rw [h]

theorem SEGS_PER_FIELD_range : 0 < SEGS_PER_FIELD ∧ SEGS_PER_FIELD < 2 ^ 16 := by
  unfold SEGS_PER_FIELD
  split
  · decide
  · next pred _ => exact ⟨Nat.succ_pos _, Nat.succ_lt_succ pred.isLt⟩

theorem MAX_STREAMS_range : 0 < MAX_STREAMS ∧ MAX_STREAMS ≤ 24 :=
  ⟨Nat.succ_pos _, Nat.succ_le_of_lt maxStreamsPred.isLt⟩

theorem MAX_TOTAL_DELAY_le : MAX_TOTAL_DELAY ≤ 24 := Nat.le_of_lt_succ maxTotalDelay.isLt

end Sys2Proof.Config
end

