-- ==== Sys2Proof/Laws/Streams.lean ====
section
/-! SUPPORT. What the loops of STR, FSD and LFSR can do, said once. -/

namespace Sys2Proof.Machine

/-! ### STR -/

/-- A turn leaves a legal index, and its item carries the registers' tag (41_symbol_timing_recovery.md
R125). -/
theorem strTurn_spec {w : Nat} (interp : List Sample → Sample → InterpState → InterpResult w)
    (track : Sample → LoopState → TrackResult) (window : List Sample) (u : StrUnit) :
    StrInv (strTurn interp track window u).regs ∧
      (strTurn interp track window u).item.tag = strTag (strTurn interp track window u).regs ∧
      (strTurn interp track window u).advance ≤ w := by
  refine ⟨?_, rfl, ?_⟩
  · simp only [StrInv, strTurn, BitVec.toNat_ofNat]
    have := (track (interp window u.timingAdjustment u.istate).sample u.lstate).index.isLt
    omega
  · simp only [strTurn]
    have := (interp window u.timingAdjustment u.istate).advance.isLt
    omega

/-- What the loop of `STR.WORK` can do (46_host_commands.md R274). -/
theorem strLoop_spec {w : Nat} (interp : List Sample → Sample → InterpState → InterpResult w)
    (track : Sample → LoopState → TrackResult) (cap : Nat) (items : List Sample) (u : StrUnit) :
    (strLoop interp track cap items u).out.length ≤ cap ∧
    (strLoop interp track cap items u).consumed ≤ items.length ∧
    (StrInv u → StrInv (strLoop interp track cap items u).regs) ∧
    (∀ x ∈ (strLoop interp track cap items u).out,
      x.tag.fieldMark = 0 ∧ x.tag.symbolIndex.toNat < 832) := by
  induction cap generalizing items u with
  | zero => simp [strLoop]
  | succ cap ih =>
    unfold strLoop
    split
    · simp
    · next hlen =>
      obtain ⟨hinv, htag, hadv⟩ := strTurn_spec interp track (items.take w) u
      obtain ⟨h1, h2, h3, h4⟩ := ih (items.drop (strTurn interp track (items.take w) u).advance)
        (strTurn interp track (items.take w) u).regs
      simp only [List.length_drop] at h2
      refine ⟨by simpa using h1, by simp only; omega, fun _ => h3 hinv, ?_⟩
      intro x hx
      rcases List.mem_cons.mp hx with rfl | hx
      · rw [htag]; exact ⟨rfl, hinv⟩
      · exact h4 x hx

/-! ### FSD -/

theorem fsdSetCounters_sticky (u : FsdUnit) (c : MarkerClass) :
    (fsdSetCounters u c).evSyncLoss = u.evSyncLoss ∧ (fsdSetCounters u c).evOverflow = u.evOverflow ∧
      (fsdSetCounters u c).lossPos = u.lossPos ∧ (fsdSetCounters u c).state = u.state := by
  cases c <;> exact ⟨rfl, rfl, rfl, rfl⟩

theorem fsdSetCounters_number (segs : Nat) (u : FsdUnit) (c : MarkerClass)
    (h : u.segmentNumber.toNat ≤ segs) : (fsdSetCounters u c).segmentNumber.toNat ≤ segs := by
  cases c <;> simp_all [fsdSetCounters]

/-- What scan and lock can do (42_field_sync_demux.md R144, R145). -/
theorem fsdLock_spec (segs : Nat) (u : FsdUnit) (items : List MarkedSample) :
    (fsdLock u items).2.length ≤ items.length ∧
    (fsdLock u items).1.evSyncLoss = u.evSyncLoss ∧ (fsdLock u items).1.evOverflow = u.evOverflow ∧
    (u.segmentNumber.toNat ≤ segs → (fsdLock u items).1.segmentNumber.toNat ≤ segs) := by
  unfold fsdLock
  split
  · exact ⟨Nat.le_refl _, rfl, rfl, id⟩
  · have hle : (fsdScan items).length ≤ items.length :=
      (List.dropWhile_sublist _).length_le
    split
    · exact ⟨by simp, rfl, rfl, id⟩
    · next x xs h =>
      obtain ⟨h1, h2, -, -⟩ := fsdSetCounters_sticky u x.marker
      refine ⟨by rw [h] at hle; exact hle, h1, h2, fun hn => fsdSetCounters_number segs u _ hn⟩

/-- The number a segment carries is below `SEGS_PER_FIELD`, and the counter after it is at most that
(42_field_sync_demux.md R149). -/
theorem fsdEmit_spec (segs : Nat) (u : FsdUnit) (h0 : 0 < segs) (h1 : segs < 65536) :
    (fsdEmitNumber segs u).toNat < segs ∧
      (fsdAfterEmit segs u).segmentNumber.toNat = (fsdEmitNumber segs u).toNat + 1 := by
  have hlt : (fsdEmitNumber segs u).toNat < segs := by
    unfold fsdEmitNumber fsdOverflows
    split
    · rw [BitVec.toNat_ofNat, Nat.mod_eq_of_lt (by omega)]; omega
    · next h => simpa using h
  refine ⟨hlt, ?_⟩
  have h1' : (1 : BitVec 16).toNat = 1 := rfl
  simp only [fsdAfterEmit, BitVec.toNat_add, h1']
  omega

/-- What the loop of `FSD.WORK` can do (46_host_commands.md R274, 10_state.md R30, R32,
20_memory.md R67, R74). -/
theorem fsdLoop_spec (segs : Nat) (h0 : 0 < segs) (h1 : segs < 65536) (fuel cap : Nat) (u : FsdUnit)
    (items : List MarkedSample) :
    (fsdLoop segs fuel cap u items).out.length ≤ cap ∧
    (fsdLoop segs fuel cap u items).rest.length ≤ items.length ∧
    (u.segmentNumber.toNat ≤ segs → (fsdLoop segs fuel cap u items).regs.segmentNumber.toNat ≤ segs) ∧
    (u.evSyncLoss = true → (fsdLoop segs fuel cap u items).regs.evSyncLoss = true) ∧
    (u.evOverflow = true → (fsdLoop segs fuel cap u items).regs.evOverflow = true) ∧
    (∀ d ∈ (fsdLoop segs fuel cap u items).out,
      d.segmentNumber.toNat < segs ∧ (d.fieldFlag = 1 ∨ d.fieldFlag = 2) ∧ d.payload.length = 832) := by
  induction fuel generalizing cap u items with
  | zero => simp [fsdLoop]
  | succ fuel ih =>
    cases cap with
    | zero => simp [fsdLoop]
    | succ cap =>
      obtain ⟨hl, hs1, hs2, hn⟩ := fsdLock_spec segs u items
      unfold fsdLoop
      simp only
      split
      · simp_all
      · next x xs hx =>
        rw [hx] at hl
        split
        · exact ⟨by simp, hl, hn, by simp [hs1], by simp [hs2], by simp⟩
        · next hlong =>
          simp only [List.length_cons] at hl
          have hdrop : ((x :: xs).drop Config.SEG_LEN).length ≤ items.length := by
            simp only [List.length_drop, List.length_cons]; omega
          split
          · exact ⟨by simp, by simpa using hl, fun h => hn h, by simp [fsdAfterLoss],
              by simp [fsdAfterLoss, hs2], by simp⟩
          · obtain ⟨a1, a2, a3, a4, a5, a6⟩ :=
              ih (cap + 1) (fsdSetCounters (fsdLock u items).1 .fs1) ((x :: xs).drop Config.SEG_LEN)
            exact ⟨a1, a2.trans hdrop, fun _ => a3 (by simp [fsdSetCounters]),
              fun h => a4 (by simp [fsdSetCounters, hs1, h]), fun h => a5 (by simp [fsdSetCounters, hs2, h]), a6⟩
          · obtain ⟨a1, a2, a3, a4, a5, a6⟩ :=
              ih (cap + 1) (fsdSetCounters (fsdLock u items).1 .fs2) ((x :: xs).drop Config.SEG_LEN)
            exact ⟨a1, a2.trans hdrop, fun _ => a3 (by simp [fsdSetCounters]),
              fun h => a4 (by simp [fsdSetCounters, hs1, h]), fun h => a5 (by simp [fsdSetCounters, hs2, h]), a6⟩
          · obtain ⟨e1, e2⟩ := fsdEmit_spec segs (fsdLock u items).1 h0 h1
            obtain ⟨a1, a2, a3, a4, a5, a6⟩ :=
              ih cap (fsdAfterEmit segs (fsdLock u items).1) ((x :: xs).drop Config.SEG_LEN)
            refine ⟨by simpa using a1, a2.trans hdrop, fun _ => a3 (by omega),
              fun h => a4 (by simp [fsdAfterEmit, hs1, h]), fun h => a5 (by simp [fsdAfterEmit, hs2, h]), ?_⟩
            intro d hd
            rcases List.mem_cons.mp hd with rfl | hd
            · refine ⟨e1, ?_, ?_⟩
              · simp only [fsdSegment, fieldFlag]; split <;> simp
              · simp only [fsdSegment, List.length_map, List.length_take, List.length_cons, Config.SEG_LEN]
                simp only [Config.SEG_LEN] at hlong
                omega
            · exact a6 d hd

/-- Fuel above `items.length / SEG_LEN` never runs out: the result is the same for every such fuel. -/
theorem fsdLoop_fuel (segs : Nat) (f g cap : Nat) (u : FsdUnit) (items : List MarkedSample)
    (hf : items.length < f * 832) (hg : items.length < g * 832) :
    fsdLoop segs f cap u items = fsdLoop segs g cap u items := by
  induction f generalizing g cap u items with
  | zero => omega
  | succ f ih =>
    cases g with
    | zero => omega
    | succ g =>
      cases cap with
      | zero => rfl
      | succ cap =>
        have hl := (fsdLock_spec segs u items).1
        unfold fsdLoop
        simp only
        split
        · rfl
        · next x xs hx =>
          rw [hx] at hl
          simp only [List.length_cons] at hl
          split
          · rfl
          · next hlong =>
            have hS : Config.SEG_LEN = 832 := rfl
            have hlen : ((x :: xs).drop Config.SEG_LEN).length = xs.length + 1 - Config.SEG_LEN := by
              simp only [List.length_drop, List.length_cons]
            rw [hS] at hlong hlen
            have hf' : ((x :: xs).drop Config.SEG_LEN).length < f * 832 := by rw [hS, hlen]; omega
            have hg' : ((x :: xs).drop Config.SEG_LEN).length < g * 832 := by rw [hS, hlen]; omega
            split
            · rfl
            · exact ih g _ _ _ hf' hg'
            · exact ih g _ _ _ hf' hg'
            · rw [ih g cap _ _ hf' hg']

/-- A classified window has the length of the window. -/
theorem classifyWindow_length (w : List TaggedSymbol) (ms : List MarkedSample)
    (h : classifyWindow w = some ms) : ms.length = w.length := by
  induction w generalizing ms with
  | nil => simp_all [classifyWindow]
  | cons x xs ih =>
    unfold classifyWindow at h
    split at h
    · next c ms' _ h2 =>
      cases h; simp [ih ms' h2]
    · cases h

/-- A window has its classes exactly when every tag has one (42_field_sync_demux.md R142). -/
theorem classifyWindow_isSome (w : List TaggedSymbol) :
    (classifyWindow w).isSome ↔ ∀ x ∈ w, (markerClass x.tag).isSome := by
  induction w with
  | nil => simp [classifyWindow]
  | cons x xs ih =>
    simp only [List.mem_cons, forall_eq_or_imp, ← ih]
    rw [classifyWindow]
    cases markerClass x.tag <;> cases classifyWindow xs <;> simp

/-! ### LFSR -/

@[simp] theorem xorBytes_length (tap : BitVec 16) (lut : BitVec 14 → Bool) (v : BitVec 16)
    (bs : List Byte) : (xorBytes tap lut v bs).2.length = bs.length := by
  induction bs generalizing v with
  | nil => rfl
  | cons b bs ih => simp [xorBytes, ih]

/-- The register a byte loop leaves does not depend on the byte (43_lfsr_whitener.md R180). -/
theorem xorBits_register (tap : BitVec 16) (lut : BitVec 14 → Bool) (b : Byte) (ps : List Nat)
    (v : BitVec 16) (w : Byte) : (xorBits tap lut b ps v w).1 = clkTimes tap ps.length v := by
  induction ps generalizing v w with
  | nil => rfl
  | cons p ps ih => simp [xorBits, clkTimes, ih]

theorem clkTimes_add (tap : BitVec 16) (m n : Nat) (v : BitVec 16) :
    clkTimes tap (m + n) v = clkTimes tap n (clkTimes tap m v) := by
  induction m generalizing v with
  | zero => simp [clkTimes]
  | succ m ih => rw [Nat.succ_add]; simp only [clkTimes, ih]

/-- The register after a payload (43_lfsr_whitener.md R180). -/
theorem xorBytes_register (tap : BitVec 16) (lut : BitVec 14 → Bool) (v : BitVec 16) (bs : List Byte) :
    (xorBytes tap lut v bs).1 = clkTimes tap (8 * bs.length) v := by
  induction bs generalizing v with
  | nil => rfl
  | cons b bs ih =>
    simp only [xorBytes, ih, xorByte, xorBits_register, payloadBitOrder, List.length_cons,
      List.length_nil]
    rw [← clkTimes_add]
    congr 1; omega

end Sys2Proof.Machine
end

