-- ==== Sys2Proof/Laws/Encoder.lean ====
section
/-! SUPPORT. What the loop of `CES.WORK` can do on a built code, said once. -/

namespace Sys2Proof.Machine

theorem combination_lt (n : Nat) (item : BitVec 24) : combination n item < 2 ^ n :=
  Nat.mod_lt _ (by positivity)

/-- A read of TRELLIS and the walk through it agree. -/
theorem trellisRead_next (t : TceUnit) (st c : Nat) (e : TrellisEntry) (h : trellisRead t st c = .ok e) :
    tableNext t.table (2 ^ t.inputs.toNat) st c = e.next.toNat := by
  rw [trellisRead_ok] at h
  simp [tableNext, h]

/-- The registers of CES on a built code: the second half of the invariant. -/
def CesRunning (t : TceUnit) (u : CesUnit) : Prop :=
  u.tstate.toNat < 2 ^ t.totalDelay.toNat ∧
  (u.phase = .encodingPayload → t.blockLen ≠ 0 → u.payloadCount.toNat < t.blockLen.toNat) ∧
  (u.phase ≠ .terminating → u.faultTerm = false) ∧
  (u.phase = .terminating →
    t.doTerm = true ∧ t.blockLen ≠ 0 ∧
    (u.faultTerm = true → u.tstate = u.termBase ∧ t.term[u.termBase.toNat]? = some none) ∧
    (u.faultTerm = false → ∃ seq, t.term[u.termBase.toNat]? = some (some seq) ∧
      u.termCount.toNat < t.totalDelay.toNat ∧
      walk t.table (2 ^ t.inputs.toNat) u.tstate.toNat (seq.drop u.termCount.toNat) =
        t.endState.toNat))

/-- Starting a block keeps the registers right (45_conv_encoder_stage.md R253). -/
theorem cesStartBlock_running (t : TceUnit) (u : CesUnit) (h : u.faultTerm = false) :
    CesRunning t (cesStartBlock u) ∧ (cesStartBlock u).phase = .encodingPayload ∧
      (cesStartBlock u).faultTerm = false := by
  refine ⟨⟨by simp [cesStartBlock, Config.START_STATE], ?_, by simp [cesStartBlock, h],
    by simp [cesStartBlock]⟩, rfl, h⟩
  intro _ hb
  simp only [cesStartBlock]
  rcases Nat.eq_zero_or_pos t.blockLen.toNat with h0 | h0
  · exact absurd (BitVec.eq_of_toNat_eq (by simpa using h0)) hb
  · simpa using h0

/-- The end-of-payload test answers and leaves the registers right: in the block, at INIT, terminating with a
sequence, or with the fault latched (R255, R257, R258). -/
theorem cesEndOfPayload_spec (t : TceUnit) (ht : BuiltInv t) (u : CesUnit)
    (hst : u.tstate.toNat < 2 ^ t.totalDelay.toNat) (hp : u.phase = .encodingPayload)
    (hf : u.faultTerm = false) (hcount : t.blockLen ≠ 0 → u.payloadCount.toNat ≤ t.blockLen.toNat) :
    ∃ v, cesEndOfPayload t u = .ok v ∧ CesRunning t v := by
  obtain ⟨_, _, _, _, _, _, _, hterm⟩ := ht
  unfold cesEndOfPayload
  split
  · next hend =>
    split
    · next hdo =>
      obtain ⟨_, htl, hseq⟩ := hterm hdo.1
      have hlt : u.tstate.toNat < t.term.length := by rw [htl]; exact hst
      have hget := List.getElem?_eq_getElem hlt
      have hts : termSequence t u.tstate.toNat = .ok t.term[u.tstate.toNat] :=
        (termSequence_ok _ _ _).mpr hget
      simp only [cesEnterTerminating, hts]
      cases hq : t.term[u.tstate.toNat] with
      | none =>
        rw [hq] at hget
        exact ⟨_, rfl, hst, by simp, by simp, fun _ => ⟨hdo.1, hend.1, fun _ => ⟨rfl, hget⟩, by simp⟩⟩
      | some seq =>
        rw [hq] at hget
        obtain ⟨_, _, hwalk⟩ := hseq _ _ hget
        exact ⟨_, rfl, hst, by simp, by simp, fun _ => ⟨hdo.1, hend.1, by simp [hf], fun _ =>
          ⟨seq, hget, by simpa using hdo.2, by simpa using hwalk⟩⟩⟩
    · exact ⟨_, rfl, hst, by simp, by simp [hf], by simp⟩
  · next hend =>
    refine ⟨_, rfl, hst, ?_, by simp [hf], by simp [hp]⟩
    intro _ hb
    have hle := hcount hb
    have hne : u.payloadCount.toNat ≠ t.blockLen.toNat :=
      fun h => hend ⟨hb, BitVec.eq_of_toNat_eq h⟩
    omega

theorem cesCountUp_le (n : BitVec 32) : (cesCountUp n).toNat ≤ n.toNat + 1 := by
  unfold cesCountUp
  split
  · omega
  · rw [BitVec.toNat_add]; exact Nat.mod_le _ _

/-- One payload step answers and keeps the registers right (R254). -/
theorem cesPayloadStep_spec (t : TceUnit) (ht : BuiltInv t) (u : CesUnit) (hu : CesRunning t u)
    (hp : u.phase = .encodingPayload) (item : BitVec 24) :
    ∃ r, cesPayloadStep t u item = .ok r ∧ CesRunning t r.1 := by
  obtain ⟨hst, hcount, hfault, _⟩ := hu
  have hf : u.faultTerm = false := hfault (by rw [hp]; decide)
  obtain ⟨e, he, hread⟩ := trellisRead_in_range t u.tstate.toNat _ _ ht.2.2.2.2.2.1 hst
    (combination_lt t.inputs.toNat item)
  obtain ⟨v, hv, hrun⟩ := cesEndOfPayload_spec t ht
    { u with tstate := e.next, payloadCount := cesCountUp u.payloadCount }
    (ht.2.2.2.2.2.2.1 e he).1 hp hf (fun hb => by
      have h1 := hcount hp hb
      have h2 := cesCountUp_le u.payloadCount
      show (cesCountUp u.payloadCount).toNat ≤ _
      omega)
  simp only [cesPayloadStep, hread, hv]
  exact ⟨_, rfl, hrun⟩

/-- One termination step answers and keeps the registers right; the last one leaves the end state (R257). -/
theorem cesTermStep_spec (t : TceUnit) (ht : BuiltInv t) (u : CesUnit) (hu : CesRunning t u)
    (hp : u.phase = .terminating) (hf : u.faultTerm = false) :
    ∃ r, cesTermStep t u = .ok r ∧ CesRunning t r.1 ∧ r.1.faultTerm = false ∧
      (r.1.phase = .init → r.1.tstate = t.endState) := by
  obtain ⟨_, _, _, _, _, hlen, hent, hterm⟩ := ht
  obtain ⟨hst, _, _, hterminating⟩ := hu
  obtain ⟨hdo, hb, _, hrun⟩ := hterminating hp
  obtain ⟨seq, hget, hcnt, hwalk⟩ := hrun hf
  obtain ⟨hes, htl, hseq⟩ := hterm hdo
  obtain ⟨hsl, hsc, _⟩ := hseq _ _ hget
  have hk : u.termCount.toNat < seq.length := by rw [hsl]; exact hcnt
  have hread : termRead t u.termBase.toNat u.termCount.toNat = .ok seq[u.termCount.toNat] := by
    rw [termRead_ok]; exact ⟨seq, hget, List.getElem?_eq_getElem hk⟩
  obtain ⟨e, he, hread2⟩ := trellisRead_in_range t u.tstate.toNat seq[u.termCount.toNat] _ hlen hst
    (hsc _ (List.getElem_mem hk))
  have hnext := (hent e he).1
  rw [List.drop_eq_getElem_cons hk] at hwalk
  simp only [walk, trellisRead_next t _ _ e hread2] at hwalk
  have hT : t.totalDelay.toNat < 256 := t.totalDelay.isLt
  have hcnt1 : (u.termCount + 1).toNat = u.termCount.toNat + 1 := by
    have h1 : (1 : BitVec 8).toNat = 1 := rfl
    rw [BitVec.toNat_add, h1]; omega
  simp only [cesTermStep, hread, hread2]
  refine ⟨_, rfl, ?_⟩
  split
  · next heq =>
    refine ⟨⟨hnext, by simp, by simp [hf], by simp⟩, hf, fun _ => ?_⟩
    have hall : seq.length ≤ u.termCount.toNat + 1 := by
      have := congrArg BitVec.toNat heq
      rw [hcnt1] at this; omega
    rw [List.drop_eq_nil_of_le hall] at hwalk
    exact BitVec.eq_of_toNat_eq hwalk
  · next hne =>
    have hne' : u.termCount.toNat + 1 ≠ t.totalDelay.toNat := fun h =>
      hne (BitVec.eq_of_toNat_eq (by rw [hcnt1]; exact h))
    refine ⟨⟨hnext, by simp [hp], by simp [hp], fun _ => ⟨hdo, hb, by simp [hf], fun _ => ?_⟩⟩, hf,
      by simp [hp]⟩
    refine ⟨seq, hget, ?_, ?_⟩
    · show (u.termCount + 1).toNat < _; omega
    · show walk _ _ _ (seq.drop (u.termCount + 1).toNat) = _
      rw [hcnt1]; exact hwalk

/-- What the loop of `CES.WORK` can do on a built code (46_host_commands.md R274). -/
theorem cesLoop_spec (t : TceUnit) (ht : BuiltInv t) (cap : Nat) (items : List (BitVec 24)) (u : CesUnit)
    (hu : CesRunning t u) (hf : u.faultTerm = false) :
    ∃ r, cesLoop t cap items u = .ok r ∧ CesRunning t r.regs ∧ r.out.length ≤ cap ∧
      r.rest.length ≤ items.length ∧ items.length - r.rest.length ≤ r.out.length := by
  induction cap generalizing items u with
  | zero => exact ⟨_, rfl, hu, Nat.le_refl _, Nat.le_refl _, by simp⟩
  | succ cap ih =>
    have payload : ∀ v : CesUnit, CesRunning t v → v.phase = .encodingPayload → ∀ item items',
        ∃ r : CesRun, (match cesPayloadStep t v item with
          | .error f => (Except.error f : Except Fault CesRun)
          | .ok r => if r.1.faultTerm then .ok ⟨r.1, items', [r.2]⟩
              else cesPrepend r.2 (cesLoop t cap items' r.1)) = .ok r ∧ CesRunning t r.regs ∧
          r.out.length ≤ cap + 1 ∧ r.rest.length ≤ items'.length + 1 ∧
          items'.length + 1 - r.rest.length ≤ r.out.length := by
      intro v hv hvp item items'
      obtain ⟨r, hr, hrun⟩ := cesPayloadStep_spec t ht v hv hvp item
      rw [hr]
      simp only
      split
      · exact ⟨_, rfl, hrun, by simp, by simp, by simp⟩
      · next hff =>
        obtain ⟨r', h1, h2, h3, h4, h5⟩ := ih items' r.1 hrun (by simpa using hff)
        rw [h1]
        exact ⟨_, rfl, h2, by simpa using h3, by simp only; omega, by simp only [List.length_cons]; omega⟩
    unfold cesLoop
    split
    · next hp =>
      obtain ⟨r, hr, hrun, hfr, _⟩ := cesTermStep_spec t ht u hu hp hf
      obtain ⟨r', h1, h2, h3, h4, h5⟩ := ih items r.1 hrun hfr
      rw [hr]; simp only; rw [h1]
      exact ⟨_, rfl, h2, by simpa using h3, h4, by simp only [List.length_cons]; omega⟩
    · next hp =>
      cases items with
      | nil => exact ⟨_, rfl, hu, by simp, by simp, by simp⟩
      | cons item items' =>
        simp only [List.length_cons]
        by_cases hi : u.phase = .init
        · rw [if_pos hi]
          obtain ⟨h1, h2, _⟩ := cesStartBlock_running t u hf
          exact payload _ h1 h2 item items'
        · rw [if_neg hi]
          refine payload _ hu ?_ item items'
          cases h : u.phase <;> simp_all

end Sys2Proof.Machine
end

