-- ==== Sys2Proof/Laws/PerInstr.lean ====
section
/-! SUPPORT. One family of statements made per command: the words `encode` gives have the row's fixed bits and
the row's length, as spec/opcode_table.json states them (30_encoding.md R91, R93, R97). -/

namespace Sys2Proof

/-- A row of the opcode table: the fixed bits under their mask, and whether an extension word follows. -/
structure EncodingRow where
  fixed  : Word
  mask   : Word
  hasExt : Bool
deriving DecidableEq, Repr

/-- The row of a command, written out from the opcode table. -/
def encodingRow : Instr → EncodingRow
  | .sysRdreg _ => ⟨0x01000000, 0xFFFFFF00, false⟩
  | .strForecast _ => ⟨0x10000000, 0xFF000000, false⟩
  | .strWork _ _ => ⟨0x11000000, 0xFF000000, true⟩
  | .fsdForecast _ => ⟨0x20000000, 0xFF000000, false⟩
  | .fsdWork _ _ => ⟨0x21000000, 0xFF000000, true⟩
  | .lfsrReset => ⟨0x30000000, 0xFFFFFFFF, false⟩
  | .lfsrOut => ⟨0x31000000, 0xFFFFFFFF, false⟩
  | .lfsrClk => ⟨0x32000000, 0xFFFFFFFF, false⟩
  | .lfsrWhiten _ => ⟨0x33000000, 0xFF000000, false⟩
  | .lfsrDewhiten _ => ⟨0x34000000, 0xFF000000, false⟩
  | .tceCfgDim _ _ => ⟨0x40000000, 0xFFFF0000, false⟩
  | .tceCfgGen _ _ _ => ⟨0x41000000, 0xFFFF0000, true⟩
  | .tceCfgFb _ _ _ => ⟨0x42000000, 0xFFFF0000, true⟩
  | .tceCfgBlock _ _ => ⟨0x43000000, 0xFFFFFFFE, true⟩
  | .tceCfgEnd _ => ⟨0x44000000, 0xFFFFFFFF, true⟩
  | .tceBuild => ⟨0x45000000, 0xFFFFFFFF, false⟩
  | .tceLookup _ _ => ⟨0x46000000, 0xFF000000, true⟩
  | .cesForecast _ => ⟨0x50000000, 0xFF000000, false⟩
  | .cesWork _ _ => ⟨0x51000000, 0xFF000000, true⟩

namespace Laws.EncodeShape

/-- `CW` has the row's fixed bits, and `EW` follows exactly where the row has one. -/
def Statement (i : Instr) : Prop :=
  ∃ cw ext, encode i = cw :: ext ∧ cw &&& (encodingRow i).mask = (encodingRow i).fixed ∧
    ext.length = if (encodingRow i).hasExt then 1 else 0

/-- A format whose whole `ARG` is assigned: only UNIT and OP are fixed. -/
theorem fixed_unit_op (unit op : BitVec 4) (arg : BitVec 24) :
    packCw unit op arg &&& 0xFF000000 = packCw unit op 0 := by
  apply BitVec.eq_of_getLsbD_eq
  intro i hi
  simp only [packCw, BitVec.getLsbD_and, BitVec.getLsbD_append]
  interval_cases i <;> simp

theorem sysRdreg (reg : BitVec 8) : Statement (.sysRdreg reg) := by
  refine ⟨_, _, rfl, ?_, rfl⟩
  apply BitVec.eq_of_getLsbD_eq
  intro i hi
  simp only [packCw, encodingRow, BitVec.getLsbD_and, BitVec.getLsbD_append, BitVec.getLsbD_setWidth]
  interval_cases i <;> simp

theorem strForecast (n : Nat) : Statement (.strForecast n) := ⟨_, _, rfl, fixed_unit_op 1 0 _, rfl⟩
theorem strWork (cap avail : Nat) : Statement (.strWork cap avail) := ⟨_, _, rfl, fixed_unit_op 1 1 _, rfl⟩
theorem fsdForecast (n : Nat) : Statement (.fsdForecast n) := ⟨_, _, rfl, fixed_unit_op 2 0 _, rfl⟩
theorem fsdWork (cap avail : Nat) : Statement (.fsdWork cap avail) := ⟨_, _, rfl, fixed_unit_op 2 1 _, rfl⟩
theorem lfsrReset : Statement .lfsrReset := ⟨_, _, rfl, rfl, rfl⟩
theorem lfsrOut : Statement .lfsrOut := ⟨_, _, rfl, rfl, rfl⟩
theorem lfsrClk : Statement .lfsrClk := ⟨_, _, rfl, rfl, rfl⟩
theorem lfsrWhiten (n : Nat) : Statement (.lfsrWhiten n) := ⟨_, _, rfl, fixed_unit_op 3 3 _, rfl⟩
theorem lfsrDewhiten (m : Nat) : Statement (.lfsrDewhiten m) := ⟨_, _, rfl, fixed_unit_op 3 4 _, rfl⟩

/-- A format with two 8-bit sub-fields: `ARG[23:16]` is zero as well. -/
theorem fixed_two_fields (unit op : BitVec 4) (low high : BitVec 8) :
    packCw unit op (packArg low high) &&& 0xFFFF0000 = packCw unit op 0 := by
  apply BitVec.eq_of_getLsbD_eq
  intro i hi
  simp only [packCw, packArg, BitVec.getLsbD_and, BitVec.getLsbD_append]
  interval_cases i <;> simp

theorem tceCfgDim (inputs outputs : BitVec 8) : Statement (.tceCfgDim inputs outputs) :=
  ⟨_, _, rfl, fixed_two_fields 4 0 _ _, rfl⟩
theorem tceCfgGen (i o : Nat) (mask : BitVec 32) : Statement (.tceCfgGen i o mask) :=
  ⟨_, _, rfl, fixed_two_fields 4 1 _ _, rfl⟩
theorem tceCfgFb (i o : Nat) (mask : BitVec 32) : Statement (.tceCfgFb i o mask) :=
  ⟨_, _, rfl, fixed_two_fields 4 2 _ _, rfl⟩
theorem tceCfgBlock (term : Bool) (blockLen : BitVec 32) : Statement (.tceCfgBlock term blockLen) := by
  cases term <;> exact ⟨_, _, rfl, by simp only [encodingRow]; decide, rfl⟩
theorem tceCfgEnd (endState : BitVec 32) : Statement (.tceCfgEnd endState) :=
  ⟨_, _, rfl, by simp only [encodingRow]; decide, rfl⟩
theorem tceBuild : Statement .tceBuild := ⟨_, _, rfl, rfl, rfl⟩
theorem tceLookup (inputVector : BitVec 24) (state : BitVec 32) : Statement (.tceLookup inputVector state) :=
  ⟨_, _, rfl, fixed_unit_op 4 6 _, rfl⟩
theorem cesForecast (n : Nat) : Statement (.cesForecast n) := ⟨_, _, rfl, fixed_unit_op 5 0 _, rfl⟩
theorem cesWork (cap avail : Nat) : Statement (.cesWork cap avail) := ⟨_, _, rfl, fixed_unit_op 5 1 _, rfl⟩

end Laws.EncodeShape
end Sys2Proof
end

