-- ==== Sys2Proof/Laws/Responses.lean ====
section
/-! SUPPORT. The response word as a number (30_encoding.md R94), and what the response operations answer in the
terms of Safety.lean. -/

namespace Sys2Proof.Machine

/-- The response word is STATUS, EVT and VAL, each at its place (30_encoding.md R94). -/
theorem packRw_toNat (st : Status) (e : Events) (val : BitVec 24) :
    (packRw st e val).toNat =
      (statusCode st).toNat * 2 ^ 28 + (eventBits e).toNat * 2 ^ 24 + val.toNat := by
  unfold packRw
  rw [BitVec.toNat_append, BitVec.toNat_append, ← Nat.shiftLeft_add_eq_or_of_lt val.isLt,
    Nat.shiftLeft_eq, ← Nat.shiftLeft_add_eq_or_of_lt (eventBits e).isLt, Nat.shiftLeft_eq]
  ring

/-- EVT as the sum of its bits (60_exceptions.md R296). -/
theorem eventBits_toNat (e : Events) :
    (eventBits e).toNat =
      flagAt e.starved 0 + flagAt e.syncLoss 1 + flagAt e.segOverflow 2 + flagAt e.warn 3 := by
  obtain ⟨a, b, c, d⟩ := e
  revert a b c d; decide

/-- A packed response is the answer with its codes. -/
theorem packRw_answer (st : Status) (e : Events) (val : BitVec 24) (rx : Option Word) :
    some ⟨packRw st e val, rx⟩ = answer (statusCode st).toNat (eventBits e).toNat val.toNat rx := by
  unfold answer
  congr 2
  apply BitVec.eq_of_toNat_eq
  rw [packRw_toNat, BitVec.toNat_ofNat]
  have := (statusCode st).isLt; have := (eventBits e).isLt; have := val.isLt
  omega

theorem valOf_toNat (n : Nat) (h : n < 2 ^ 24) : (valOf n).toNat = n := by
  simp only [valOf, BitVec.toNat_ofNat]; omega

/-- What `raise` answers (60_exceptions.md R291). -/
theorem raise_eq (s : State) (e : Status) (hasRx : Bool) :
    s.raise e hasRx =
      { s with response := answer (statusCode e).toNat 0 0 (if hasRx then some 0 else none) } := by
  cases e <;> rfl

/-- What `respond` answers (30_encoding.md R94). -/
theorem respond_eq (s : State) (e : Events) (val : BitVec 24) (rx : Option Word) :
    s.respond e val rx =
      { s with
        response := answer 0
          (flagAt e.starved 0 + flagAt e.syncLoss 1 + flagAt e.segOverflow 2 + flagAt e.warn 3)
          val.toNat rx } := by
  unfold State.respond State.withResponse
  rw [packRw_answer, eventBits_toNat]; rfl

/-- The status code of a packed response. -/
theorem statusOf_packRw (s : State) (st : Status) (e : Events) (val : BitVec 24) (rx : Option Word)
    (h : s.response = some ⟨packRw st e val, rx⟩) : statusOf s = some (statusCode st).toNat := by
  unfold statusOf
  rw [h]
  simp only [Option.map_some, packRw_toNat, Option.some.injEq]
  have := (eventBits e).isLt; have := val.isLt
  omega

/-- The VAL field of a packed response. -/
theorem valField_packRw (s : State) (st : Status) (e : Events) (val : BitVec 24) (rx : Option Word)
    (h : s.response = some ⟨packRw st e val, rx⟩) : valField s = val.toNat := by
  unfold valField
  rw [h]
  simp only [packRw_toNat]
  have := val.isLt
  omega

end Sys2Proof.Machine
end

