-- ==== Sys2Proof/Tests/Slice0.lean ====
section
/-! SUPPORT. Small tests. Expected values are from 95_test_vectors.md (the vector is named) or from the rule
named; the last part shows, for every statement that has hypotheses, states and operands that meet them. -/

namespace Sys2Proof.Tests

open Sys2Proof Sys2Proof.Machine

/-! ### WellFormed refuses what has no encoding (30_encoding.md R98, R100) -/

theorem test_illformed_strForecast : ¬ (Instr.strForecast (2 ^ 24)).WellFormed := by
  simp [Instr.WellFormed]
theorem test_illformed_strWork_cap : ¬ (Instr.strWork (2 ^ 24) 0).WellFormed := by simp [Instr.WellFormed]
theorem test_illformed_strWork_avail : ¬ (Instr.strWork 0 (2 ^ 32)).WellFormed := by simp [Instr.WellFormed]
theorem test_illformed_fsdForecast : ¬ (Instr.fsdForecast (2 ^ 24)).WellFormed := by
  simp [Instr.WellFormed]
theorem test_illformed_fsdWork_cap : ¬ (Instr.fsdWork (2 ^ 24) 0).WellFormed := by simp [Instr.WellFormed]
theorem test_illformed_fsdWork_avail : ¬ (Instr.fsdWork 0 (2 ^ 32)).WellFormed := by simp [Instr.WellFormed]
theorem test_illformed_lfsrWhiten : ¬ (Instr.lfsrWhiten (2 ^ 24)).WellFormed := by simp [Instr.WellFormed]
theorem test_illformed_lfsrDewhiten : ¬ (Instr.lfsrDewhiten (2 ^ 24)).WellFormed := by
  simp [Instr.WellFormed]
theorem test_illformed_tceCfgGen_row : ¬ (Instr.tceCfgGen 256 0 0).WellFormed := by simp [Instr.WellFormed]
theorem test_illformed_tceCfgGen_col : ¬ (Instr.tceCfgGen 0 256 0).WellFormed := by simp [Instr.WellFormed]
theorem test_illformed_tceCfgFb_row : ¬ (Instr.tceCfgFb 256 0 0).WellFormed := by simp [Instr.WellFormed]
theorem test_illformed_tceCfgFb_col : ¬ (Instr.tceCfgFb 0 256 0).WellFormed := by simp [Instr.WellFormed]
theorem test_illformed_cesForecast : ¬ (Instr.cesForecast (2 ^ 24)).WellFormed := by
  simp [Instr.WellFormed]
theorem test_illformed_cesWork_cap : ¬ (Instr.cesWork (2 ^ 24) 0).WellFormed := by simp [Instr.WellFormed]
theorem test_illformed_cesWork_avail : ¬ (Instr.cesWork 0 (2 ^ 32)).WellFormed := by simp [Instr.WellFormed]

/-! ### Decoding: the words of V-DEC-1, one for every constructor, and of V-DEC-2 -/

theorem test_decode_sysRdreg : decode [0x01000030] = .command (.sysRdreg 0x30) [] := by decide
theorem test_decode_strForecast : decode [0x1000000A] = .command (.strForecast 10) [] := by decide
theorem test_decode_strWork : decode [0x11000008, 0x00001388] = .command (.strWork 8 5000) [] := by decide
theorem test_decode_fsdForecast : decode [0x20000001] = .command (.fsdForecast 1) [] := by decide
theorem test_decode_fsdWork : decode [0x21000001, 0x00000340] = .command (.fsdWork 1 832) [] := by decide
theorem test_decode_lfsrReset : decode [0x30000000, 7] = .command .lfsrReset [7] := by decide
theorem test_decode_lfsrOut : decode [0x31000000] = .command .lfsrOut [] := by decide
theorem test_decode_lfsrClk : decode [0x32000000] = .command .lfsrClk [] := by decide
theorem test_decode_lfsrWhiten : decode [0x33000005] = .command (.lfsrWhiten 5) [] := by decide
theorem test_decode_lfsrDewhiten : decode [0x34000004] = .command (.lfsrDewhiten 4) [] := by decide
theorem test_decode_tceCfgDim : decode [0x40000201] = .command (.tceCfgDim 1 2) [] := by decide
theorem test_decode_tceCfgGen : decode [0x41000100, 5] = .command (.tceCfgGen 0 1 5) [] := by decide
theorem test_decode_tceCfgFb : decode [0x42000000, 7] = .command (.tceCfgFb 0 0 7) [] := by decide
theorem test_decode_tceCfgBlock : decode [0x43000001, 4] = .command (.tceCfgBlock true 4) [] := by decide
theorem test_decode_tceCfgEnd : decode [0x44000000, 0] = .command (.tceCfgEnd 0) [] := by decide
theorem test_decode_tceBuild : decode [0x45000000] = .command .tceBuild [] := by decide
theorem test_decode_tceLookup : decode [0x46000001, 0, 9] = .command (.tceLookup 1 0) [9] := by decide
theorem test_decode_cesForecast : decode [0x50000064] = .command (.cesForecast 100) [] := by decide
theorem test_decode_cesWork : decode [0x51000005, 4] = .command (.cesWork 5 4) [] := by decide

/-- V-DEC-2: each word is illegal, alone. -/
theorem test_decode_illegal :
    ([0x00000000, 0x02000000, 0x01000130, 0x12000000, 0x30000001, 0x35000000, 0x40010201, 0x43000002,
      0x44000001, 0x45000001, 0x47000000, 0x52000000, 0x60000000, 0xFFFFFFFF] : List Word).all
      (fun w => match decode [w, 7] with
        | .illegal _ [7] => true
        | _ => false) = true := by decide

/-- R106: a CX command waits for its extension word. -/
theorem test_decode_incomplete : decode [0x51000005] = .incomplete := by decide

/-! ### Helpers -/

/-- The response words of an outcome. -/
def responseOf (o : Host.Outcome State Fault Refusal) : Option (Word × Option Word) :=
  match o with
  | .next s => s.response.map (fun r => (r.rw, r.rx))
  | .fault _ => none
  | .refused _ => none

/-- The unit TCE of an outcome. -/
def tceOf (o : Host.Outcome State Fault Refusal) : TceUnit :=
  match o with
  | .next s => s.tce
  | .fault _ => TceUnit.reset
  | .refused _ => TceUnit.reset

/-- An unbuilt unit with loaded entries given as (i, o, mask). -/
def configured (i o : BitVec 8) (gen fb : List (Nat × Nat × BitVec 32)) (term : Bool)
    (len endState : BitVec 32) : TceUnit :=
  { TceUnit.reset with
    inputs := i, outputs := o
    gen := gen.foldl (fun m e => memWrite m (cfgKey e.1 e.2.1) e.2.2) []
    fb := fb.foldl (fun m e => memWrite m (cfgKey e.1 e.2.1) e.2.2) []
    hasFb := !fb.isEmpty, doTerm := term, blockLen := len, endState := endState }

/-- Build it with the largest limits the encoding allows (30_encoding.md R104). -/
def builtWith (u : TceUnit) : Host.Outcome State Fault Refusal := tceBuild 24 24 (State.reset.withTce u)

/-- A table as pairs of numbers. -/
def tableOf (u : TceUnit) : List (Nat × Nat) := u.table.map (fun e => (e.next.toNat, e.out.toNat))

/-- The code of V-TCE-1. -/
def code75 (term : Bool) (len endState : BitVec 32) : TceUnit :=
  configured 1 2 [(0, 0, 7), (0, 1, 5)] [] term len endState

/-- What `CES.WORK` leaves: `RW`, `RX`, the outputs, phase, state and fault. -/
def cesResult (o : Host.Outcome State Fault Refusal) :
    Option (Option (Word × Option Word) × List Nat × CesPhase × Nat × Bool) :=
  match o with
  | .next s => some (responseOf o, s.win.cesOut.map BitVec.toNat, s.ces.phase, s.ces.tstate.toNat,
      s.ces.faultTerm)
  | .fault _ => none
  | .refused _ => none

/-- A machine with this unit TCE and these items for CES. -/
def cesState (u : TceUnit) (items : List (BitVec 24)) : State :=
  (State.reset.withTce u).withWin { Windows.empty with cesIn := items }

/-! ### SYS -/

/-- V-SYS-1. -/
theorem test_rdreg_reset : responseOf (exec (.sysRdreg 0x20) State.reset) = some (0, some 0) := by
  decide +kernel

/-- V-SYS-1. -/
theorem test_rdreg_unassigned :
    responseOf (exec (.sysRdreg 0x11) State.reset) = some (0x30000000, some 0) := by decide +kernel

/-! ### STR -/

/-- The toy interpolator of V-STR-2. -/
def toyInterp (window : List Sample) (_ : Sample) (ist : InterpState) : InterpResult 4 :=
  ⟨window.headD Sample.zero, 2, ist⟩

/-- The toy loop of V-STR-2. -/
def toyTrack (_ : Sample) (lst : LoopState) : TrackResult :=
  ⟨decide (2 ≤ lst.code), ⟨lst.code % 832, Nat.mod_lt _ (by decide)⟩, Sample.zero, ⟨lst.code + 1⟩⟩

/-- STR's registers at reset with the toy's `LSTATE0`. -/
def toyReset : StrUnit := ⟨false, 0, Sample.zero, ⟨0⟩, ⟨0⟩⟩

/-- V-STR-2, the first row: tags as records, consumed count. -/
theorem test_str_toy :
    let r := strLoop toyInterp toyTrack 10 ((List.range 10).map Sample.mk) toyReset
    r.out.map (fun x => tagToWire x.tag) = [0x0000, 0x0002, 0x0005, 0x0007] ∧ r.consumed = 8 ∧
      strStatus r.regs = 0x00000007 := by decide +kernel

/-- V-STR-2, the last row: starvation. -/
theorem test_str_starved :
    (strLoop toyInterp toyTrack 3 ((List.range 3).map Sample.mk) toyReset).consumed = 0 := by
  decide +kernel

/-- V-STR-1, at the default margin: R = 2 and R = 3/2. -/
theorem test_str_forecast : strRequired 2 1 10 = 1520 ∧ strRequired 3 2 5 = 1508 := by decide

/-! ### FSD -/

/-- An item of a class. -/
def item (c : MarkerClass) : MarkedSample := ⟨Sample.zero, c⟩

/-- 832 items of which the first has the class. -/
def segment (c : MarkerClass) : List MarkedSample := item c :: List.replicate 831 (item .none)

/-- V-FSD-6 (g): one segment: header, consumed, state. -/
theorem test_fsd_one_segment :
    let r := fsdRun Config.SEGS_PER_FIELD_DEFAULT 1 FsdUnit.reset (segment .seg)
    r.out.map segmentHeader = [0x00000001] ∧ r.rest = [] ∧ fsdStatus r.regs = 1 := by decide +kernel

/-- V-FSD-6 (d): the marker is found with less than a segment left. -/
theorem test_fsd_lock_early :
    let r := fsdRun Config.SEGS_PER_FIELD_DEFAULT 3 FsdUnit.reset
      (List.replicate 5 (item .none) ++ item .seg :: List.replicate 100 (item .none))
    r.out = [] ∧ r.rest.length = 101 ∧ fsdStatus r.regs = 1 := by decide +kernel

/-- V-FSD-0: N = 1 answers 2495. -/
theorem test_fsd_forecast :
    responseOf (exec (.fsdForecast 1) State.reset) = some (0, some 0x000009BF) := by decide +kernel

/-- V-FSD-0: 5 162 218 fits, 5 162 219 is E_RANGE. -/
theorem test_fsd_forecast_edge :
    responseOf (exec (.fsdForecast 5162218) State.reset) = some (0, some 4294967039) ∧
    responseOf (exec (.fsdForecast 5162219) State.reset) = some (0x30000000, some 0) := by decide +kernel

/-- U9: a window with the reserved mark is refused. -/
theorem test_fsd_reserved_mark :
    exec (.fsdWork 0 1) (State.reset.withWin { Windows.empty with fsdIn := [⟨Sample.zero, ⟨true, 0, 3⟩⟩] }) =
      .refused .reservedFieldMark := rfl

/-! ### LFSR, with the constants of REF (00_scope.md R12) -/

/-- The mask of REF. -/
def refTap : BitVec 16 := 0xA638

/-- The table of REF. -/
def refLut (index : BitVec 14) : Bool := index.getLsbD 13

/-- V-LFSR-2. -/
theorem test_clk : [0x0000, 0x0001, 0xFFFF, 0x8000, 0x018F].map (clk refTap) =
    [0x0000, 0xD31C, 0xACE3, 0x4000, 0xD3DB] := by decide

/-- R173: the two examples. -/
theorem test_out : outBit refLut 0x018F = false ∧ outBit refLut 0xD3DB = true := by decide

/-- V-LFSR-4. -/
theorem test_whiten : whitenBytes refTap refLut 0x018F [0x47, 0x00, 0xFF, 0xA5, 0x3C] =
    (0x95CC, [0x72, 0xEA, 0x66, 0x7B]) := by decide +kernel

/-- R179: the example. -/
theorem test_dewhiten : dewhitenBytes 0x47 refTap refLut 0x018F [0x72, 0xEA, 0x66, 0x7B] =
    (0x95CC, [0x47, 0x00, 0xFF, 0xA5, 0x3C]) := by decide +kernel

/-- R178: n = 0. -/
theorem test_whiten_empty :
    responseOf (exec (.lfsrWhiten 0) State.reset) = some (0x30000000, none) := by decide +kernel

/-! ### TCE -/

/-- R202, V-TCE-13: dimensions are stored while UNBUILT. -/
theorem test_cfg_dim : tceDims (tceOf (exec (.tceCfgDim 1 2) State.reset)) = 0x00000201 := by
  decide +kernel

/-- R203: loading an entry twice overwrites it. -/
theorem test_cfg_twice : cfgEntry (memWrite (memWrite [] (cfgKey 0 1) 5) (cfgKey 0 1) 7) 0 1 = 7 := by
  decide

/-- V-TCE-1: status, delays, table. -/
theorem test_build_code75 :
    let u := tceOf (builtWith (code75 false 0 0))
    tceStatus u = 0x00000041 ∧ tceDelays u = 0x02040202 ∧
      tableOf u = [(0, 0), (1, 3), (2, 1), (3, 2), (0, 3), (1, 0), (2, 2), (3, 1)] := by decide +kernel

/-- V-TCE-9: feedback shared by two inputs, SOAI, with its termination table. -/
theorem test_build_feedback :
    let u := tceOf (builtWith (configured 2 1 [(0, 0, 3), (1, 0, 5)] [(0, 0, 7), (1, 0, 7)] true 0 0))
    tceDelays u = 0x04020202 ∧
      tableOf u = [(0, 0), (2, 1), (1, 1), (3, 0), (3, 1), (1, 0), (2, 0), (0, 1),
        (1, 0), (3, 1), (0, 1), (2, 0), (2, 1), (0, 0), (3, 0), (1, 1)] ∧
      u.term = [some [0, 0], some [0, 1], some [0, 3], some [0, 2]] := by decide +kernel

/-- V-TCE-2: feedback under SIAO. -/
theorem test_build_siao_feedback :
    let u := tceOf (builtWith (configured 1 2 [(0, 0, 7), (0, 1, 5)] [(0, 0, 7), (0, 1, 7)] true 0 0))
    tceStatus u = 0x000003C1 ∧
      tableOf u = [(0, 0), (1, 3), (3, 2), (2, 1), (1, 0), (0, 3), (2, 2), (3, 1)] ∧
      u.term = [some [0, 0], some [1, 1], some [1, 0], some [0, 1]] := by decide +kernel

/-- V-TCE-12 (f): a block shorter than the memory. -/
theorem test_build_short_block :
    responseOf (builtWith (code75 true 1 0)) = some (0x40000000, none) ∧
      tceStatus (tceOf (builtWith (code75 true 1 0))) = 0x0000014A := by decide +kernel

/-- V-TCE-7: a zero column is a warning. -/
theorem test_build_warning :
    responseOf (builtWith (configured 1 2 [(0, 0, 7), (0, 1, 0)] [] false 0 0)) =
      some (0x08000000, none) := by decide +kernel

/-- V-TCE-13. -/
theorem test_lookup :
    let s := State.reset.withTce (tceOf (builtWith (code75 false 0 0)))
    responseOf (exec (.tceLookup 0 3) s) = some (0x00000002, some 2) ∧
      responseOf (exec (.tceLookup 2 0) s) = some (0x30000000, some 0) ∧
      responseOf (exec (.tceLookup 0 4) s) = some (0x30000000, some 0) := by decide +kernel

/-! ### CES -/

/-- V-CES-2: several terminated blocks in one command. -/
theorem test_ces_blocks :
    cesResult (exec (.cesWork 100 9)
      (cesState (tceOf (builtWith (code75 true 4 0))) [1, 0, 1, 1, 1, 1, 0, 0, 1])) =
    some (some (0x0100000D, some 9), [3, 1, 0, 2, 2, 3, 3, 2, 2, 3, 0, 0, 3], .encodingPayload, 1, false) := by
  decide +kernel

/-- V-CES-6: the termination fault. -/
theorem test_ces_fault :
    cesResult (exec (.cesWork 10 6)
      (cesState
        (tceOf (builtWith (configured 1 2 [(0, 0, 7), (0, 1, 5)] [(0, 0, 7), (0, 1, 1)] true 4 1)))
        [1, 0, 1, 1, 0, 0])) =
    some (some (0x01000004, some 4), [3, 0, 1, 3], .terminating, 12, true) := by decide +kernel

/-- V-CES-7. -/
theorem test_ces_forecast :
    responseOf (exec (.cesForecast 100) (cesState (tceOf (builtWith (code75 true 4 0))) [])) =
      some (0, some 100) := by decide +kernel

/-! ### Witnesses: for every statement with hypotheses, states and operands that meet them together -/

/-- An outcome that is a next state with a decided property. -/
theorem next_with (o : Host.Outcome State Fault Refusal) (p : State → Bool)
    (h : (match o with | .next t => p t | .fault _ => false | .refused _ => false) = true) :
    ∃ t, o = .next t ∧ p t = true := by
  cases o with
  | next t => exact ⟨t, rfl, h⟩
  | fault _ => cases h
  | refused _ => cases h

/-- A machine after reset with these words on the port. -/
def onPort (words : List Word) : State := State.reset.withPort words

/-- The code of V-TCE-1 as built, with its termination table (V-TCE-1T, V-TCE-10). -/
def built75 (term : Bool) (len endState : BitVec 32) (seqs : List (Option (List Nat))) : TceUnit where
  buildState  := .built
  inputs      := 1
  outputs     := 2
  gen         := [(0, 7), (1, 5)]
  fb          := []
  hasFb       := false
  blockLen    := len
  doTerm      := term
  endState    := endState
  realization := .siao
  fbEn        := false
  totalDelay  := 2
  maxDelay    := 2
  totalSoai   := 4
  totalSiao   := 2
  mems        := [⟨0, 1, [0, 1], 2, 0⟩]
  table       := [⟨0, 0⟩, ⟨1, 3⟩, ⟨2, 1⟩, ⟨3, 2⟩, ⟨0, 3⟩, ⟨1, 0⟩, ⟨2, 2⟩, ⟨3, 1⟩]
  term        := seqs
  errDim      := false
  errBlocklen := false
  warnZeroOut := false
  warnZeroIn  := false

/-- The all-zero sequences of V-TCE-1T. -/
def zeroSeqs : List (Option (List Nat)) := List.replicate 4 (some [0, 0])

/-- V-TCE-1T: construction gives exactly this unit. -/
theorem test_build_whole_unit : tceOf (builtWith (code75 true 4 0)) = built75 true 4 0 zeroSeqs := by
  decide +kernel

/-- A machine with the built code of V-TCE-1T, blocks of 4, and items for CES. -/
def coded (items : List (BitVec 24)) : State := cesState (built75 true 4 0 zeroSeqs) items

theorem built75_inv : TceInv (built75 true 4 0 zeroSeqs) := by
  refine ⟨⟨by decide, by decide⟩, ⟨List.Pairwise.nil, by decide⟩, fun h => absurd rfl h,
    fun h => absurd h (by decide), fun _ => ⟨rfl, rfl⟩, fun _ => ?_⟩
  refine ⟨by decide, by decide, by decide, by decide, by decide, rfl, by decide, fun _ => ⟨by decide, rfl, ?_⟩⟩
  intro st seq h
  by_cases hst : st < 4
  · interval_cases st <;> (cases h; exact ⟨rfl, by decide, by decide⟩)
  · rw [List.getElem?_eq_none (by simp [built75, zeroSeqs]; omega)] at h; cases h

/-- The machine of V-TCE-1T has the invariant. -/
theorem coded_inv (items : List (BitVec 24)) : (coded items).Inv := by
  refine ⟨by show (0 : Nat) < 832; decide, Nat.zero_le _, built75_inv, fun h => absurd rfl h, fun _ => ?_⟩
  have hp : (coded items).ces.phase = .init := rfl
  exact ⟨by show (0 : Nat) < 2 ^ 2; decide, fun h => absurd (hp.symm.trans h) (by decide), fun _ => rfl,
    fun h => absurd (hp.symm.trans h) (by decide)⟩

/-- A unit with one input, one output and the generator 1: no delay (V-TCE-8). -/
def memoryless : TceUnit := configured 1 1 [(0, 0, 1)] [] true 1 0

/-- Shapes are shown by the check, which is R209 and R210 (`shapeValid_iff`). -/
theorem wellShaped_of (ms : Nat) (u : TceUnit) (hg : CfgInv u.gen) (hf : CfgInv u.fb)
    (h : shapeValid ms u = true) : WellShaped ms u := (shapeValid_iff ms u hg hf).mp h

theorem shapeValid_one (ms : Nat) (u : TceUnit) (mask : BitVec 32) (h : 0 < ms) (h1 : u.inputs = 1)
    (h2 : u.outputs = 1) (h3 : u.gen = [(0, mask)]) (h4 : u.hasFb = false) : shapeValid ms u = true := by
  have hr : List.range 1 = [0] := rfl
  simp [shapeValid, dimsValid, matrixValid, h1, h2, h3, h4, hr, cfgLoaded, cfgKey, memRead]
  omega

/-- A machine with the memoryless unit, not built yet. -/
def oneByOne : State := State.reset.withTce memoryless

theorem oneByOne_shape (ms : Nat) (h : 0 < ms) : shapeValid ms oneByOne.tce = true :=
  shapeValid_one ms _ 1 h rfl rfl rfl rfl

theorem memoryless_total (n : Nat) : chosenTotal (analyse n memoryless) = 0 := by
  rw [chosenTotal_analyse]; decide

theorem memoryless_maxDelay (n : Nat) : chosenMaxDelay (analyse n memoryless) = 0 := by
  rw [chosenMaxDelay_analyse]; decide

/-- The memoryless unit builds at every limit. -/
theorem oneByOne_builds (ms mt : Nat) (h : 0 < ms) :
    ∃ t, tceBuild ms mt oneByOne = .next t ∧ statusOf t = some 0 := by
  have hu : oneByOne.tce = memoryless := rfl
  have hs := oneByOne_shape ms h
  unfold tceBuild
  rw [if_neg (by decide), if_neg (by rw [hs]; decide)]
  simp only [hu, memoryless_total, memoryless_maxDelay, Nat.not_lt_zero, and_false, if_false]
  rw [if_neg (by show ¬ (true = true ∧ 1 ≤ 0); decide)]
  exact ⟨_, rfl, by decide +kernel⟩

/-! #### Decoding and stepping -/

theorem witness_DecodeOfEncode :
    (Instr.strWork (2 ^ 24 - 1) (2 ^ 32 - 1)).WellFormed ∧ (Instr.tceCfgGen 255 255 7).WellFormed := by
  simp [Instr.WellFormed]

theorem witness_EncodeOfDecode : decode [0x41000100, 5, 9] = .command (.tceCfgGen 0 1 5) [9] := by decide

theorem witness_IllegalWordIsAnswered :
    (onPort [0x01000100, 7]).port = 0x01000100 :: [7] ∧ ¬ LegalWord 0x01000100 ∧
      (onPort [0x010000FF]).port = 0x010000FF :: [] ∧ LegalWord 0x010000FF := by
  refine ⟨rfl, ?_, rfl, ?_⟩ <;> unfold LegalWord <;> decide

theorem witness_StepRunsDecodedCommand :
    decode (onPort [0x30000000, 7]).port = .command .lfsrReset [7] ∧ Instr.lfsrReset.WellFormed ∧
      (onPort [0x30000000, 7]).port = encode .lfsrReset ++ [7] := by
  refine ⟨by decide, trivial, by decide⟩

theorem witness_HostMovesBetweenCommands :
    decode (onPort []).port = .incomplete ∧ decode (onPort [0x51000005]).port = .incomplete ∧
      ((onPort []).withHost [.place [0]]).host = .place [0] :: [] ∧
      ((onPort []).withHost [.present (.lfsr [0x47])]).host = .present (.lfsr [0x47]) :: [] ∧
      ((onPort []).withHost [.append (.ces [1])]).host = .append (.ces [1]) :: [] ∧
      ((onPort []).withHost [.commit .str]).host = .commit .str :: [] ∧
      ((onPort []).withHost [.commit .fsd]).host = .commit .fsd :: [] ∧
      ((onPort []).withHost [.commit .ces]).host = .commit .ces :: [] ∧
      ((onPort []).withHost [.reset]).host = .reset :: [] := by
  refine ⟨by decide, by decide, rfl, rfl, rfl, rfl, rfl, rfl, rfl⟩

/-! #### Invariants and whole-machine rules -/

theorem witness_StepKeepsInvariant :
    ((coded [1, 0, 1, 1]).withPort [0x51000005, 4]).Inv ∧
      ∃ t, step ((coded [1, 0, 1, 1]).withPort [0x51000005, 4]) = .next t ∧
        decide (t.ces.phase = .terminating) = true :=
  ⟨coded_inv [1, 0, 1, 1], next_with _ _ (by decide +kernel)⟩

theorem witness_InvariantStatesDoNotFault : (coded [1, 0, 1, 1]).Inv := coded_inv _

/-- An end state that is no state is refused, at any limits. -/
theorem endState_refused (ms mt : Nat) (s : State) (h : s.tce.buildState = .unbuilt)
    (hs : shapeValid ms s.tce = true) (hd : s.tce.doTerm = true) (hl : s.tce.blockLen = 0)
    (ht : chosenTotal s.tce = 0) (he : 1 ≤ s.tce.endState.toNat) :
    tceBuild ms mt s = .refused .endStateOutOfRange := by
  have hc : checksBlockLength (analyse s.freeCount s.tce) = false := by
    show (s.tce.doTerm && decide (s.tce.blockLen.toNat ≠ 0)) = false
    rw [hl]; simp
  unfold tceBuild
  rw [if_neg (fun hn => hn h), if_neg (by rw [hs]; decide)]
  simp only [hc, chosenTotal_analyse, ht, Bool.false_eq_true, false_and, if_false, Nat.not_lt_zero]
  exact if_pos ⟨hd, he⟩

/-- The three refusals of `TCE.BUILD` and the one of `FSD.WORK`. The first one needs a limit of two streams, so
it is shown at the limits of the encoding by `witness_BuildRejectsOrRefuses`. -/
theorem witness_OnlyListedRefusals :
    step (((onPort [0x45000000]).withTce (configured 1 1 [(0, 0, 1)] [] true 0 1))) =
        .refused .endStateOutOfRange ∧
      step (((onPort [0x21000000, 1])).withWin
        { Windows.empty with fsdIn := [⟨Sample.zero, ⟨true, 0, 3⟩⟩] }) = .refused .reservedFieldMark := by
  refine ⟨?_, rfl⟩
  have hs : shapeValid Config.MAX_STREAMS (configured 1 1 [(0, 0, 1)] [] true 0 1) = true :=
    shapeValid_one _ _ 1 Config.MAX_STREAMS_range.1 rfl rfl rfl rfl
  exact endState_refused Config.MAX_STREAMS Config.MAX_TOTAL_DELAY
    (State.reset.withTce (configured 1 1 [(0, 0, 1)] [] true 0 1)) rfl hs rfl rfl (by decide) (by decide)

theorem witness_CommandsKeepOtherUnits :
    (∃ t, exec .lfsrReset State.reset = .next t) ∧ unitOf .lfsrReset ≠ 1 ∧ unitOf .lfsrReset ≠ 2 ∧
      unitOf .lfsrReset ≠ 4 ∧ unitOf .lfsrReset ≠ 5 ∧
      (∃ t, exec (.strWork 1 1) State.reset = .next t) ∧ unitOf (.strWork 1 1) ≠ 3 := by
  exact ⟨⟨_, rfl⟩, by decide, by decide, by decide, by decide, ⟨_, rfl⟩, by decide⟩

theorem witness_UnitsDoNotReadEachOther :
    State.reset.freeCount = (State.reset.withLutBuilt true).freeCount ∧
      (∃ t, exec (.strWork 1 1) State.reset = .next t) ∧ unitOf (.strWork 1 1) = 1 ∧
      (∃ t, exec (.fsdWork 1 0) State.reset = .next t) ∧ unitOf (.fsdWork 1 0) = 2 ∧
      (∃ t, exec .lfsrOut State.reset = .next t) ∧ unitOf .lfsrOut = 3 ∧
      State.reset.str = (State.reset.withLutBuilt true).str ∧
      State.reset.fsd = (State.reset.withLutBuilt true).fsd ∧
      State.reset.lfsr = (State.reset.withLutBuilt true).lfsr ∧
      State.reset.win = (State.reset.withLutBuilt true).win :=
  ⟨rfl, ⟨_, rfl⟩, rfl, ⟨_, rfl⟩, rfl, ⟨_, rfl⟩, rfl, rfl, rfl, rfl, rfl⟩

theorem witness_ErrorStatusesChangeNothing :
    (∃ t, exec (.lfsrWhiten 0) State.reset = .next t ∧ decide (statusOf t = some 3) = true) ∧
      (∃ t, exec .tceBuild State.reset = .next t ∧ decide (statusOf t = some 4) = true) ∧
      State.reset.tce.errDim = false ∧ State.reset.tce.errBlocklen = false :=
  ⟨next_with _ _ (by decide +kernel), next_with _ _ (by decide +kernel), rfl, rfl⟩

theorem witness_StateGates :
    needsUnbuilt .tceBuild = true ∧ (coded []).tce.buildState ≠ .unbuilt ∧
      needsBuilt (.cesWork 1 1) = true ∧ State.reset.tce.buildState ≠ .built ∧
      unitOf .lfsrClk ≤ 3 ∧ ∃ t, exec .lfsrClk State.reset = .next t :=
  ⟨rfl, by decide, rfl, by decide, by decide, _, rfl⟩

theorem witness_TablesAreImmutable :
    ((coded []).withHost [.reset]).tce.buildState ≠ .unbuilt ∧
      ∃ t, step ((coded []).withHost [.reset]) = .next t := ⟨by decide, _, rfl⟩

theorem witness_StickyBitsStay :
    let s := { (onPort [0x30000000]) with
      lutBuilt := true
      fsd := { FsdUnit.reset with evSyncLoss := true, evOverflow := true }
      ces := { CesUnit.reset with faultTerm := true } }
    (∃ t, step s = .next t) ∧ s.lutBuilt = true ∧ ¬ ResetTurn s ∧ s.fsd.evSyncLoss = true ∧
      s.fsd.evOverflow = true ∧ s.ces.faultTerm = true :=
  ⟨⟨_, rfl⟩, rfl, fun h => absurd h.1 (by decide), rfl, rfl, rfl⟩

/-! #### STR -/

theorem witness_StrWorkCompletes : 2 ^ 24 - 1 < 2 ^ 24 ∧ 2 ^ 32 - 1 < 2 ^ 32 := by decide

theorem witness_StrTurn : Config.W_LOOK ≤ Config.W_LOOK := Nat.le_refl _

theorem witness_StrWorkCorners : ((0 : Nat) = 0) ∧ 0 < Config.W_LOOK := ⟨rfl, Nat.succ_pos _⟩

/-- The first call sees one of the two samples. -/
theorem witness_StrWorkSplits :
    let s := State.reset.withWin { Windows.empty with strIn := [Sample.zero, Sample.zero] }
    1 < 2 ^ 24 ∧ 1 + 1 < 2 ^ 24 ∧ 1 ≤ 2 ∧ 2 < 2 ^ 32 ∧ Filled 2 s.win.strIn ∧
      ∃ t u v, exec (.strWork 1 1) s = .next t ∧
        exec (.strWork 1 (2 - rxField t)) (hostMove t (.commit .str)) = .next u ∧
        exec (.strWork (valField t + 1) 2) s = .next v :=
  ⟨by decide, by decide, by decide, by decide, by unfold Filled; decide, _, _, _, rfl, rfl, rfl⟩

/-- An interpolator that steps by one sample a turn. -/
def unitInterp (window : List Sample) (_ : Sample) (ist : InterpState) : InterpResult 1 :=
  ⟨window.headD Sample.zero, 1, ist⟩

/-- It keeps the bound for a ratio of 1. -/
theorem witness_StrRateBound : 0 < 1 ∧ InterpRateBound unitInterp toyTrack 1 1 := by
  refine ⟨by decide, fun windows _ => ?_⟩
  have h : ∀ u, (strTurns unitInterp toyTrack windows u).2 = windows.length := by
    induction windows with
    | nil => intro u; rfl
    | cons x xs ih =>
      intro u
      show 1 + (strTurns unitInterp toyTrack xs _).2 = xs.length + 1
      rw [ih (by simp_all)]; omega
  rw [h]
  show _ ≤ ((windows.length + 1) * 1 + (1 - 1)) / 1
  omega

/-! #### FSD -/

theorem witness_FsdWorkCompletes :
    2 ^ 24 - 1 < 2 ^ 24 ∧ 2 ^ 32 - 1 < 2 ^ 32 ∧
      (∃ x ∈ (State.reset.withWin { Windows.empty with
        fsdIn := [⟨Sample.zero, ⟨true, 0, 3⟩⟩] }).fsdWindow 1, markerClass x.tag = none) ∧
      (∀ x ∈ (State.reset.withWin { Windows.empty with
        fsdIn := [⟨Sample.zero, ⟨true, 0, 2⟩⟩, ⟨Sample.zero, ⟨false, 0, 3⟩⟩] }).fsdWindow 2,
        markerClass x.tag ≠ none) := by
  refine ⟨by decide, by decide, ⟨_, List.mem_cons_self, rfl⟩, ?_⟩
  intro x hx
  rcases List.mem_cons.mp hx with rfl | hx
  · decide
  · rcases List.mem_cons.mp hx with rfl | hx
    · decide
    · exact absurd hx List.not_mem_nil

theorem segment_marked (c : MarkerClass) : MarkedSegment c (segment c) :=
  ⟨by rw [segment, List.length_cons, List.length_replicate], item c, _, rfl, rfl⟩

theorem witness_FsdScanAndLock :
    (∀ x ∈ [item .none, item .none], x.marker = .none) ∧ FsdUnit.reset.state = .searching ∧
      ([item .fs2] : List MarkedSample) = item .fs2 :: [] ∧ (item .fs2).marker ≠ .none ∧
      ({ FsdUnit.reset with state := .locked } : FsdUnit).state = .locked ∧
      (List.replicate 831 (item .seg)).length < 832 := by
  refine ⟨by decide, rfl, rfl, by decide, rfl, by rw [List.length_replicate]; decide⟩

theorem witness_FsdFieldSync :
    ({ FsdUnit.reset with state := .locked } : FsdUnit).state = .locked ∧
      MarkedSegment .fs1 (segment .fs1) ∧ MarkedSegment .fs2 (segment .fs2) :=
  ⟨rfl, segment_marked _, segment_marked _⟩

theorem witness_FsdEmission :
    0 < 2 ^ 16 - 1 ∧ 2 ^ 16 - 1 < 2 ^ 16 ∧
      ({ FsdUnit.reset with state := .locked } : FsdUnit).state = .locked ∧
      MarkedSegment .seg (segment .seg) := ⟨by decide, by decide, rfl, segment_marked _⟩

theorem witness_FsdSyncLoss :
    ({ FsdUnit.reset with state := .locked } : FsdUnit).state = .locked ∧
      MarkedSegment .none (segment .none) := ⟨rfl, segment_marked _⟩

theorem witness_FsdNumbersAField :
    1 < 2 ^ 16 ∧ MarkedSegment .fs1 (segment .fs1) ∧ (∀ b ∈ [segment .seg], MarkedSegment .seg b) ∧
      [segment .seg].length ≤ 1 ∧ [segment .seg].length + [segment .seg].length < 3 := by
  refine ⟨by decide, segment_marked _, ?_, by decide, by decide⟩
  intro b hb
  rw [List.mem_singleton.mp hb]; exact segment_marked _

/-- A first window that ends within a segment, and the items that complete it; then both capacities alike. -/
theorem witness_FsdRunSplits :
    let segs := Config.SEGS_PER_FIELD_DEFAULT
    let r := fsdRun segs 1 FsdUnit.reset ((segment .seg).take 5)
    r.loss = false ∧ 1 = r.out.length + 1 ∧ 0 < 1 ∧
      (let r' := fsdRun segs 1 FsdUnit.reset (segment .seg);
      r'.loss = false ∧ r'.out.length = 1 ∧ (fsdRun segs 1 r'.regs (r'.rest ++ [])).out.length < 1) := by
  decide +kernel

/-! #### LFSR -/

theorem witness_LfsrWhiten : 0 < 2 ^ 24 - 1 ∧ 2 ^ 24 - 1 < 2 ^ 24 := by decide

theorem witness_LfsrDewhiten : 2 ^ 24 - 2 + 1 < 2 ^ 24 := by decide

theorem witness_WhitenRoundTrip :
    let s := State.reset.withWin { Windows.empty with lfsrIn := [Config.FRAMING_BYTE, 0x12] }
    0 < 2 ∧ 2 < 2 ^ 24 ∧ Filled 2 s.win.lfsrIn ∧ s.win.lfsrIn[0]? = some Config.FRAMING_BYTE ∧
      ∃ t s' : State, exec (.lfsrWhiten 2) s = .next t ∧ s'.lfsr = s.lfsr ∧
        s'.win.lfsrIn = t.win.lfsrOut.take (2 - 1) :=
  ⟨by decide, by decide, by unfold Filled; decide, rfl, _,
    State.reset.withWin { Windows.empty with
      lfsrIn := (whitenBytes Config.TAP_MASK Config.OUT_LUT Config.PRELOAD
        [Config.FRAMING_BYTE, 0x12]).2 }, rfl, rfl, rfl⟩

theorem witness_KeystreamByStepping :
    (onPort [0x32000000, 0x32000000, 0x31000000]).port =
      List.replicate 2 (0x32000000 : Word) ++ [0x31000000] := rfl

/-! #### TCE -/

theorem witness_MatrixWrites :
    State.reset.tce.gen.wf ∧ State.reset.tce.fb.wf ∧ State.reset.tce.buildState = .unbuilt ∧
      0 < Config.MAX_STREAMS ∧ Config.MAX_STREAMS ≤ Config.MAX_STREAMS ∧
      (coded []).tce.buildState ≠ .unbuilt ∧ (coded []).tce.gen.wf ∧ (coded []).tce.fb.wf :=
  ⟨List.Pairwise.nil, List.Pairwise.nil, rfl, Config.MAX_STREAMS_range.1, Nat.le_refl _, by decide, by decide, by decide⟩

/-- One unit for each cause. -/
theorem witness_BuildRejectsBadShape :
    (configured 0 1 [] [] false 0 0).inputs = 0 ∧
      Config.MAX_STREAMS < (configured 25 1 [] [] false 0 0).inputs.toNat ∧
      (configured 1 0 [] [] false 0 0).outputs = 0 ∧
      Config.MAX_STREAMS < (configured 1 25 [] [] false 0 0).outputs.toNat ∧
      ¬ LoadedExactly 1 1 (configured 1 1 [(0, 0, 1), (0, 1, 1)] [] false 0 0).gen ∧
      (configured 1 1 [(0, 0, 1)] [(0, 1, 1)] false 0 0).hasFb = true ∧
      ¬ LoadedExactly 1 1 (configured 1 1 [(0, 0, 1)] [(0, 1, 1)] false 0 0).fb ∧
      CfgInv (configured 1 1 [(0, 0, 1), (0, 1, 1)] [(0, 1, 1)] false 0 0).gen ∧
      CfgInv (configured 1 1 [(0, 0, 1), (0, 1, 1)] [(0, 1, 1)] false 0 0).fb ∧
      (configured 0 1 [] [] false 0 0).buildState = .unbuilt := by
  refine ⟨rfl, ?_, rfl, ?_, ?_, rfl, ?_, ⟨by decide, by decide⟩, ⟨by decide, by decide⟩, rfl⟩
  · exact Nat.lt_of_le_of_lt Config.MAX_STREAMS_range.2 (by decide)
  · exact Nat.lt_of_le_of_lt Config.MAX_STREAMS_range.2 (by decide)
  · exact fun h => absurd ((h 0 1 (by decide) (by decide)).mp (by decide)) (by decide)
  · exact fun h => absurd ((h 0 1 (by decide) (by decide)).mp (by decide)) (by decide)

/-- One unit for each clause, at the limits given with it. -/
theorem witness_BuildRejectsOrRefuses :
    let wide := configured 1 2 [(0, 0, 7), (0, 1, 5)] [(0, 0, 7), (0, 1, 1)] true 2 0
    (WellShaped 24 (code75 true 1 0) ∧ (code75 true 1 0).buildState = .unbuilt ∧
      (code75 true 1 0).doTerm = true ∧ (code75 true 1 0).blockLen ≠ 0 ∧
      ∃ m ∈ selectedMems (code75 true 1 0), (code75 true 1 0).blockLen.toNat < m.len) ∧
    (WellShaped 24 wide ∧ wide.buildState = .unbuilt ∧ wide.doTerm = true ∧ wide.blockLen ≠ 0 ∧
      (∀ m ∈ selectedMems wide, m.len ≤ wide.blockLen.toNat) ∧
      wide.blockLen.toNat < delayBits (selectedMems wide)) ∧
    (WellShaped 24 (code75 false 0 0) ∧ (code75 false 0 0).doTerm = false ∧
      1 < delayBits (selectedMems (code75 false 0 0))) ∧
    (WellShaped 24 (code75 true 0 4) ∧ (code75 true 0 4).blockLen = 0 ∧
      delayBits (selectedMems (code75 true 0 4)) ≤ 24 ∧ (code75 true 0 4).doTerm = true ∧
      2 ^ delayBits (selectedMems (code75 true 0 4)) ≤ (code75 true 0 4).endState.toNat) := by
  refine ⟨⟨wellShaped_of _ _ ⟨?_, ?_⟩ ⟨?_, ?_⟩ ?_, ?_⟩, ⟨wellShaped_of _ _ ⟨?_, ?_⟩ ⟨?_, ?_⟩ ?_, ?_⟩,
    ⟨wellShaped_of _ _ ⟨?_, ?_⟩ ⟨?_, ?_⟩ ?_, ?_⟩, ⟨wellShaped_of _ _ ⟨?_, ?_⟩ ⟨?_, ?_⟩ ?_, ?_⟩⟩ <;>
    decide +kernel

theorem witness_BuildCompletes :
    oneByOne.tce.buildState = .unbuilt ∧ WellShaped Config.MAX_STREAMS oneByOne.tce ∧
      oneByOne.tce.doTerm = true ∧ oneByOne.tce.blockLen ≠ 0 ∧
      delayBits (selectedMems oneByOne.tce) ≤ oneByOne.tce.blockLen.toNat ∧
      delayBits (selectedMems oneByOne.tce) ≤ Config.MAX_TOTAL_DELAY ∧
      oneByOne.tce.endState.toNat < 2 ^ delayBits (selectedMems oneByOne.tce) := by
  have ht : delayBits (selectedMems oneByOne.tce) = 0 := by decide
  refine ⟨rfl, wellShaped_of _ _ ⟨by decide, by decide⟩ ⟨by decide, by decide⟩
    (oneByOne_shape _ Config.MAX_STREAMS_range.1), rfl, by decide, by decide, ?_, by decide⟩
  rw [ht]; exact Nat.zero_le _

theorem witness_BuildWarnings :
    ∃ t, tceBuild 24 24 (State.reset.withTce (configured 1 2 [(0, 0, 7), (0, 1, 0)] [] false 0 0)) = .next t ∧
      decide (statusOf t = some 0) = true := next_with _ _ (by decide +kernel)

theorem witness_TerminationTable :
    24 ≤ 24 ∧ (code75 true 4 0).doTerm = true ∧
      ∃ t, tceBuild 24 24 (State.reset.withTce (code75 true 4 0)) = .next t ∧
        decide (statusOf t = some 0) = true := ⟨Nat.le_refl _, rfl, next_with _ _ (by decide +kernel)⟩

theorem witness_SymbolStepSiao :
    selectRealization (code75 false 0 0) = .siao ∧ chosenTotal (code75 false 0 0) ≤ 32 ∧
      (code75 false 0 0).outputs.toNat ≤ 24 ∧ (chosenMems (code75 false 0 0)).length = 1 := by
  decide +kernel

theorem witness_SymbolStepSoai :
    let u := configured 1 1 [(0, 0, 7)] [] false 0 0
    selectRealization u = .soai ∧ chosenTotal u ≤ 32 ∧ u.outputs.toNat ≤ 24 ∧
      (chosenMems u).length = 1 := by decide +kernel

theorem witness_FeedForwardIsConvolution :
    (code75 false 0 0).hasFb = false ∧ (code75 false 0 0).inputs.toNat ≤ 24 ∧
      (code75 false 0 0).outputs.toNat ≤ 24 ∧ chosenTotal (code75 false 0 0) ≤ 32 ∧
      3 < ([1, 0, 1, 1] : List (BitVec 24)).length ∧ 1 < (code75 false 0 0).outputs.toNat := by
  decide +kernel

/-- G = Fn = 7: the output is the input (V-TCE-2, output 0). -/
theorem witness_TransferFunction :
    let u := configured 1 1 [(0, 0, 7)] [(0, 0, 7)] false 0 0
    let cs : List (BitVec 24) := [1, 0, 1, 1]
    u.inputs.toNat ≤ 24 ∧ u.outputs.toNat ≤ 24 ∧ chosenTotal u ≤ 32 ∧
      ∀ i < u.inputs.toNat, ∀ o < u.outputs.toNat, ∀ t < cs.length,
        convolve (fbMask u i o) (inputBit cs i) t = convolve (genMask u i o) (inputBit cs i) t := by
  decide +kernel

theorem witness_LookupAnswers :
    (coded []).Inv ∧ (coded []).tce.buildState = .built ∧
      (3 : BitVec 32).toNat < 2 ^ (coded []).tce.totalDelay.toNat ∧
      (1 : BitVec 24).toNat < 2 ^ (coded []).tce.inputs.toNat ∧
      2 ^ (coded []).tce.totalDelay.toNat ≤ (4 : BitVec 32).toNat :=
  ⟨coded_inv _, rfl, by decide, by decide, by decide⟩

/-! #### CES -/

theorem witness_CesWorkCompletes :
    2 ^ 24 - 1 < 2 ^ 24 ∧ 2 ^ 32 - 1 < 2 ^ 32 ∧ (coded [1]).Inv ∧ (coded [1]).tce.buildState = .built ∧
      (coded [1]).ces.faultTerm = false := ⟨by decide, by decide, coded_inv _, rfl, rfl⟩

/-- Unbounded: from INIT, and in a block at state 2. Bounded: the last input of a block that terminates, of one
that does not, and an input before the last. -/
theorem witness_CesPayloadStep :
    let last := { CesUnit.reset with phase := CesPhase.encodingPayload, payloadCount := 3 }
    let s := cesState (built75 false 0 0 []) [1]
    let s' := { s with ces := { CesUnit.reset with phase := .encodingPayload, tstate := 2 } }
    let b := { coded [1] with ces := last }
    let b' := { cesState (built75 false 4 0 []) [1] with ces := last }
    s.tce.buildState = .built ∧ s.ces.faultTerm = false ∧ s.ces.phase ≠ .terminating ∧
      s.win.cesIn = 1 :: [] ∧ s.tce.table[0 * 2 ^ s.tce.inputs.toNat + 1 % 2]? = some ⟨1, 3⟩ ∧
      s.tce.blockLen = 0 ∧
      s'.ces.phase ≠ .terminating ∧ s'.tce.table[2 * 2 ^ s'.tce.inputs.toNat + 1 % 2]? = some ⟨1, 0⟩ ∧
      b.tce.buildState = .built ∧ b.ces.phase ≠ .terminating ∧ b.tce.blockLen ≠ 0 ∧
      min (b.ces.payloadCount.toNat + 1) (2 ^ 32 - 1) = b.tce.blockLen.toNat ∧ b.tce.doTerm = true ∧
      b.tce.totalDelay ≠ 0 ∧ b.tce.table[0 * 2 ^ b.tce.inputs.toNat + 1 % 2]? = some ⟨1, 3⟩ ∧
      b.tce.term[(1 : BitVec 32).toNat]? = some (some [0, 0]) ∧
      b'.tce.blockLen ≠ 0 ∧ min (b'.ces.payloadCount.toNat + 1) (2 ^ 32 - 1) = b'.tce.blockLen.toNat ∧
      b'.tce.doTerm = false ∧
      (coded [1]).tce.blockLen ≠ 0 ∧ min (0 + 1) (2 ^ 32 - 1) ≠ (coded [1]).tce.blockLen.toNat := by
  decide +kernel

theorem witness_CesStreaming :
    (cesState (built75 false 0 0 []) [1, 0]).tce.blockLen = 0 ∧
      (cesState (built75 false 0 0 []) [1, 0]).ces.phase ≠ .terminating ∧
      ∃ t, exec (.cesWork 5 2) (cesState (built75 false 0 0 []) [1, 0]) = .next t ∧
        decide (statusOf t = some 0) = true := ⟨rfl, by decide, next_with _ _ (by decide +kernel)⟩

theorem witness_CesTerminatedBlock :
    (coded [1, 0, 1, 1]).Inv ∧ (coded [1, 0, 1, 1]).tce.buildState = .built ∧
      (coded [1, 0, 1, 1]).tce.doTerm = true ∧ (coded [1, 0, 1, 1]).tce.blockLen ≠ 0 ∧
      (coded [1, 0, 1, 1]).ces.phase = .init ∧ (4 : BitVec 32).toNat + (2 : BitVec 8).toNat < 2 ^ 24 ∧
      (∃ t, exec (.cesWork (4 + 2) 4) (coded [1, 0, 1, 1]) = .next t ∧
        decide (t.ces.faultTerm = false) = true) ∧
      (let s := { coded [] with ces := ⟨.terminating, 3, 4, 1, 3, false⟩ };
      0 < 2 ^ 32 ∧ s.tce.buildState = .built ∧ s.ces.faultTerm = false ∧ s.ces.phase = .terminating ∧
        s.tce.term[s.ces.termBase.toNat]? = some (some [0, 0]) ∧
        ([0, 0] : List Nat)[s.ces.termCount.toNat]? = some 0 ∧
        s.tce.table[s.ces.tstate.toNat * 2 ^ s.tce.inputs.toNat + 0]? = some ⟨2, 2⟩) :=
  ⟨coded_inv _, rfl, rfl, by decide, rfl, by decide, next_with _ _ (by decide +kernel), by decide +kernel⟩

/-- The code of V-TCE-1 with a termination table in which state 1 has no sequence, at the last input of a
block. -/
theorem witness_CesTerminationUnreachable :
    let s : State := { cesState (built75 true 4 0 [some [0, 0], none, some [0, 0], some [0, 0]]) [1] with
      ces := { CesUnit.reset with phase := .encodingPayload, payloadCount := 3 } }
    5 + 1 < 2 ^ 24 ∧ 0 + 1 < 2 ^ 32 ∧ s.tce.buildState = .built ∧ s.ces.faultTerm = false ∧
      s.ces.phase = .encodingPayload ∧ s.ces.payloadCount.toNat + 1 = s.tce.blockLen.toNat ∧
      s.tce.doTerm = true ∧ s.tce.totalDelay ≠ 0 ∧ s.win.cesIn = 1 :: [] ∧
      s.tce.table[s.ces.tstate.toNat * 2 ^ s.tce.inputs.toNat + 1 % 2]? = some ⟨1, 3⟩ ∧
      s.tce.term[(1 : BitVec 32).toNat]? = some none ∧
      ({ s with ces := { s.ces with faultTerm := true } } : State).ces.faultTerm = true :=
  ⟨by decide, by decide, rfl, rfl, rfl, rfl, rfl, by decide, rfl, rfl, rfl, rfl⟩

theorem witness_CesLoopSplits :
    ∃ r q, cesLoop (built75 true 4 0 zeroSeqs) 3 [1] CesUnit.reset = .ok r ∧ r.regs.faultTerm = false ∧
      cesLoop (built75 true 4 0 zeroSeqs) 2 (r.rest ++ [0]) r.regs = .ok q ∧
      3 = r.out.length + 2 ∧ 5 = 3 + 2 ∧ q.out.length < 2 :=
  ⟨_, _, rfl, rfl, rfl, rfl, rfl, by decide⟩

end Sys2Proof.Tests
end

section
/-! What an answering command can leave, said once for `exec` and for `step` (10_state.md R20; 20_memory.md R65,
R77): the unit's own registers and output window, each under the conditions it writes them. -/

namespace Sys2Proof.Machine

/-! ### The invariant of TCE, one build state at a time -/

theorem tceInv_iff_of_unbuilt (u : TceUnit) (h : u.buildState = .unbuilt) :
    TceInv u ↔ CfgInv u.gen ∧ CfgInv u.fb ∧ u.table = [] ∧ u.term = [] ∧
      u.errDim = false ∧ u.errBlocklen = false := by
  simp [TceInv, h, and_assoc]

theorem tceInv_iff_of_failed (u : TceUnit) (h : u.buildState = .failed) :
    TceInv u ↔ CfgInv u.gen ∧ CfgInv u.fb ∧ u.table = [] ∧ u.term = [] ∧
      u.errDim = !u.errBlocklen := by
  simp [TceInv, h, and_assoc]

theorem tceInv_iff_of_built (u : TceUnit) (h : u.buildState = .built) :
    TceInv u ↔ CfgInv u.gen ∧ CfgInv u.fb ∧ u.errDim = false ∧ u.errBlocklen = false ∧
      BuiltInv u := by
  simp [TceInv, h, and_assoc]

/-- A matrix write at a position of 8-bit operands keeps the space CFG canonical (20_memory.md R64). -/
theorem memWrite_cfgInv {m : Memory} (hm : CfgInv m) {i o : Nat} (hi : i < 256) (ho : o < 256)
    (v : BitVec 32) : CfgInv (memWrite m (cfgKey i o) v) := by
  obtain ⟨hwf, hkeys⟩ := hm
  refine ⟨memWrite_wf m hwf _ v, fun e he => ?_⟩
  rcases mem_memWrite m _ v e he with rfl | he
  · show cfgKey i o < 65536
    unfold cfgKey; omega
  · exact hkeys e he

/-! ### The construction keeps the invariant (44_trellis_code_engine.md R208) -/

/-- A total of at most 24 bits fits its register (R219; log 9). -/
theorem totalRegister_toNat (free : Nat) (r : Realization) {n : Nat} (h : n ≤ 24) :
    (totalRegister free r n).toNat = n := by
  unfold totalRegister
  rw [if_pos (by omega), BitVec.toNat_ofNat, Nat.mod_eq_of_lt (by omega)]

theorem analyse_totalDelay (n : Nat) (u : TceUnit) (h : chosenTotal u ≤ 24) :
    (analyse n u).totalDelay.toNat = chosenTotal u := totalRegister_toNat n _ h

/-- The termination table of a finished construction (R227). -/
theorem finishBuild_term (v : TceUnit) (h : v.doTerm = true) :
    (finishBuild v).term = buildTermFor v := if_pos h

/-- What the checks of R209, R210 and R221 let through becomes a finished construction. -/
theorem finishBuild_builtInv (n : Nat) (u : TceUnit) (hshape : WellShaped Config.MAX_STREAMS u)
    (htotal : chosenTotal u ≤ 24) (hend : u.doTerm = true → u.endState.toNat < 2 ^ chosenTotal u) :
    BuiltInv (finishBuild (analyse n u)) := by
  obtain ⟨hi0, hi, ho0, ho, -⟩ := hshape
  have hmax := Config.MAX_STREAMS_range.2
  have hT : (finishBuild (analyse n u)).totalDelay.toNat = chosenTotal u := analyse_totalDelay n u htotal
  unfold BuiltInv TermSeqInv
  rw [hT]
  refine ⟨hi0, hi.trans hmax, ho0, ho.trans hmax, htotal, buildTable_length u, buildTable_lt u,
    fun hdo => ?_⟩
  rw [finishBuild_term (analyse n u) hdo]
  exact ⟨hend hdo, buildTerm_length _ _ _ _ _, fun st seq hseq => buildTerm_spec _ _ _ _ _ _ _ hseq⟩

/-- A shape error leaves exactly one cause (R209, R210, R228). -/
theorem tceInv_errDim {u : TceUnit} (hu : u.buildState = .unbuilt) (h : TceInv u) :
    TceInv { u with errDim := true, buildState := .failed } := by
  obtain ⟨hg, hf, htab, hterm, -, hb⟩ := (tceInv_iff_of_unbuilt u hu).mp h
  exact (tceInv_iff_of_failed _ rfl).mpr ⟨hg, hf, htab, hterm, by simp [hb]⟩

/-- A block-length error leaves exactly one cause (R220, R228). -/
theorem tceInv_errBlocklen (n : Nat) {u : TceUnit} (hu : u.buildState = .unbuilt) (h : TceInv u) :
    TceInv { analyse n u with errBlocklen := true, buildState := .failed } := by
  obtain ⟨hg, hf, htab, hterm, hd, -⟩ := (tceInv_iff_of_unbuilt u hu).mp h
  exact (tceInv_iff_of_failed _ rfl).mpr ⟨hg, hf, htab, hterm, hd⟩

/-- A finished construction has the invariant. -/
theorem tceInv_finishBuild (n : Nat) {u : TceUnit} (hu : u.buildState = .unbuilt) (h : TceInv u)
    (hshape : shapeValid Config.MAX_STREAMS u = true) (htotal : chosenTotal u ≤ Config.MAX_TOTAL_DELAY)
    (hend : u.doTerm = true → u.endState.toNat < 2 ^ chosenTotal u) :
    TceInv (finishBuild (analyse n u)) := by
  obtain ⟨hg, hf, -, -, hd, hb⟩ := (tceInv_iff_of_unbuilt u hu).mp h
  exact (tceInv_iff_of_built _ rfl).mpr ⟨hg, hf, hd, hb,
    finishBuild_builtInv n u ((shapeValid_iff _ u hg hf).mp hshape)
      (htotal.trans Config.MAX_TOTAL_DELAY_le) hend⟩

/-- What a command of unit `k` can leave: an answer alone, or new registers and output items of its own unit
with the conditions under which it writes them (10_state.md R20; 20_memory.md R65, R77). -/
inductive Leaves (s : State) : Nat → State → Prop
  | answered (k : Nat) (r : Option Response) : Leaves s k (s.withResponse r)
  | str (u : StrUnit) (out : List TaggedSymbol) (n : Nat) (r : Option Response)
      (hinv : StrInv s.str → StrInv u) :
      Leaves s 1 { s with str := u, win := { s.win with strOut := out }, freeCount := n, response := r }
  | fsd (u : FsdUnit) (out : List DataSegment) (n : Nat) (r : Option Response)
      (hinv : FsdInv s.fsd → FsdInv u)
      (hloss : s.fsd.evSyncLoss = true → u.evSyncLoss = true)
      (hoverflow : s.fsd.evOverflow = true → u.evOverflow = true) :
      Leaves s 2 { s with fsd := u, win := { s.win with fsdOut := out }, freeCount := n, response := r }
  | lfsr (u : LfsrUnit) (built : Bool) (out : List Byte) (n : Nat) (r : Option Response)
      (hbuilt : s.lutBuilt = true → built = true) :
      Leaves s 3
        { s with
          lfsr := u, lutBuilt := built, win := { s.win with lfsrOut := out }, freeCount := n, response := r }
  | tce (u : TceUnit) (n : Nat) (r : Option Response)
      (hstate : s.tce.buildState = .unbuilt) (hinv : TceInv s.tce → TceInv u) :
      Leaves s 4 { s with tce := u, freeCount := n, response := r }
  | ces (u : CesUnit) (out : List (BitVec 24)) (n : Nat) (r : Option Response)
      (hstate : s.tce.buildState = .built) (hfault : s.ces.faultTerm = false)
      (hrun : BuiltInv s.tce → CesRunning s.tce s.ces → CesRunning s.tce u) :
      Leaves s 5 { s with ces := u, win := { s.win with cesOut := out }, freeCount := n, response := r }

/-! ### One lemma per command that writes more than its answer -/

theorem raised_leaves {s t : State} {e : Status} {hasRx : Bool} (k : Nat)
    (h : raised s e hasRx = .next t) : Leaves s k t := by
  cases h; exact .answered k _

theorem answerForecast_leaves {s t : State} {n : Nat} (k : Nat) (h : answerForecast s n = .next t) :
    Leaves s k t := by
  unfold answerForecast at h
  split at h <;> (cases h; exact .answered k _)

theorem execSysRdreg_leaves {s t : State} {reg : BitVec 8} (h : execSysRdreg reg s = .next t) :
    Leaves s 0 t := by
  unfold execSysRdreg at h
  split at h
  · cases h; exact .answered 0 _
  · exact raised_leaves 0 h

theorem execStrWork_leaves {s t : State} {cap avail : Nat} (h : execStrWork cap avail s = .next t) :
    Leaves s 1 t := by
  cases h
  obtain ⟨-, -, hinv, -⟩ := strLoop_spec Config.interp Config.track cap (s.strWindow avail) s.str
  exact .str _ _ _ _ hinv

theorem execFsdWork_leaves {s t : State} {cap avail : Nat} (h : execFsdWork cap avail s = .next t) :
    Leaves s 2 t := by
  unfold execFsdWork at h
  split at h
  · cases h
  · next items _ =>
    cases h
    obtain ⟨hpos, hlt⟩ := Config.SEGS_PER_FIELD_range
    obtain ⟨-, -, hnumber, hloss, hoverflow, -⟩ :=
      fsdLoop_spec Config.SEGS_PER_FIELD hpos hlt (items.length / Config.SEG_LEN + 1) cap s.fsd items
    exact .fsd _ _ _ _ hnumber hloss hoverflow

theorem execLfsrOut_leaves {s t : State} (h : execLfsrOut s = .next t) : Leaves s 3 t := by
  rw [execLfsrOut, State.ensureLut_eq] at h
  cases h
  exact .lfsr s.lfsr true s.win.lfsrOut _ _ fun _ => rfl

/-- The payload commands, with the table built where `p` says a bit is needed. -/
theorem lfsrPayload_leaves (s : State) (p : Prop) [Decidable p] (u : LfsrUnit) (out : List Byte) (e : Events)
    (val : BitVec 24) (rx : Option Word) :
    Leaves s 3 ((((if p then s.ensureLut else s).withLfsr u).emitLfsr out).tick.respond e val rx) := by
  split
  · rw [State.ensureLut_eq]
    exact .lfsr u true _ _ _ fun _ => rfl
  · exact .lfsr u s.lutBuilt _ _ _ id

theorem execLfsrWhiten_leaves {s t : State} {n : Nat} (h : execLfsrWhiten n s = .next t) :
    Leaves s 3 t := by
  unfold execLfsrWhiten at h
  split at h
  · exact raised_leaves 3 h
  · cases h; exact lfsrPayload_leaves s (1 < n) _ _ _ _ _

theorem execLfsrDewhiten_leaves {s t : State} {m : Nat} (h : execLfsrDewhiten m s = .next t) :
    Leaves s 3 t := by
  cases h; exact lfsrPayload_leaves s (0 < m) _ _ _ _ _

theorem configure_leaves {s t : State} {u : TceUnit} (h : configure s u = .next t)
    (hinv : s.tce.buildState = .unbuilt → TceInv s.tce → TceInv u) : Leaves s 4 t := by
  unfold configure at h
  split at h
  · next hstate => cases h; exact .tce u s.freeCount _ hstate (hinv hstate)
  · exact raised_leaves 4 h

theorem configureEntry_leaves {s t : State} {u : TceUnit} {i o : Nat}
    (h : configureEntry Config.MAX_STREAMS i o s u = .next t)
    (hinv : i < 256 → o < 256 → s.tce.buildState = .unbuilt → TceInv s.tce → TceInv u) : Leaves s 4 t := by
  unfold configureEntry at h
  have hmax := Config.MAX_STREAMS_range.2
  split at h
  · next hstate =>
    split at h
    · cases h; exact .answered 4 _
    · next hrange =>
      cases h; exact .tce u s.freeCount _ hstate (hinv (by omega) (by omega) hstate)
  · cases h; exact .answered 4 _

/-- A write of the plain configuration registers keeps the invariant (R202, R205, R206). -/
theorem tceInv_configured {u : TceUnit} (hu : u.buildState = .unbuilt) (h : TceInv u)
    (inputs outputs : BitVec 8) (doTerm : Bool) (blockLen endState : BitVec 32) :
    TceInv { u with
      inputs := inputs, outputs := outputs, doTerm := doTerm, blockLen := blockLen, endState := endState } := by
  refine (tceInv_iff_of_unbuilt _ ?_).mpr ((tceInv_iff_of_unbuilt u hu).mp h)
  exact hu

theorem execTceCfgGen_leaves {s t : State} {i o : Nat} {mask : BitVec 32}
    (h : execTceCfgGen i o mask s = .next t) : Leaves s 4 t := by
  refine configureEntry_leaves h fun hi ho hu hinv => ?_
  obtain ⟨hg, hrest⟩ := (tceInv_iff_of_unbuilt _ hu).mp hinv
  refine (tceInv_iff_of_unbuilt _ ?_).mpr ⟨memWrite_cfgInv hg hi ho mask, hrest⟩
  exact hu

theorem execTceCfgFb_leaves {s t : State} {i o : Nat} {mask : BitVec 32}
    (h : execTceCfgFb i o mask s = .next t) : Leaves s 4 t := by
  refine configureEntry_leaves h fun hi ho hu hinv => ?_
  obtain ⟨hg, hf, hrest⟩ := (tceInv_iff_of_unbuilt _ hu).mp hinv
  refine (tceInv_iff_of_unbuilt _ ?_).mpr ⟨hg, memWrite_cfgInv hf hi ho mask, hrest⟩
  exact hu

theorem execTceBuild_leaves {s t : State} (h : execTceBuild s = .next t) : Leaves s 4 t := by
  unfold execTceBuild tceBuild at h
  split at h
  · exact raised_leaves 4 h
  next hne =>
  have hu : s.tce.buildState = .unbuilt := not_not.mp hne
  split at h
  · cases h
    exact .tce _ s.freeCount _ hu (tceInv_errDim hu)
  next hshape =>
  dsimp only at h
  split at h
  · cases h
    exact .tce _ _ _ hu (tceInv_errBlocklen _ hu)
  split at h
  · cases h
  split at h
  · cases h
  next htotal =>
  split at h
  · cases h
  next hend =>
  cases h
  exact .tce _ _ _ hu fun hinv => tceInv_finishBuild _ hu hinv (by simpa using hshape)
    (not_lt.mp htotal) fun hdo => not_le.mp fun hle => hend ⟨hdo, hle⟩

theorem execTceLookup_leaves {s t : State} {v : BitVec 24} {st : BitVec 32}
    (h : execTceLookup v st s = .next t) : Leaves s 4 t := by
  unfold execTceLookup at h
  split at h
  · exact raised_leaves 4 h
  split at h
  · exact raised_leaves 4 h
  split at h
  · cases h; exact .answered 4 _
  · cases h

theorem execCesForecast_leaves {s t : State} {n : Nat} (h : execCesForecast n s = .next t) :
    Leaves s 5 t := by
  unfold execCesForecast at h
  split at h
  · exact raised_leaves 5 h
  · cases h; exact .answered 5 _

theorem execCesWork_leaves {s t : State} {cap avail : Nat} (h : execCesWork cap avail s = .next t) :
    Leaves s 5 t := by
  unfold execCesWork at h
  split at h
  · exact raised_leaves 5 h
  next hstate =>
  split at h
  · exact raised_leaves 5 h
  next hfault =>
  split at h
  · cases h
  next r hr =>
  cases h
  refine .ces r.regs _ _ _ (not_not.mp hstate) (by simpa using hfault) fun hbuilt hrun => ?_
  obtain ⟨r', hr', hrun', -⟩ :=
    cesLoop_spec s.tce hbuilt cap (s.cesWindow avail) s.ces hrun (by simpa using hfault)
  cases hr.symm.trans hr'
  exact hrun'

/-- What a command can do (30_encoding.md R97): the inversion of `exec`. -/
theorem exec_leaves {i : Instr} {s t : State} (h : exec i s = .next t) : Leaves s (unitOf i) t := by
  cases i with
  | sysRdreg => exact execSysRdreg_leaves h
  | strForecast => exact answerForecast_leaves 1 h
  | strWork => exact execStrWork_leaves h
  | fsdForecast => exact answerForecast_leaves 2 h
  | fsdWork => exact execFsdWork_leaves h
  | lfsrReset => cases h; exact .lfsr _ s.lutBuilt s.win.lfsrOut s.freeCount _ id
  | lfsrOut => exact execLfsrOut_leaves h
  | lfsrClk => cases h; exact .lfsr _ s.lutBuilt s.win.lfsrOut s.freeCount _ id
  | lfsrWhiten => exact execLfsrWhiten_leaves h
  | lfsrDewhiten => exact execLfsrDewhiten_leaves h
  | tceCfgDim => exact configure_leaves h fun hu hinv => tceInv_configured hu hinv _ _ _ _ _
  | tceCfgGen => exact execTceCfgGen_leaves h
  | tceCfgFb => exact execTceCfgFb_leaves h
  | tceCfgBlock => exact configure_leaves h fun hu hinv => tceInv_configured hu hinv _ _ _ _ _
  | tceCfgEnd => exact configure_leaves h fun hu hinv => tceInv_configured hu hinv _ _ _ _ _
  | tceBuild => exact execTceBuild_leaves h
  | tceLookup => exact execTceLookup_leaves h
  | cesForecast => exact execCesForecast_leaves h
  | cesWork => exact execCesWork_leaves h

/-- What a step can do: one command on the words taken from the port (an illegal word's is an answer alone), or
the host's turn (30_encoding.md R105, R106; log 3). -/
theorem step_cases {s t : State} (h : step s = .next t) :
    (∃ k rest, Leaves (s.withPort rest) k t) ∨ (decode s.port = .incomplete ∧ t = hostTurn s) := by
  unfold step at h
  split at h
  · exact .inl ⟨_, _, exec_leaves h⟩
  · exact .inl ⟨0, _, raised_leaves 0 h⟩
  · next hport => cases h; exact .inr ⟨hport, rfl⟩

end Sys2Proof.Machine
end

section
/-! The invariant of the machine (O7): what a command can leave keeps it, and so does the host's turn. -/

namespace Sys2Proof.Machine

theorem cesInv_iff (t : TceUnit) (u : CesUnit) :
    CesInv t u ↔
      (t.buildState ≠ .built → u = CesUnit.reset) ∧ (t.buildState = .built → CesRunning t u) := Iff.rfl

/-- Reset registers of CES are right for every code, built or not (10_state.md R43). -/
theorem cesInv_reset (t : TceUnit) : CesInv t CesUnit.reset :=
  (cesInv_iff t _).mpr ⟨fun _ => rfl, fun _ => by
    simp [CesRunning, CesUnit.reset, Config.START_STATE]⟩

/-- A command keeps the invariant. CES is at reset while TCE is UNBUILT, so a construction finds it fit for the
new code. -/
theorem Leaves.inv {s t : State} {k : Nat} (h : Leaves s k t) (hs : s.Inv) : t.Inv := by
  obtain ⟨hstr, hfsd, htce, hces⟩ := hs
  obtain ⟨hidle, hrunning⟩ := (cesInv_iff _ _).mp hces
  cases h with
  | answered => exact ⟨hstr, hfsd, htce, hces⟩
  | str u out n r hinv => exact ⟨hinv hstr, hfsd, htce, hces⟩
  | fsd u out n r hinv => exact ⟨hstr, hinv hfsd, htce, hces⟩
  | lfsr => exact ⟨hstr, hfsd, htce, hces⟩
  | tce u n r hstate hinv =>
    have hreset : s.ces = CesUnit.reset := hidle (by simp [hstate])
    refine ⟨hstr, hfsd, hinv htce, ?_⟩
    show CesInv u s.ces
    rw [hreset]; exact cesInv_reset u
  | ces u out n r hstate hfault hrun =>
    obtain ⟨-, -, -, -, hbuilt⟩ := (tceInv_iff_of_built _ hstate).mp htce
    exact ⟨hstr, hfsd, htce, fun h => absurd hstate h, fun _ => hrun hbuilt (hrunning hstate)⟩

theorem cfgInv_nil : CfgInv [] := ⟨List.Pairwise.nil, by simp⟩

/-- The hardware reset establishes the invariant (70_reset_and_hazards.md R321, R322). -/
theorem hardwareReset_inv (s : State) : (hardwareReset s).Inv := by
  refine ⟨by show (0 : Nat) < 832; decide, Nat.zero_le _, ?_, cesInv_reset _⟩
  exact (tceInv_iff_of_unbuilt _ rfl).mpr
    ⟨cfgInv_nil, cfgInv_nil, rfl, rfl, rfl, rfl⟩

/-- The host's turn keeps the invariant: it leaves every register or resets them all. -/
theorem hostTurn_inv {s : State} (hs : s.Inv) : (hostTurn s).Inv := by
  rcases hostTurn_units s with ⟨hstr, hfsd, -, htce, hces, -⟩ | ⟨rest, -, hreset⟩
  · unfold State.Inv
    rw [hstr, hfsd, htce, hces]
    exact hs
  · rw [hreset]; exact hardwareReset_inv _

/-- Settles O7: a command keeps the invariant by what it can leave, the host's turn by what it can do to the
units. -/
theorem stepKeepsInvariant : Obligations.StepKeepsInvariant := by
  intro s t hs h
  rcases step_cases h with ⟨k, rest, hcmd⟩ | ⟨-, rfl⟩
  · exact hcmd.inv hs
  · exact hostTurn_inv hs

end Sys2Proof.Machine
end

section
/-! Sticky bits (O16) and the frame of a command (O11), read off what a command can leave. -/

namespace Sys2Proof.Machine

/-- A command clears no sticky bit (10_state.md R32, R36, R45). -/
theorem Leaves.sticky {s t : State} {k : Nat} (h : Leaves s k t) :
    (s.lutBuilt = true → t.lutBuilt = true) ∧ (s.fsd.evSyncLoss = true → t.fsd.evSyncLoss = true) ∧
      (s.fsd.evOverflow = true → t.fsd.evOverflow = true) ∧
      (s.ces.faultTerm = true → t.ces.faultTerm = true) := by
  cases h with
  | answered => exact ⟨id, id, id, id⟩
  | str => exact ⟨id, id, id, id⟩
  | fsd u out n r hinv hloss hoverflow => exact ⟨id, hloss, hoverflow, id⟩
  | lfsr u built out n r hbuilt => exact ⟨hbuilt, id, id, id⟩
  | tce => exact ⟨id, id, id, id⟩
  | ces u out n r hstate hfault =>
    exact ⟨id, id, id, fun hlatched => absurd (hfault.symm.trans hlatched) (by decide)⟩

/-- Settles O16: no command clears a sticky bit, and the host's turn touches the units only by the reset, which
keeps `LUT.built`. -/
theorem stickyBitsStay : Obligations.StickyBitsStay := by
  intro s t h
  rcases step_cases h with ⟨k, rest, hcmd⟩ | ⟨hport, rfl⟩
  · obtain ⟨hlut, hunits⟩ := hcmd.sticky
    exact ⟨hlut, fun _ => hunits⟩
  · rcases hostTurn_units s with ⟨-, hfsd, -, -, hces, hlut⟩ | ⟨rest, hhost, hreset⟩
    · rw [hfsd, hces, hlut]
      exact ⟨id, fun _ => ⟨id, id, id⟩⟩
    · rw [hreset, hardwareReset_lutBuilt]
      exact ⟨id, fun hno => absurd ⟨hport, rest, hhost⟩ hno⟩

/-! ### What a command keeps -/

/-- Settles O11: each form a command's result can have writes the addressed unit alone. -/
theorem commandsKeepOtherUnits : Obligations.CommandsKeepOtherUnits := by
  intro i s t h
  have hleaves := exec_leaves h
  generalize unitOf i = k at hleaves
  cases hleaves <;> simp

end Sys2Proof.Machine
end

section
/-! What a command reads (O12; 10_state.md R20, R36). -/

namespace Sys2Proof.Machine

/-- The first items of a written window, no more than were emitted, are items emitted (46_host_commands.md
R274). -/
theorem writeWindow_take_of_le {α : Type} (emitted old : List α) {n : Nat} (h : n ≤ emitted.length) :
    (writeWindow emitted old).take n = emitted.take n := by
  rw [writeWindow, List.take_append_of_le_length h]

theorem valField_respond (s : State) (e : Events) (val : BitVec 24) (rx : Option Word) :
    valField (s.respond e val rx) = val.toNat := valField_packRw _ .ok e val rx rfl

theorem valField_raise (s : State) (e : Status) (hasRx : Bool) : valField (s.raise e hasRx) = 0 :=
  valField_packRw _ e {} 0 _ rfl

theorem valOf_toNat_le (n : Nat) : (valOf n).toNat ≤ n := by
  rw [valOf, BitVec.toNat_ofNat]; exact Nat.mod_le _ _

theorem valOrFree_toNat_le (free n : Nat) : (valOrFree free n).toNat ≤ n := by
  unfold valOrFree
  split
  · exact valOf_toNat_le n
  · have := (Config.freeVal free).isLt
    omega

/-- The windows of two states with the same filled items and the same free values are the same (log 6). -/
theorem strWindow_congr {s s' : State} (hfree : s.freeCount = s'.freeCount) (hin : s.win.strIn = s'.win.strIn)
    (n : Nat) : s'.strWindow n = s.strWindow n := by
  unfold State.strWindow; rw [hfree, hin]

theorem fsdWindow_congr {s s' : State} (hfree : s.freeCount = s'.freeCount) (hin : s.win.fsdIn = s'.win.fsdIn)
    (n : Nat) : s'.fsdWindow n = s.fsdWindow n := by
  unfold State.fsdWindow; rw [hfree, hin]

theorem lfsrWindow_congr {s s' : State} (hfree : s.freeCount = s'.freeCount)
    (hin : s.win.lfsrIn = s'.win.lfsrIn) (n : Nat) : s'.lfsrWindow n = s.lfsrWindow n := by
  unfold State.lfsrWindow; rw [hfree, hin]

/-- What a command left in `t` and in `t'` is the same as seen by its own unit: the registers `reg`, the
response, and the produced items of the output window `out` (10_state.md R20). -/
def SameResult {ρ α : Type} (reg : State → ρ) (out : State → List α) (t t' : State) : Prop :=
  reg t' = reg t ∧ t'.response = t.response ∧ (out t').take (valField t) = (out t).take (valField t)

/-- A command that answers with VAL 0 in both states produces nothing to compare. -/
theorem sameResult_withResponse {ρ α : Type} {reg : State → ρ} (out : State → List α) {s s' : State}
    (r : Option Response) (hreg : reg (s'.withResponse r) = reg (s.withResponse r))
    (hval : valField (s.withResponse r) = 0) :
    SameResult reg out (s.withResponse r) (s'.withResponse r) :=
  ⟨hreg, rfl, by rw [hval, List.take_zero, List.take_zero]⟩

/-- A command that emits the same items in both states produces the same, whatever stood in the output window
(46_host_commands.md R274). -/
theorem sameResult_of_emitted {ρ α : Type} {reg : State → ρ} {out : State → List α} {s s' : State} {e : Events}
    {val : BitVec 24} {rx : Option Word} {emitted old old' : List α}
    (hreg : reg (s'.respond e val rx) = reg (s.respond e val rx))
    (hout : out (s.respond e val rx) = writeWindow emitted old)
    (hout' : out (s'.respond e val rx) = writeWindow emitted old') (hval : val.toNat ≤ emitted.length) :
    SameResult reg out (s.respond e val rx) (s'.respond e val rx) := by
  refine ⟨hreg, rfl, ?_⟩
  rw [valField_respond, hout, hout', writeWindow_take_of_le _ _ hval, writeWindow_take_of_le _ _ hval]

/-- A forecast answers by its operand alone, with VAL 0 (30_encoding.md R103). -/
theorem answerForecast_answer (n : Nat) :
    ∃ r, ∀ s, answerForecast s n = .next (s.withResponse r) ∧ valField (s.withResponse r) = 0 := by
  by_cases hbig : 2 ^ 32 ≤ n
  · exact ⟨_, fun s => ⟨congrArg Host.Outcome.next (if_pos hbig), valField_raise s .range true⟩⟩
  · exact ⟨_, fun s => ⟨congrArg Host.Outcome.next (if_neg hbig), valField_respond s {} 0 _⟩⟩

theorem answerForecast_sameResult {ρ α : Type} {reg : State → ρ} (out : State → List α) {s s' t : State}
    {n : Nat} (hreg : ∀ r, reg (s'.withResponse r) = reg (s.withResponse r))
    (h : answerForecast s n = .next t) :
    ∃ t', answerForecast s' n = .next t' ∧ SameResult reg out t t' := by
  obtain ⟨r, hr⟩ := answerForecast_answer n
  cases (hr s).1.symm.trans h
  exact ⟨_, (hr s').1, sameResult_withResponse out r (hreg r) (hr s).2⟩

theorem execStrWork_sameResult {s s' t : State} {cap avail : Nat} (hfree : s.freeCount = s'.freeCount)
    (hstr : s.str = s'.str) (hin : s.win.strIn = s'.win.strIn) (h : execStrWork cap avail s = .next t) :
    ∃ t', execStrWork cap avail s' = .next t' ∧ SameResult State.str (·.win.strOut) t t' := by
  cases h
  unfold execStrWork
  rw [strWindow_congr hfree hin, ← hstr]
  exact ⟨_, rfl, sameResult_of_emitted rfl rfl rfl (valOf_toNat_le _)⟩

theorem execFsdWork_sameResult {s s' t : State} {cap avail : Nat} (hfree : s.freeCount = s'.freeCount)
    (hfsd : s.fsd = s'.fsd) (hin : s.win.fsdIn = s'.win.fsdIn) (h : execFsdWork cap avail s = .next t) :
    ∃ t', execFsdWork cap avail s' = .next t' ∧ SameResult State.fsd (·.win.fsdOut) t t' := by
  unfold execFsdWork at h ⊢
  rw [fsdWindow_congr hfree hin, ← hfsd]
  cases hc : classifyWindow (s.fsdWindow avail) with
  | none => rw [hc] at h; cases h
  | some items =>
    rw [hc] at h
    cases h
    exact ⟨_, rfl, sameResult_of_emitted rfl rfl rfl (valOf_toNat_le _)⟩

theorem execLfsrWhiten_sameResult {s s' t : State} {n : Nat} (hfree : s.freeCount = s'.freeCount)
    (hlfsr : s.lfsr = s'.lfsr) (hin : s.win.lfsrIn = s'.win.lfsrIn) (h : execLfsrWhiten n s = .next t) :
    ∃ t', execLfsrWhiten n s' = .next t' ∧ SameResult State.lfsr (·.win.lfsrOut) t t' := by
  unfold execLfsrWhiten at h ⊢
  split at h
  · next hn =>
    cases h
    exact ⟨_, by rw [if_pos hn]; rfl,
      sameResult_withResponse _ _ hlfsr.symm (valField_raise s .range false)⟩
  · next hn =>
    cases h
    rw [if_neg hn, lfsrWindow_congr hfree hin, ← hlfsr]
    refine ⟨_, rfl, sameResult_of_emitted rfl rfl rfl ?_⟩
    have hlen : (whitenBytes Config.TAP_MASK Config.OUT_LUT s.lfsr.s (s.lfsrWindow n)).2.length = n - 1 := by
      simp [whitenBytes, State.lfsrWindow]
    rw [hlen]; exact valOf_toNat_le _

theorem execLfsrDewhiten_sameResult {s s' t : State} {m : Nat} (hfree : s.freeCount = s'.freeCount)
    (hlfsr : s.lfsr = s'.lfsr) (hin : s.win.lfsrIn = s'.win.lfsrIn) (h : execLfsrDewhiten m s = .next t) :
    ∃ t', execLfsrDewhiten m s' = .next t' ∧ SameResult State.lfsr (·.win.lfsrOut) t t' := by
  cases h
  unfold execLfsrDewhiten
  rw [lfsrWindow_congr hfree hin, ← hlfsr, ← hfree]
  refine ⟨_, rfl, sameResult_of_emitted rfl rfl rfl ?_⟩
  have hlen : (dewhitenBytes Config.FRAMING_BYTE Config.TAP_MASK Config.OUT_LUT s.lfsr.s
      (s.lfsrWindow m)).2.length = m + 1 := by
    simp [dewhitenBytes, State.lfsrWindow]
  rw [hlen]; exact valOrFree_toNat_le _ _

theorem exec_str_sameResult {i : Instr} {s s' t : State} (hunit : unitOf i = 1)
    (hfree : s.freeCount = s'.freeCount) (hstr : s.str = s'.str) (hin : s.win.strIn = s'.win.strIn)
    (h : exec i s = .next t) :
    ∃ t', exec i s' = .next t' ∧ SameResult State.str (·.win.strOut) t t' := by
  cases i with
  | strForecast => exact answerForecast_sameResult _ (fun _ => hstr.symm) h
  | strWork => exact execStrWork_sameResult hfree hstr hin h
  | _ => cases hunit

theorem exec_fsd_sameResult {i : Instr} {s s' t : State} (hunit : unitOf i = 2)
    (hfree : s.freeCount = s'.freeCount) (hfsd : s.fsd = s'.fsd) (hin : s.win.fsdIn = s'.win.fsdIn)
    (h : exec i s = .next t) :
    ∃ t', exec i s' = .next t' ∧ SameResult State.fsd (·.win.fsdOut) t t' := by
  cases i with
  | fsdForecast => exact answerForecast_sameResult _ (fun _ => hfsd.symm) h
  | fsdWork => exact execFsdWork_sameResult hfree hfsd hin h
  | _ => cases hunit

/-- `LFSR.OUT` is apart: its VAL is the output bit and no count of items. -/
theorem exec_lfsr_sameResult {i : Instr} {s s' t : State} (hunit : unitOf i = 3) (hi : i ≠ .lfsrOut)
    (hfree : s.freeCount = s'.freeCount) (hlfsr : s.lfsr = s'.lfsr) (hin : s.win.lfsrIn = s'.win.lfsrIn)
    (h : exec i s = .next t) :
    ∃ t', exec i s' = .next t' ∧ SameResult State.lfsr (·.win.lfsrOut) t t' := by
  cases i with
  | lfsrReset =>
    cases h
    exact ⟨_, rfl, sameResult_withResponse _ _ rfl (valField_respond _ {} 0 none)⟩
  | lfsrOut => exact absurd rfl hi
  | lfsrClk =>
    cases h
    exact ⟨_, rfl, sameResult_withResponse _ _ (by simp [hlfsr]) (valField_respond _ {} 0 none)⟩
  | lfsrWhiten => exact execLfsrWhiten_sameResult hfree hlfsr hin h
  | lfsrDewhiten => exact execLfsrDewhiten_sameResult hfree hlfsr hin h
  | _ => cases hunit

/-- `LFSR.OUT` reads the register and not `LUT.built` (10_state.md R36). -/
theorem execLfsrOut_local {s s' t : State} (hlfsr : s.lfsr = s'.lfsr) (h : execLfsrOut s = .next t) :
    ∃ t', execLfsrOut s' = .next t' ∧ t'.lfsr = t.lfsr ∧ t'.response = t.response := by
  cases h
  exact ⟨_, rfl, by simp [hlfsr], by simp [hlfsr]⟩

/-- Settles O12: unit by unit, the same registers, window items and free values give the same command. -/
theorem unitsDoNotReadEachOther : Obligations.UnitsDoNotReadEachOther := by
  intro i s s' t hfree h
  refine ⟨fun hunit hstr hin => exec_str_sameResult hunit hfree hstr hin h,
    fun hunit hfsd hin => exec_fsd_sameResult hunit hfree hfsd hin h, fun hunit hlfsr hin => ?_⟩
  by_cases hi : i = .lfsrOut
  · subst hi
    obtain ⟨t', ht', hreg, hresp⟩ := execLfsrOut_local hlfsr h
    exact ⟨t', ht', hreg, hresp, fun hne => absurd rfl hne⟩
  · obtain ⟨t', ht', hreg, hresp, hout⟩ := exec_lfsr_sameResult hunit hi hfree hlfsr hin h
    exact ⟨t', ht', hreg, hresp, fun _ => hout⟩

end Sys2Proof.Machine
end

section
/-! The register map of `SYS.RDREG` (O18; 10_state.md R47 to R58). -/

namespace Sys2Proof.Machine

/-- Fields side by side: the high one is weighted by the width of the low one. -/
theorem toNat_append_eq_add {m n : Nat} (x : BitVec m) (y : BitVec n) :
    (x ++ y).toNat = x.toNat * 2 ^ n + y.toNat := by
  rw [BitVec.toNat_append, ← Nat.shiftLeft_add_eq_or_of_lt y.isLt, Nat.shiftLeft_eq]

/-- A flag's weight at a position is the flag's bit, shifted there. -/
theorem flagAt_eq (b : Bool) (k : Nat) : flagAt b k = (bit b).toNat * 2 ^ k := by
  cases b <;> simp [bit, flagAt]

/-! #### Codes of the control states as flags (10_state.md R28, R37, R40, R42) -/

theorem fsdPhaseBit_eq (p : FsdPhase) : fsdPhaseBit p = bit (p == .locked) := by cases p <;> rfl

theorem realizationBit_eq (r : Realization) : realizationBit r = bit (r == .siao) := by cases r <;> rfl

theorem buildStateCode_eq (b : BuildState) :
    buildStateCode b = bit (b == .failed) ++ bit (b == .built) := by cases b <;> rfl

theorem cesPhaseCode_eq (p : CesPhase) :
    cesPhaseCode p = bit (p == .terminating) ++ bit (p == .encodingPayload) := by cases p <;> rfl

theorem strStatus_toNat (u : StrUnit) :
    (strStatus u).toNat = flagAt u.segLocked 0 + u.symbolIndex.toNat * 2 := by
  simp only [strStatus, toNat_append_eq_add, BitVec.ofNat_eq_ofNat,
    BitVec.toNat_zero, flagAt_eq]
  omega

theorem fsdStatus_toNat (u : FsdUnit) :
    (fsdStatus u).toNat = flagAt (u.state == .locked) 0 + flagAt u.inField2 1 + flagAt u.evSyncLoss 2 +
      flagAt u.evOverflow 3 := by
  simp only [fsdStatus, fsdPhaseBit_eq, toNat_append_eq_add, BitVec.ofNat_eq_ofNat,
    BitVec.toNat_zero, flagAt_eq]
  omega

theorem tceStatus_toNat (u : TceUnit) :
    (tceStatus u).toNat = flagAt (u.buildState == .built) 0 + flagAt (u.buildState == .failed) 1 +
      flagAt u.errDim 2 + flagAt u.errBlocklen 3 + flagAt u.warnZeroOut 4 + flagAt u.warnZeroIn 5 +
      flagAt (u.realization == .siao) 6 + flagAt u.fbEn 7 + flagAt u.doTerm 8 + flagAt u.hasFb 9 := by
  simp only [tceStatus, buildStateCode_eq, realizationBit_eq, toNat_append_eq_add, BitVec.ofNat_eq_ofNat,
    BitVec.toNat_zero, flagAt_eq]
  omega

theorem tceDims_toNat (u : TceUnit) : (tceDims u).toNat = u.inputs.toNat + u.outputs.toNat * 2 ^ 8 := by
  simp only [tceDims, toNat_append_eq_add, BitVec.ofNat_eq_ofNat, BitVec.toNat_zero]
  omega

theorem tceDelays_toNat (u : TceUnit) :
    (tceDelays u).toNat = u.totalDelay.toNat + u.maxDelay.toNat * 2 ^ 8 + u.totalSoai.toNat * 2 ^ 16 +
      u.totalSiao.toNat * 2 ^ 24 := by
  simp only [tceDelays, toNat_append_eq_add]
  omega

theorem cesStatus_toNat (u : CesUnit) :
    (cesStatus u).toNat = flagAt (u.phase == .encodingPayload) 0 + flagAt (u.phase == .terminating) 1 +
      flagAt u.faultTerm 2 := by
  simp only [cesStatus, cesPhaseCode_eq, toNat_append_eq_add, BitVec.ofNat_eq_ofNat,
    BitVec.toNat_zero, flagAt_eq]
  omega

theorem lutStatus_toNat (built : Bool) : (lutStatus built).toNat = flagAt built 0 := by
  simp only [lutStatus, toNat_append_eq_add, BitVec.ofNat_eq_ofNat,
    BitVec.toNat_zero, flagAt_eq]
  omega

/-- A register with zeros above its one field. -/
theorem zero_append_toNat {m n : Nat} (x : BitVec n) : ((0 : BitVec m) ++ x).toNat = x.toNat := by
  simp

/-- The packed registers are the sums of their fields (10_state.md R47 to R58). -/
theorem statusRegister_toNat (s : State) (r : BitVec 8) :
    (statusRegister s r).map BitVec.toNat = registerMap s r.toNat := by
  unfold statusRegister
  generalize r.toNat = k
  split
  · exact congrArg some (strStatus_toNat _)
  · exact congrArg some (fsdStatus_toNat _)
  · exact congrArg some (zero_append_toNat _)
  · exact congrArg some (zero_append_toNat _)
  · exact congrArg some (zero_append_toNat _)
  · exact congrArg some (lutStatus_toNat _)
  · exact congrArg some (tceStatus_toNat _)
  · exact congrArg some (tceDims_toNat _)
  · exact congrArg some (tceDelays_toNat _)
  · rfl
  · rfl
  · exact congrArg some (cesStatus_toNat _)
  · rfl
  · rfl
  · exact congrArg some (zero_append_toNat _)
  · symm
    apply registerMap.eq_16 <;> assumption

/-- Settles O18: the packing of the registers is the map's sums, and `SYS.RDREG` answers one of them or
E_RANGE. -/
theorem rdregAnswersTheMap : Obligations.RdregAnswersTheMap := by
  intro r s
  rw [← statusRegister_toNat]
  show execSysRdreg r s = _
  unfold execSysRdreg
  cases statusRegister s r with
  | none => exact congrArg Host.Outcome.next (raise_eq s .range true)
  | some v => simp [respond_eq, flagAt]

end Sys2Proof.Machine
end

section
/-! The host's turn (O6), the tables of TCE (O15) and the absence of faults (O9), read off what a step can do
(20_memory.md R73, R75, R82). -/

namespace Sys2Proof.Machine

/-! ### The host's turn -/

/-- With no whole command on the port the step is the host's next move (log 3). -/
theorem step_of_hostMove {s : State} {m : HostMove} {rest : List HostMove}
    (hport : decode s.port = .incomplete) (hhost : s.host = m :: rest) :
    step s = .next (hostMove (s.withHost rest) m) := by
  simp [step, hport, hostTurn, hhost]

/-- With no whole command and no move left the machine waits (20_memory.md R75). -/
theorem step_of_idle {s : State} (hport : decode s.port = .incomplete) (hhost : s.host = []) :
    step s = .next s := by
  simp [step, hport, hostTurn, hhost]

/-- Settles O6: one clause per move at the head of the host's queue. -/
theorem hostMovesBetweenCommands : Obligations.HostMovesBetweenCommands := by
  intro s rest hport
  refine ⟨step_of_idle hport, fun ws hhost => step_of_hostMove hport hhost, fun items hhost => ?present,
    fun items hhost => ?append, step_of_hostMove hport, step_of_hostMove hport, step_of_hostMove hport,
    step_of_hostMove hport⟩
  case present => rw [step_of_hostMove hport hhost]; cases items <;> rfl
  case append => rw [step_of_hostMove hport hhost]; cases items <;> rfl

/-! ### TCE after its construction -/

/-- A command writes TCE in state UNBUILT alone (44_trellis_code_engine.md R207). -/
theorem Leaves.tce_eq {s t : State} {k : Nat} (h : Leaves s k t) (hstate : s.tce.buildState ≠ .unbuilt) :
    t.tce = s.tce := by
  cases h with
  | tce u n r hunbuilt => exact absurd hunbuilt hstate
  | answered | str | fsd | lfsr | ces => rfl

/-- Settles O15: commands keep TCE once it is not UNBUILT, and of the host's moves only the reset touches it. -/
theorem tablesAreImmutable : Obligations.TablesAreImmutable := by
  intro s t h hstate
  rcases step_cases h with ⟨k, rest, hcmd⟩ | ⟨hport, rfl⟩
  · exact .inl (hcmd.tce_eq hstate)
  · rcases hostTurn_units s with ⟨-, -, -, htce, -⟩ | ⟨rest, hhost, hreset⟩
    · exact .inl htce
    · exact .inr ⟨⟨hport, rest, hhost⟩, by rw [hreset, hardwareReset_tce]⟩

/-! ### No fault under the invariant -/

theorem noFault_next (s : State) : NoFault (.next s) := fun _ h => by cases h

theorem noFault_refused (r : Refusal) : NoFault (.refused r) := fun _ h => by cases h

theorem configure_noFault (s : State) (u : TceUnit) : NoFault (configure s u) := by
  unfold configure; split <;> exact noFault_next _

theorem execFsdWork_noFault (cap avail : Nat) (s : State) : NoFault (execFsdWork cap avail s) := by
  unfold execFsdWork
  split
  · exact noFault_refused _
  · exact noFault_next _

theorem execLfsrWhiten_noFault (n : Nat) (s : State) : NoFault (execLfsrWhiten n s) := by
  unfold execLfsrWhiten; split <;> exact noFault_next _

theorem execSysRdreg_noFault (reg : BitVec 8) (s : State) : NoFault (execSysRdreg reg s) := by
  unfold execSysRdreg; split <;> exact noFault_next _

theorem execCesForecast_noFault (n : Nat) (s : State) : NoFault (execCesForecast n s) := by
  unfold execCesForecast; split <;> exact noFault_next _

/-- The construction ends in an answer or in one of its three refusals (44_trellis_code_engine.md R208, R220,
R221). -/
theorem tceBuild_noFault (maxStreams maxTotalDelay : Nat) (s : State) :
    NoFault (tceBuild maxStreams maxTotalDelay s) := by
  unfold tceBuild
  split
  · exact noFault_next _
  split
  · exact noFault_next _
  dsimp only
  split
  · exact noFault_next _
  split
  · exact noFault_refused _
  split
  · exact noFault_refused _
  split
  · exact noFault_refused _
  · exact noFault_next _

/-- A lookup that passes its checks reads inside the built table (44_trellis_code_engine.md R230). -/
theorem execTceLookup_noFault {s : State} (htce : TceInv s.tce) (v : BitVec 24) (st : BitVec 32) :
    NoFault (execTceLookup v st s) := by
  unfold execTceLookup
  split
  · exact noFault_next _
  next hstate =>
  split
  · exact noFault_next _
  next hrange =>
  obtain ⟨hst, hv⟩ := not_or.mp hrange
  obtain ⟨-, -, -, -, -, -, -, -, -, hlen, -⟩ := (tceInv_iff_of_built _ (not_not.mp hstate)).mp htce
  obtain ⟨e, -, he⟩ := trellisRead_in_range s.tce st.toNat v.toNat _ hlen (not_le.mp hst) (not_le.mp hv)
  rw [he]
  exact noFault_next _

/-- On a built code without a latched fault the loop answers (20_memory.md R73). -/
theorem execCesWork_noFault {s : State} (htce : TceInv s.tce) (hces : CesInv s.tce s.ces) (cap avail : Nat) :
    NoFault (execCesWork cap avail s) := by
  unfold execCesWork
  split
  · exact noFault_next _
  next hstate =>
  split
  · exact noFault_next _
  next hfault =>
  have hbuilt : s.tce.buildState = .built := not_not.mp hstate
  obtain ⟨-, -, -, -, hbuiltInv⟩ := (tceInv_iff_of_built _ hbuilt).mp htce
  obtain ⟨-, hrunning⟩ := (cesInv_iff _ _).mp hces
  obtain ⟨r, hr, -⟩ := cesLoop_spec s.tce hbuiltInv cap (s.cesWindow avail) s.ces (hrunning hbuilt)
    (by simpa using hfault)
  rw [hr]
  exact noFault_next _

/-- No command faults from a state with the invariant; only `TCE.LOOKUP` and `CES.WORK` need it (log 14). -/
theorem exec_noFault (i : Instr) {s : State} (hs : s.Inv) : NoFault (exec i s) := by
  obtain ⟨-, -, htce, hces⟩ := hs
  cases i with
  | sysRdreg reg => exact execSysRdreg_noFault reg s
  | fsdWork cap avail => exact execFsdWork_noFault cap avail s
  | lfsrWhiten n => exact execLfsrWhiten_noFault n s
  | tceCfgDim | tceCfgBlock | tceCfgEnd => exact configure_noFault s _
  | tceBuild => exact tceBuild_noFault _ _ s
  | tceLookup v st => exact execTceLookup_noFault htce v st
  | cesForecast n => exact execCesForecast_noFault n s
  | cesWork cap avail => exact execCesWork_noFault htce hces cap avail
  | strForecast | strWork | fsdForecast | lfsrReset | lfsrOut | lfsrClk | lfsrDewhiten | tceCfgGen | tceCfgFb =>
    exact noFault_next _

/-- Settles O9: a command on the words taken does not fault, and neither an illegal word nor the host's turn
can. -/
theorem invariantStatesDoNotFault : Obligations.InvariantStatesDoNotFault := by
  intro s hs
  unfold step
  split
  · exact exec_noFault _ hs
  · exact noFault_next _
  · exact noFault_next _

end Sys2Proof.Machine
end

section
/-! Splitting a run at a cut of the stream (O33, O60; 20_memory.md R78): what one pass of a loop does, said once
for every capacity and for every continuation of the items. -/

namespace Sys2Proof.Machine

/-! ### FSD: scan and lock on a first piece -/

/-- The first marker of a piece is the first of the whole stream (42_field_sync_demux.md R144). -/
theorem fsdScan_append_of_cons {w1 xs : List MarkedSample} {x : MarkedSample} (h : fsdScan w1 = x :: xs)
    (w2 : List MarkedSample) : fsdScan (w1 ++ w2) = x :: (xs ++ w2) := by
  unfold fsdScan at h ⊢
  rw [List.dropWhile_append, h]; rfl

/-- A first piece without a marker is skipped (R144). -/
theorem fsdScan_append_of_nil {w1 : List MarkedSample} (h : fsdScan w1 = []) (w2 : List MarkedSample) :
    fsdScan (w1 ++ w2) = fsdScan w2 := by
  unfold fsdScan at h ⊢
  rw [List.dropWhile_append, h]; rfl

/-- Scan and lock on a first piece of the items, and again on what they left of it followed by the others, do what
they do on all of them (42_field_sync_demux.md R144, R145). -/
theorem fsdLock_append (u : FsdUnit) (w1 w2 : List MarkedSample) :
    fsdLock (fsdLock u w1).1 ((fsdLock u w1).2 ++ w2) = fsdLock u (w1 ++ w2) := by
  cases hu : u.state with
  | locked => simp [fsdLock, hu]
  | searching =>
    cases hscan : fsdScan w1 with
    | nil => simp [fsdLock, hu, hscan, fsdScan_append_of_nil hscan]
    | cons x xs => simp [fsdLock, hu, hscan, fsdScan_append_of_cons hscan]

/-- A boundary found in the first piece is the boundary of the whole stream. -/
theorem fsdLock_append_of_ne_nil {u : FsdUnit} {w1 : List MarkedSample} (h : (fsdLock u w1).2 ≠ [])
    (w2 : List MarkedSample) :
    fsdLock u (w1 ++ w2) = ((fsdLock u w1).1, (fsdLock u w1).2 ++ w2) := by
  cases hu : u.state with
  | locked => simp [fsdLock, hu]
  | searching =>
    cases hscan : fsdScan w1 with
    | nil => simp [fsdLock, hu, hscan] at h
    | cons x xs => simp [fsdLock, hu, hscan, fsdScan_append_of_cons hscan]

/-! ### FSD: one pass -/

/-- The run of R146 to R150 from a boundary on, for a capacity of `cap + 1`. -/
def fsdFromBoundary (segs cap : Nat) (u : FsdUnit) (items : List MarkedSample) : FsdRun :=
  if items.length < Config.SEG_LEN then ⟨u, items, [], false, false⟩
  else
    match items.head?.map MarkedSample.marker with
    | some .fs1 => fsdRun segs (cap + 1) (fsdSetCounters u .fs1) (items.drop Config.SEG_LEN)
    | some .fs2 => fsdRun segs (cap + 1) (fsdSetCounters u .fs2) (items.drop Config.SEG_LEN)
    | some .seg =>
      let r := fsdRun segs cap (fsdAfterEmit segs u) (items.drop Config.SEG_LEN)
      { r with out := fsdSegment segs u items :: r.out, overflow := fsdOverflows segs u || r.overflow }
    | _ => ⟨fsdAfterLoss u, items, [], true, false⟩

@[simp] theorem fsdRun_zero (segs : Nat) (u : FsdUnit) (items : List MarkedSample) :
    fsdRun segs 0 u items = ⟨u, items, [], false, false⟩ := rfl

theorem SEG_LEN_eq : Config.SEG_LEN = 832 := rfl

/-- Any fuel above `items.length / SEG_LEN` gives the run. -/
theorem fsdLoop_eq_fsdRun (segs fuel cap : Nat) (u : FsdUnit) (items : List MarkedSample)
    (h : items.length < fuel * 832) : fsdLoop segs fuel cap u items = fsdRun segs cap u items := by
  have hrun : items.length < (items.length / Config.SEG_LEN + 1) * Config.SEG_LEN :=
    Nat.mul_comm _ Config.SEG_LEN ▸ Nat.lt_mul_div_succ _ (by decide)
  exact fsdLoop_fuel segs _ _ cap u items h hrun

/-- With capacity left a run is scan and lock, then what starts at the boundary (R152). -/
theorem fsdRun_succ (segs cap : Nat) (u : FsdUnit) (items : List MarkedSample) :
    fsdRun segs (cap + 1) u items = fsdFromBoundary segs cap (fsdLock u items).1 (fsdLock u items).2 := by
  have hlen := (fsdLock_spec segs u items).1
  have hfuel : ((fsdLock u items).2.drop Config.SEG_LEN).length < items.length / Config.SEG_LEN * 832 ∨
      (fsdLock u items).2.length < Config.SEG_LEN := by
    rw [List.length_drop, SEG_LEN_eq]; omega
  unfold fsdRun fsdLoop fsdFromBoundary
  simp only
  cases hboundary : (fsdLock u items).2 with
  | nil => simp [SEG_LEN_eq]
  | cons x xs =>
    rw [hboundary] at hfuel
    by_cases hshort : xs.length + 1 < Config.SEG_LEN
    · simp [hshort]
    · have hdrop := hfuel.resolve_right hshort
      simp only [List.length_cons, hshort, if_false, List.head?_cons, Option.map_some]
      cases x.marker <;> simp only [fsdLoop_eq_fsdRun _ _ _ _ _ hdrop]

/-- What the first pass of an FSD run on `items` does when it may produce, for every capacity and every
continuation `w` of the items (42_field_sync_demux.md R144 to R150). -/
inductive FsdPass (segs : Nat) (u : FsdUnit) (items : List MarkedSample) : Prop
  /-- Less than a whole segment from the boundary on: the run stops, and more items resume it (R146). -/
  | waits (v : FsdUnit) (rest : List MarkedSample)
      (hstop : ∀ cap, fsdRun segs (cap + 1) u items = ⟨v, rest, [], false, false⟩)
      (hresume : ∀ cap w, fsdRun segs (cap + 1) v (rest ++ w) = fsdRun segs (cap + 1) u (items ++ w))
  /-- A sync loss ends the run (R150). -/
  | loses (v : FsdUnit) (rest : List MarkedSample)
      (hstop : ∀ cap, fsdRun segs (cap + 1) u items = ⟨v, rest, [], true, false⟩)
  /-- A field sync is consumed and nothing produced (R147). -/
  | fieldSync (v : FsdUnit) (rest : List MarkedSample) (hlt : rest.length < items.length)
      (hgo : ∀ cap w, fsdRun segs (cap + 1) u (items ++ w) = fsdRun segs (cap + 1) v (rest ++ w))
  /-- A segment is produced (R148, R149). -/
  | segment (v : FsdUnit) (rest : List MarkedSample) (d : DataSegment) (clamped : Bool)
      (hlt : rest.length < items.length)
      (hgo : ∀ cap w, fsdRun segs (cap + 1) u (items ++ w) =
        { fsdRun segs cap v (rest ++ w) with
          out := d :: (fsdRun segs cap v (rest ++ w)).out
          overflow := clamped || (fsdRun segs cap v (rest ++ w)).overflow })

/-- With a whole segment from the boundary on, the pass looks at that segment alone. -/
theorem fsdPass_of_whole {segs : Nat} {u v : FsdUnit} {items xs : List MarkedSample} {x : MarkedSample}
    (hlock : fsdLock u items = (v, x :: xs)) (hlong : Config.SEG_LEN ≤ (x :: xs).length) :
    FsdPass segs u items := by
  have hgo (cap : Nat) (w : List MarkedSample) :
      fsdRun segs (cap + 1) u (items ++ w) = fsdFromBoundary segs cap v ((x :: xs) ++ w) := by
    rw [fsdRun_succ, fsdLock_append_of_ne_nil (by rw [hlock]; exact List.cons_ne_nil x xs), hlock]
  have hwhole (w : List MarkedSample) : ¬ ((x :: xs) ++ w).length < Config.SEG_LEN := by
    rw [List.length_append]; omega
  have hhead (w : List MarkedSample) : ((x :: xs) ++ w).head?.map MarkedSample.marker = some x.marker := rfl
  have hdrop (w : List MarkedSample) :
      ((x :: xs) ++ w).drop Config.SEG_LEN = (x :: xs).drop Config.SEG_LEN ++ w :=
    List.drop_append_of_le_length hlong
  have hsegment (w : List MarkedSample) : fsdSegment segs v ((x :: xs) ++ w) = fsdSegment segs v (x :: xs) := by
    unfold fsdSegment; rw [List.take_append_of_le_length hlong]
  have hlt : ((x :: xs).drop Config.SEG_LEN).length < items.length := by
    have hle : (x :: xs).length ≤ items.length := by
      simpa only [hlock] using (fsdLock_spec segs u items).1
    rw [List.length_drop]; rw [SEG_LEN_eq] at hlong ⊢; omega
  cases hmark : x.marker with
  | none =>
    refine .loses (fsdAfterLoss v) (x :: xs) fun cap => ?_
    rw [fsdRun_succ, hlock, fsdFromBoundary, if_neg (not_lt.mpr hlong)]; simp [hmark]
  | fs1 | fs2 =>
    refine .fieldSync (fsdSetCounters v x.marker) _ hlt fun cap w => ?_
    rw [hgo, fsdFromBoundary, if_neg (hwhole w), hhead, hmark, hdrop]
  | seg =>
    refine .segment (fsdAfterEmit segs v) _ (fsdSegment segs v (x :: xs)) (fsdOverflows segs v) hlt
      fun cap w => ?_
    rw [hgo, fsdFromBoundary, if_neg (hwhole w), hhead, hmark, hdrop, hsegment]

/-- With less than a whole segment from the boundary on, the pass waits. -/
theorem fsdPass_of_short {segs : Nat} {u : FsdUnit} {items : List MarkedSample}
    (hshort : (fsdLock u items).2.length < Config.SEG_LEN) : FsdPass segs u items := by
  refine .waits (fsdLock u items).1 (fsdLock u items).2 (fun cap => ?_) (fun cap w => ?_)
  · rw [fsdRun_succ, fsdFromBoundary, if_pos hshort]
  · rw [fsdRun_succ, fsdRun_succ, fsdLock_append]

/-- Every first pass is one of these. -/
theorem fsdPass_cases (segs : Nat) (u : FsdUnit) (items : List MarkedSample) : FsdPass segs u items := by
  by_cases hshort : (fsdLock u items).2.length < Config.SEG_LEN
  · exact fsdPass_of_short hshort
  · obtain ⟨x, xs, hboundary⟩ : ∃ x xs, (fsdLock u items).2 = x :: xs :=
      List.exists_cons_of_ne_nil fun h => hshort (by simp [h, SEG_LEN_eq])
    exact fsdPass_of_whole (Prod.ext rfl hboundary) (hboundary ▸ not_lt.mp hshort)

/-! ### FSD: the split -/

/-- A run that did not use up its capacity is the same with a larger one. -/
theorem fsdRun_of_spare_capacity {segs b c : Nat} {u : FsdUnit} {items : List MarkedSample}
    (hspare : (fsdRun segs b u items).out.length < b) (hle : b ≤ c) :
    fsdRun segs c u items = fsdRun segs b u items := by
  induction hn : items.length using Nat.strong_induction_on generalizing b c u items with
  | _ n ih =>
    subst hn
    cases b with
    | zero => exact absurd hspare (Nat.not_lt_zero _)
    | succ b =>
      obtain ⟨c, rfl⟩ : ∃ k, c = k + 1 := ⟨c - 1, by omega⟩
      cases fsdPass_cases segs u items with
      | waits v rest hstop => rw [hstop, hstop]
      | loses v rest hstop => rw [hstop, hstop]
      | fieldSync v rest hlt hgo =>
        have hgo' (cap : Nat) := by simpa using hgo cap []
        rw [hgo'] at hspare
        rw [hgo', hgo', ih _ hlt hspare hle rfl]
      | segment v rest d clamped hlt hgo =>
        have hgo' (cap : Nat) := by simpa using hgo cap []
        rw [hgo'] at hspare
        rw [hgo', hgo', ih _ hlt (Nat.lt_of_succ_lt_succ hspare) (Nat.le_of_succ_le_succ hle) rfl]

/-- Settles O33, by induction on the items of the first run, pass by pass. -/
theorem fsdRunSplits : Obligations.FsdRunSplits := by
  unfold Obligations.FsdRunSplits
  intro segs a b c u w1 w2
  induction hn : w1.length using Nat.strong_induction_on generalizing a c u w1 with
  | _ n ih =>
    subst hn
    intro r q hloss hcap
    cases a with
    | zero =>
      have hc : c = b := by
        rcases hcap with ⟨rfl, -⟩ | ⟨rfl, -⟩ <;> simp [r]
      simp [q, r, hc]
    | succ a =>
      have hpos : 0 < c := by
        rcases hcap with ⟨rfl, hb | hall⟩ | ⟨rfl, -⟩ <;> omega
      obtain ⟨c, rfl⟩ : ∃ k, c = k + 1 := ⟨c - 1, by omega⟩
      cases fsdPass_cases segs u w1 with
      | waits v rest hstop hresume =>
        simp only [r, q, hstop, List.length_nil, List.nil_append, Bool.false_or] at hcap ⊢
        cases b with
        | zero =>
          obtain ⟨-, rfl⟩ : c = a ∧ w2 = [] := by simpa using hcap
          simpa using hstop c
        | succ b =>
          rw [hresume] at hcap ⊢
          rcases hcap with ⟨hc, -⟩ | ⟨hc, rfl | hspare⟩
          · rw [hc, Nat.zero_add]
          · simp [hstop]
          · exact fsdRun_of_spare_capacity hspare (by omega)
      | loses v rest hstop => simp [r, hstop] at hloss
      | fieldSync v rest hlt hgo =>
        have hr : r = fsdRun segs (a + 1) v rest := by simpa using hgo a []
        simp only [q, hr] at hloss hcap ⊢
        rw [hgo]
        exact ih _ hlt (a + 1) (c + 1) v rest rfl hloss hcap
      | segment v rest d clamped hlt hgo =>
        have hr := hgo a []
        simp only [List.append_nil] at hr
        simp only [r, q, hr] at hloss hcap ⊢
        rw [hgo, ih _ hlt a c v rest rfl hloss]
        · simp [Bool.or_assoc]
        · simp only [List.length_cons] at hcap
          rcases hcap with ⟨hc, hb⟩ | ⟨hc, hcut⟩
          · exact .inl ⟨by omega, by omega⟩
          · exact .inr ⟨by omega, hcut⟩

/-! ### CES: one pass -/

/-- The vector a pass emits stands in front of what the rest of the loop leaves. -/
theorem cesPrepend_eq_ok {ob : BitVec 24} {o : Except Fault CesRun} {r : CesRun} (h : cesPrepend ob o = .ok r) :
    ∃ r', o = .ok r' ∧ r = { r' with out := ob :: r'.out } := by
  cases o with
  | error f => cases h
  | ok r' => cases h; exact ⟨r', rfl, rfl⟩

/-- What the first pass of a `CES.WORK` loop that answers on `items` does when it may produce, for every capacity
and every continuation `w` of the items (45_conv_encoder_stage.md R253 to R258). -/
inductive CesPass (t : TceUnit) (u : CesUnit) (items : List (BitVec 24)) : Prop
  /-- Outside TERMINATING and without an item the loop stops. -/
  | starves (hitems : items = []) (hstop : ∀ cap, cesLoop t (cap + 1) [] u = .ok ⟨u, [], []⟩)
  /-- The fault is latched and the loop stops (R258). -/
  | latches (r : CesRun) (hfault : r.regs.faultTerm = true)
      (hstop : ∀ cap, cesLoop t (cap + 1) items u = .ok r)
  /-- A vector is produced and the loop goes on (R254, R257). -/
  | emits (v : CesUnit) (rest : List (BitVec 24)) (ob : BitVec 24)
      (hgo : ∀ cap w, cesLoop t (cap + 1) (items ++ w) u = cesPrepend ob (cesLoop t cap (rest ++ w) v))

/-- In TERMINATING a pass is a termination step and takes no item (R257). -/
theorem cesLoop_terminating {t : TceUnit} {u v : CesUnit} {ob : BitVec 24} (hphase : u.phase = .terminating)
    (hstep : cesTermStep t u = .ok (v, ob)) (cap : Nat) (items : List (BitVec 24)) :
    cesLoop t (cap + 1) items u = cesPrepend ob (cesLoop t cap items v) := by
  simp [cesLoop, hphase, hstep]

/-- Outside TERMINATING a pass needs an item (R256). -/
theorem cesLoop_starved {t : TceUnit} {u : CesUnit} (hphase : u.phase ≠ .terminating) (cap : Nat) :
    cesLoop t (cap + 1) [] u = .ok ⟨u, [], []⟩ := by
  cases h : u.phase <;> simp_all [cesLoop]

/-- Outside TERMINATING a pass is a payload step on the next item, in a block started where none was (R253,
R254). -/
theorem cesLoop_payload {t : TceUnit} {u : CesUnit} (hphase : u.phase ≠ .terminating) (cap : Nat)
    (item : BitVec 24) (items : List (BitVec 24)) :
    cesLoop t (cap + 1) (item :: items) u =
      (cesPayloadStep t (if u.phase = .init then cesStartBlock u else u) item).bind fun p =>
        if p.1.faultTerm then .ok ⟨p.1, items, [p.2]⟩ else cesPrepend p.2 (cesLoop t cap items p.1) := by
  cases h : u.phase with
  | terminating => exact absurd h hphase
  | init | encodingPayload =>
    simp only [cesLoop, h]
    cases cesPayloadStep t _ item <;> rfl

/-- Every first pass of a loop that answers is one of these. -/
theorem cesPass_of_ok {t : TceUnit} {cap : Nat} {items : List (BitVec 24)} {u : CesUnit} {r : CesRun}
    (h : cesLoop t (cap + 1) items u = .ok r) : CesPass t u items := by
  by_cases hphase : u.phase = .terminating
  · cases hstep : cesTermStep t u with
    | error f => simp [cesLoop, hphase, hstep] at h
    | ok p => exact .emits p.1 items p.2 fun cap w => cesLoop_terminating hphase hstep cap _
  cases items with
  | nil => exact .starves rfl (cesLoop_starved hphase)
  | cons item items =>
    have hpass := cesLoop_payload (t := t) hphase
    cases hstep : cesPayloadStep t (if u.phase = .init then cesStartBlock u else u) item with
    | error f => rw [hpass, hstep] at h; cases h
    | ok p =>
      by_cases hfault : p.1.faultTerm = true
      · refine .latches ⟨p.1, items, [p.2]⟩ hfault fun cap => ?_
        rw [hpass, hstep]; exact if_pos hfault
      · refine .emits p.1 items p.2 fun cap w => ?_
        rw [List.cons_append, hpass, hstep]; exact if_neg hfault

/-! ### CES: the split -/

/-- A run that did not use up its capacity is the same with a larger one. -/
theorem cesLoop_of_spare_capacity {t : TceUnit} {b c : Nat} {items : List (BitVec 24)} {u : CesUnit}
    {q : CesRun} (hq : cesLoop t b items u = .ok q) (hspare : q.out.length < b) (hle : b ≤ c) :
    cesLoop t c items u = .ok q := by
  induction b generalizing c items u q with
  | zero => exact absurd hspare (Nat.not_lt_zero _)
  | succ b ih =>
    obtain ⟨c, rfl⟩ : ∃ k, c = k + 1 := ⟨c - 1, by omega⟩
    cases cesPass_of_ok hq with
    | starves hitems hstop => subst hitems; rw [← hq, hstop, hstop]
    | latches r hfault hstop => rw [← hq, hstop, hstop]
    | emits v rest ob hgo =>
      have hgo' (cap : Nat) := by simpa using hgo cap []
      rw [hgo'] at hq ⊢
      obtain ⟨q', hq', rfl⟩ := cesPrepend_eq_ok hq
      rw [ih hq' (Nat.lt_of_succ_lt_succ hspare) (Nat.le_of_succ_le_succ hle)]
      rfl

/-- Settles O60, by induction on the capacity of the first run, pass by pass. -/
theorem cesLoopSplits : Obligations.CesLoopSplits := by
  intro t a b c w1 w2 u r q hr hfault hq hcap
  induction a generalizing c w1 u r with
  | zero =>
    cases hr
    have hc : c = b := by rcases hcap with rfl | ⟨rfl, -⟩ <;> simp
    simpa [hc] using hq
  | succ a ih =>
    cases cesPass_of_ok hr with
    | starves hitems hstop =>
      subst hitems
      cases (hstop a).symm.trans hr
      simp only [List.length_nil, List.nil_append, Nat.zero_add] at hq hcap ⊢
      rcases hcap with rfl | ⟨rfl, rfl | hspare⟩
      · exact hq
      · cases b with
        | zero => rw [← hq, hstop]; rfl
        | succ b => rw [← hq, hstop, ← hstop (a + 1 + b)]; rfl
      · exact cesLoop_of_spare_capacity hq hspare (by omega)
    | latches r' hlatched hstop =>
      cases (hstop a).symm.trans hr
      simp [hlatched] at hfault
    | emits v rest ob hgo =>
      have hgo' := hgo a []
      simp only [List.append_nil] at hgo'
      rw [hgo'] at hr
      obtain ⟨r', hr', rfl⟩ := cesPrepend_eq_ok hr
      obtain ⟨c, rfl⟩ : ∃ k, c = k + 1 := ⟨c - 1, by simp only [List.length_cons] at hcap; omega⟩
      rw [hgo, ih c rest v r' hr' hfault hq]
      · rfl
      · simp only [List.length_cons] at hcap
        rcases hcap with hc | ⟨hc, hcut⟩
        · exact .inl (by omega)
        · exact .inr ⟨by omega, hcut⟩

end Sys2Proof.Machine
end

section
/-! The decoder by fields (30_encoding.md R91 to R106): the fields of a command word as numbers, which words are
legal, and the words of a well-formed command read back. -/

namespace Sys2Proof

open Sys2Proof.Machine

/-! ### The fields of a command word (R91, R100) -/

theorem cwUnit_toNat (cw : Word) : (cwUnit cw).toNat = cw.toNat / 2 ^ 28 := by
  simp only [cwUnit, BitVec.extractLsb'_toNat, Nat.shiftRight_eq_div_pow]
  omega

theorem cwOp_toNat (cw : Word) : (cwOp cw).toNat = cw.toNat / 2 ^ 24 % 16 := by
  simp only [cwOp, BitVec.extractLsb'_toNat, Nat.shiftRight_eq_div_pow]

theorem cwArg_toNat (cw : Word) : (cwArg cw).toNat = cw.toNat % 2 ^ 24 := by
  simp only [cwArg, BitVec.extractLsb'_toNat, Nat.shiftRight_zero]

theorem packCw_toNat (unit op : BitVec 4) (arg : BitVec 24) :
    (packCw unit op arg).toNat = unit.toNat * 2 ^ 28 + op.toNat * 2 ^ 24 + arg.toNat := by
  simp only [packCw, toNat_append_eq_add]
  omega

@[simp] theorem cwUnit_packCw (unit op : BitVec 4) (arg : BitVec 24) :
    cwUnit (packCw unit op arg) = unit := by
  apply BitVec.eq_of_toNat_eq
  rw [cwUnit_toNat, packCw_toNat]
  omega

@[simp] theorem cwOp_packCw (unit op : BitVec 4) (arg : BitVec 24) :
    cwOp (packCw unit op arg) = op := by
  apply BitVec.eq_of_toNat_eq
  rw [cwOp_toNat, packCw_toNat]
  omega

@[simp] theorem cwArg_packCw (unit op : BitVec 4) (arg : BitVec 24) :
    cwArg (packCw unit op arg) = arg := by
  apply BitVec.eq_of_toNat_eq
  rw [cwArg_toNat, packCw_toNat]
  omega

theorem packArg_toNat (low high : BitVec 8) :
    (packArg low high).toNat = high.toNat * 2 ^ 8 + low.toNat := by
  simp only [packArg, toNat_append_eq_add, BitVec.ofNat_eq_ofNat, BitVec.toNat_zero]
  omega

theorem packArg_lt (low high : BitVec 8) : (packArg low high).toNat < 2 ^ 16 := by
  rw [packArg_toNat]
  omega

@[simp] theorem argLow_packArg (low high : BitVec 8) : argLow (packArg low high) = low := by
  apply BitVec.eq_of_toNat_eq
  simp only [argLow, BitVec.extractLsb'_toNat, packArg_toNat, Nat.shiftRight_zero]
  omega

@[simp] theorem argHigh_packArg (low high : BitVec 8) : argHigh (packArg low high) = high := by
  apply BitVec.eq_of_toNat_eq
  simp only [argHigh, BitVec.extractLsb'_toNat, packArg_toNat, Nat.shiftRight_eq_div_pow]
  omega

@[simp] theorem argLow_setWidth (r : BitVec 8) : argLow (r.setWidth 24) = r := by
  apply BitVec.eq_of_toNat_eq
  simp only [argLow, BitVec.extractLsb'_toNat, BitVec.toNat_setWidth, Nat.shiftRight_zero]
  omega

/-! ### Assigned bits and legal words (R97, R105) -/

/-- How many low bits of `ARG` a row assigns. -/
def assignedWidth : Opcode → Nat
  | .lfsrReset | .lfsrOut | .lfsrClk | .tceCfgEnd | .tceBuild => 0
  | .tceCfgBlock => 1
  | .sysRdreg => 8
  | .tceCfgDim | .tceCfgGen | .tceCfgFb => 16
  | .strForecast | .strWork | .fsdForecast | .fsdWork | .lfsrWhiten | .lfsrDewhiten
  | .tceLookup | .cesForecast | .cesWork => 24

theorem assignedArgBits_toNat (o : Opcode) :
    (assignedArgBits o).toNat = 2 ^ assignedWidth o - 1 := by
  cases o <;> rfl

/-- No bit of `x` lies outside a mask of low bits exactly when `x` is a number of that many bits. -/
theorem and_not_lowMask_eq_zero_iff {w k : Nat} {x m : BitVec w} (hm : m.toNat = 2 ^ k - 1) :
    x &&& ~~~m = 0 ↔ x.toNat < 2 ^ k := by
  have hinside : x &&& ~~~m = 0 ↔ x &&& m = x := by
    simp only [BitVec.eq_of_getLsbD_eq_iff]
    refine forall₂_congr fun i hi => ?_
    simp [hi]
  rw [hinside, ← BitVec.toNat_inj, BitVec.toNat_and, hm, Nat.and_two_pow_sub_one_eq_mod,
    Nat.mod_eq_iff_lt (by positivity)]

theorem reservedBits_eq_zero_iff (o : Opcode) (arg : BitVec 24) :
    arg &&& ~~~assignedArgBits o = 0 ↔ arg.toNat < 2 ^ assignedWidth o :=
  and_not_lowMask_eq_zero_iff (assignedArgBits_toNat o)

/-- The decoder's map is the table of R97, pair by pair, with the bits it assigns. -/
theorem mem_opcodeRows_iff (unit op width : Nat) :
    (unit, op, width) ∈ opcodeRows ↔
      ∃ o, opcodeMap unit op = some o ∧ assignedWidth o = width := by
  constructor
  · have hrows : ∀ row ∈ opcodeRows, ∃ o, opcodeMap row.1 row.2.1 = some o ∧
        assignedWidth o = row.2.2 := by
      simp [opcodeRows, opcodeMap, assignedWidth]
    exact hrows (unit, op, width)
  · rintro ⟨o, hmap, rfl⟩
    unfold opcodeMap at hmap
    split at hmap <;> cases hmap <;> decide

/-- No pair with a reserved unit is in the table (R92, R97). -/
theorem unit_lt_of_opcodeMap {unit op : Nat} {o : Opcode} (h : opcodeMap unit op = some o) : unit < 6 := by
  have hrows : ∀ row ∈ opcodeRows, row.1 < 6 := by decide
  exact hrows _ ((mem_opcodeRows_iff unit op _).mpr ⟨o, h, rfl⟩)

/-- A command word has an opcode when its pair is in the table and its row assigns every bit that is set. -/
theorem classifyCw_eq_ok_iff (cw : Word) (o : Opcode) :
    classifyCw cw = .ok o ↔
      opcodeMap (cwUnit cw).toNat (cwOp cw).toNat = some o ∧
        (cwArg cw).toNat < 2 ^ assignedWidth o := by
  rw [← reservedBits_eq_zero_iff]
  unfold classifyCw
  split
  · next hunit =>
    refine ⟨by rintro ⟨⟩, ?_⟩
    rintro ⟨hmap, -⟩
    exact absurd (unit_lt_of_opcodeMap hmap) (Nat.not_lt.mpr hunit)
  · split
    · next hmap => simp [hmap]
    · next o' hmap =>
      simp only [hmap, Option.some.injEq]
      split
      · next hzero => exact ⟨by rintro ⟨⟩; exact ⟨rfl, hzero⟩, by rintro ⟨rfl, -⟩; rfl⟩
      · next hset => exact ⟨by rintro ⟨⟩, by rintro ⟨rfl, hzero⟩; exact absurd hzero hset⟩

/-- The legal words are those the decoder finds an opcode for (R105). -/
theorem legalWord_iff (cw : Word) : LegalWord cw ↔ ∃ o, classifyCw cw = .ok o := by
  simp only [classifyCw_eq_ok_iff, cwUnit_toNat, cwOp_toNat, cwArg_toNat]
  constructor
  · rintro ⟨⟨unit, op, width⟩, hrow, hunit, hop, harg⟩
    obtain ⟨o, hmap, hwidth⟩ := (mem_opcodeRows_iff unit op width).mp hrow
    exact ⟨o, by rw [hunit, hop]; exact hmap, by rw [hwidth]; exact harg⟩
  · rintro ⟨o, hmap, harg⟩
    exact ⟨_, (mem_opcodeRows_iff _ _ _).mpr ⟨o, hmap, rfl⟩, rfl, rfl, harg⟩

/-! ### The decoder, one equation per outcome (R105, R106) -/

theorem decode_of_illegalWord {cw : Word} (rest : List Word) (h : ¬ LegalWord cw) :
    ∃ why, decode (cw :: rest) = .illegal why rest := by
  rw [legalWord_iff] at h
  cases hc : classifyCw cw with
  | error why => exact ⟨why, by simp [decode, hc]⟩
  | ok o => exact absurd ⟨o, hc⟩ h

theorem decode_of_plain {cw : Word} {o : Opcode} (rest : List Word) (h : classifyCw cw = .ok o)
    (hext : hasExt o = false) : decode (cw :: rest) = .command (assemble o (cwArg cw) 0) rest := by
  simp [decode, h, hext]

theorem decode_of_ext {cw : Word} {o : Opcode} (ew : Word) (rest : List Word)
    (h : classifyCw cw = .ok o) (hext : hasExt o = true) :
    decode (cw :: ew :: rest) = .command (assemble o (cwArg cw) ew) rest := by
  simp [decode, h, hext]

theorem decode_of_missing_ext {cw : Word} {o : Opcode} (h : classifyCw cw = .ok o)
    (hext : hasExt o = true) : decode [cw] = .incomplete := by
  simp [decode, h, hext]

/-- A legal word begins a command, whole or not (R105). -/
theorem decode_ne_illegal {cw : Word} (rest : List Word) (h : LegalWord cw) (why : IllegalReason)
    (r : List Word) : decode (cw :: rest) ≠ .illegal why r := by
  obtain ⟨o, ho⟩ := (legalWord_iff cw).mp h
  cases hext : hasExt o with
  | false => simp [decode_of_plain rest ho hext]
  | true =>
    cases rest with
    | nil => simp [decode_of_missing_ext ho hext]
    | cons ew rest => simp [decode_of_ext ew rest ho hext]

/-! ### Reading an encoding back (R97 to R102) -/

/-- The word packed for a row of the table has the row's opcode, if the row assigns the bits set in `ARG`. -/
theorem classifyCw_packCw {unit op : BitVec 4} {o : Opcode} {arg : BitVec 24}
    (hmap : opcodeMap unit.toNat op.toNat = some o) (harg : arg.toNat < 2 ^ assignedWidth o) :
    classifyCw (packCw unit op arg) = .ok o := by
  simp [classifyCw_eq_ok_iff, hmap, harg]

theorem decode_packCw {unit op : BitVec 4} {o : Opcode} {arg : BitVec 24} (rest : List Word)
    (hmap : opcodeMap unit.toNat op.toNat = some o) (hext : hasExt o = false)
    (harg : arg.toNat < 2 ^ assignedWidth o) :
    decode (packCw unit op arg :: rest) = .command (assemble o arg 0) rest := by
  rw [decode_of_plain rest (classifyCw_packCw hmap harg) hext, cwArg_packCw]

theorem decode_packCw_ext {unit op : BitVec 4} {o : Opcode} {arg : BitVec 24} (ew : Word)
    (rest : List Word) (hmap : opcodeMap unit.toNat op.toNat = some o) (hext : hasExt o = true)
    (harg : arg.toNat < 2 ^ assignedWidth o) :
    decode (packCw unit op arg :: ew :: rest) = .command (assemble o arg ew) rest := by
  rw [decode_of_ext ew rest (classifyCw_packCw hmap harg) hext, cwArg_packCw]

/-- The words of a well-formed command decode to it, whatever follows them: the word's fields name the row, and
the row's operands fit the bits it assigns. -/
theorem decode_encode_append {i : Instr} (h : i.WellFormed) (rest : List Word) :
    decode (encode i ++ rest) = .command i rest := by
  cases i with
  | sysRdreg r =>
    have hr : (r.setWidth 24).toNat < 2 ^ 8 := by rw [BitVec.toNat_setWidth]; omega
    exact (decode_packCw rest rfl rfl hr).trans (by simp only [assemble, argLow_setWidth])
  | strForecast n | fsdForecast n | lfsrWhiten n | lfsrDewhiten n | cesForecast n =>
    exact (decode_packCw rest rfl rfl (BitVec.isLt _)).trans
      (by simp only [assemble, BitVec.toNat_ofNat, Nat.mod_eq_of_lt h])
  | strWork cap avail | fsdWork cap avail | cesWork cap avail =>
    obtain ⟨hcap, havail⟩ := h
    exact (decode_packCw_ext _ rest rfl rfl (BitVec.isLt _)).trans
      (by simp only [assemble, BitVec.toNat_ofNat, Nat.mod_eq_of_lt hcap, Nat.mod_eq_of_lt havail])
  | lfsrReset | lfsrOut | lfsrClk | tceBuild => exact (decode_packCw rest rfl rfl (by decide)).trans rfl
  | tceCfgDim inputs outputs =>
    exact (decode_packCw rest rfl rfl (packArg_lt _ _)).trans
      (by simp only [assemble, argLow_packArg, argHigh_packArg])
  | tceCfgGen i o mask | tceCfgFb i o mask =>
    obtain ⟨hi, ho⟩ := h
    exact (decode_packCw_ext mask rest rfl rfl (packArg_lt _ _)).trans
      (by simp only [assemble, argLow_packArg, argHigh_packArg, BitVec.toNat_ofNat,
        Nat.mod_eq_of_lt hi, Nat.mod_eq_of_lt ho])
  | tceCfgBlock term len =>
    cases term <;> exact (decode_packCw_ext len rest rfl rfl (by decide)).trans rfl
  | tceCfgEnd endState => exact (decode_packCw_ext endState rest rfl rfl (by decide)).trans rfl
  | tceLookup v st => exact (decode_packCw_ext st rest rfl rfl (BitVec.isLt v)).trans rfl

end Sys2Proof

namespace Sys2Proof.Machine

/-! ### A step by what stands on the port (R90, R105, R106) -/

theorem step_of_command {s : State} {i : Instr} {rest : List Word} (h : decode s.port = .command i rest) :
    step s = exec i { s with port := rest } := by
  unfold step
  rw [h]
  rfl

theorem step_of_illegal {s : State} {why : IllegalReason} {rest : List Word}
    (h : decode s.port = .illegal why rest) :
    step s = .next { s with port := rest, response := answer 1 0 0 none } := by
  unfold step
  rw [h]
  exact congrArg Host.Outcome.next (raise_eq (s.withPort rest) .illegal false)

/-- Settles O3: the legal words are those the decoder finds an opcode for, and it takes the others alone. -/
theorem illegalWordIsAnswered : Obligations.IllegalWordIsAnswered := by
  intro s cw rest hport
  constructor
  · intro hillegal
    obtain ⟨why, hdecode⟩ := decode_of_illegalWord rest hillegal
    exact step_of_illegal (by rw [hport]; exact hdecode)
  · intro hlegal why r
    rw [hport]
    exact decode_ne_illegal rest hlegal why r

/-- Settles O5: a step runs what the decoder reads, and the decoder reads an encoding back. -/
theorem stepRunsDecodedCommand : Obligations.StepRunsDecodedCommand := by
  refine ⟨fun s i rest => step_of_command, fun s i rest hwf hport => step_of_command ?_⟩
  rw [hport]
  exact decode_encode_append hwf rest

end Sys2Proof.Machine
end

section
/-! The answer of a forecast (O19; 30_encoding.md R103). -/

namespace Sys2Proof.Machine

/-- `ceilDiv` is the ceiling: it reaches the dividend, and by less than one divisor too much (00_scope.md R16). -/
theorem ceilDiv_mul_bounds (a : Nat) {b : Nat} (hb : 0 < b) :
    a ≤ ceilDiv a b * b ∧ ceilDiv a b * b < a + b := by
  have hdiv := Nat.div_add_mod' (a + (b - 1)) b
  have hmod := Nat.mod_lt (a + (b - 1)) hb
  rw [ceilDiv]; omega

theorem ceilDiv_mono {a a' : Nat} (h : a ≤ a') (b : Nat) : ceilDiv a b ≤ ceilDiv a' b :=
  Nat.div_le_div_right (Nat.add_le_add_right h _)

/-- A forecast changes the response alone. -/
theorem answerForecast_answers (s : State) (n : Nat) :
    answerForecast s n =
      .next { s with
        response := if 2 ^ 32 ≤ n then answer 3 0 0 (some 0) else answer 0 0 0 (some (BitVec.ofNat 32 n)) } := by
  rw [answerForecast_eq, respond_eq, raise_eq]
  split <;> rfl

/-- Settles O19: the count a forecast answers is the ceiling, and answering it changes nothing else. -/
theorem strForecast : Obligations.StrForecast := by
  intro n s
  obtain ⟨hreach, hleast⟩ := ceilDiv_mul_bounds (n * Config.R_NUM) (Nat.succ_pos Config.rDenPred)
  exact ⟨_, hreach, hleast, answerForecast_answers s _⟩

end Sys2Proof.Machine
end

section
/-! The loop of `STR.WORK` by its branches, and the command in terms of it (O21, O22;
41_symbol_timing_recovery.md R124 to R129). -/

namespace Sys2Proof.Machine

section Loop

variable {w : Nat} {interp : List Sample → Sample → InterpState → InterpResult w}
  {track : Sample → LoopState → TrackResult}

/-- Without capacity there is no turn (R129). -/
@[simp] theorem strLoop_zero (items : List Sample) (u : StrUnit) :
    strLoop interp track 0 items u = ⟨u, [], 0⟩ := rfl

/-- On fewer than `w` samples the loop starves at once (R126). -/
theorem strLoop_of_short {items : List Sample} (h : items.length < w) (cap : Nat) (u : StrUnit) :
    strLoop interp track cap items u = ⟨u, [], 0⟩ := by
  cases cap with
  | zero => rfl
  | succ cap => exact if_pos h

/-- On `w` samples or more, with capacity, the loop makes a turn and goes on behind its advance (R124). -/
theorem strLoop_of_long {items : List Sample} (h : w ≤ items.length) (cap : Nat) (u : StrUnit) :
    strLoop interp track (cap + 1) items u =
      let t := strTurn interp track (items.take w) u
      let r := strLoop interp track cap (items.drop t.advance) t.regs
      ⟨r.regs, t.item :: r.out, t.advance + r.consumed⟩ := if_neg (Nat.not_lt.mpr h)

end Loop

/-- The run of the loop that `STR.WORK cap, avail` makes. -/
def State.strRun (s : State) (cap avail : Nat) : StrRun :=
  strLoop Config.interp Config.track cap (s.strWindow avail) s.str

@[simp] theorem State.strWindow_length (s : State) (n : Nat) : (s.strWindow n).length = n :=
  inputWindow_length _ n _

theorem strRun_length_le (s : State) (cap avail : Nat) : (s.strRun cap avail).out.length ≤ cap :=
  (strLoop_spec _ _ cap _ _).1

theorem strRun_consumed_le (s : State) (cap avail : Nat) : (s.strRun cap avail).consumed ≤ avail :=
  (strLoop_spec _ _ cap _ _).2.1.trans_eq (s.strWindow_length avail)

/-- `STR.WORK` writes back what its run leaves (R124). -/
theorem exec_strWork_run (s : State) (cap avail : Nat) :
    exec (.strWork cap avail) s =
      let r := s.strRun cap avail
      .next (((s.withStr r.regs).emitStr r.out).tick.respond { starved := decide (r.out.length < cap) }
        (valOf r.out.length) (some (rxOf r.consumed))) := rfl

/-- `STR.WORK` as a whole next state, for a run whose count of items fits VAL. -/
theorem exec_strWork {s : State} {cap avail : Nat} {r : StrRun} (hr : s.strRun cap avail = r)
    (hval : r.out.length < 2 ^ 24) :
    exec (.strWork cap avail) s =
      .next { s with
        str := r.regs, win := { s.win with strOut := r.out ++ s.win.strOut.drop r.out.length }
        freeCount := s.freeCount + 1
        response := answer 0 (if r.out.length < cap then 1 else 0) r.out.length
          (some (BitVec.ofNat 32 r.consumed)) } := by
  simp only [exec_strWork_run, hr, respond_eq, valOf_toNat _ hval]
  simp [flagAt, writeWindow, rxOf]

/-- Settles O21: with `W_LOOK` samples a run of capacity 1 is one turn of the model's `strTurn`. -/
theorem strTurn_of_work : Obligations.StrTurn := by
  intro avail s havail
  have hrun : s.strRun 1 avail = _ :=
    strLoop_of_long (by rwa [State.strWindow_length]) 0 s.str
  exact exec_strWork hrun (by simp)

/-- Settles O22: in both cases the run is the empty one. -/
theorem strWorkCorners : Obligations.StrWorkCorners := by
  intro cap avail s hcorner
  have hrun : s.strRun cap avail = ⟨s.str, [], 0⟩ := by
    rcases hcorner with rfl | hshort
    · rfl
    · exact strLoop_of_short (by rwa [State.strWindow_length]) cap s.str
  exact exec_strWork hrun (by simp)

end Sys2Proof.Machine
end

section
/-! Splitting a run of `STR.WORK` at a cut of the stream (O23; 41_symbol_timing_recovery.md R127, R129;
20_memory.md R78). -/

namespace Sys2Proof.Machine

section Loop

variable {w : Nat} {interp : List Sample → Sample → InterpState → InterpResult w}
  {track : Sample → LoopState → TrackResult}

/-- A run that did not use up its capacity is the same with a larger one. -/
theorem strLoop_of_spare_capacity {b c : Nat} {items : List Sample} {u : StrUnit}
    (hspare : (strLoop interp track b items u).out.length < b) (hle : b ≤ c) :
    strLoop interp track c items u = strLoop interp track b items u := by
  induction b generalizing c items u with
  | zero => exact absurd hspare (Nat.not_lt_zero _)
  | succ b ih =>
    obtain ⟨c, rfl⟩ : ∃ k, c = k + 1 := ⟨c - 1, by omega⟩
    by_cases hshort : items.length < w
    · rw [strLoop_of_short hshort, strLoop_of_short hshort]
    · have hlong := Nat.not_lt.mp hshort
      rw [strLoop_of_long hlong] at hspare
      rw [strLoop_of_long hlong, strLoop_of_long hlong]
      simp only [ih (Nat.lt_of_succ_lt_succ hspare) (Nat.le_of_succ_le_succ hle)]

/-- A turn that the first piece allows is the turn on the whole stream. -/
theorem strLoop_append_of_long {w1 : List Sample} (h : w ≤ w1.length) (w2 : List Sample) (cap : Nat)
    (u : StrUnit) :
    strLoop interp track (cap + 1) (w1 ++ w2) u =
      let t := strTurn interp track (w1.take w) u
      let r := strLoop interp track cap (w1.drop t.advance ++ w2) t.regs
      ⟨r.regs, t.item :: r.out, t.advance + r.consumed⟩ := by
  have hadv := (strTurn_spec interp track (w1.take w) u).2.2
  rw [strLoop_of_long (by rw [List.length_append]; omega), List.take_append_of_le_length h]
  simp only
  rw [List.drop_append_of_le_length (by omega)]

/-- A run on `w1` and one on what it left, followed by `w2`, do together what one run on `w1` and `w2` does with
the summed capacity, in either reading of R129. -/
theorem strLoop_split {a b c : Nat} {w1 w2 : List Sample} {u : StrUnit} {r q : StrRun}
    (hr : strLoop interp track a w1 u = r)
    (hq : strLoop interp track b (w1.drop r.consumed ++ w2) r.regs = q)
    (hcap : c = r.out.length + b ∨ (c = a + b ∧ (w2 = [] ∨ q.out.length < b))) :
    strLoop interp track c (w1 ++ w2) u = ⟨q.regs, r.out ++ q.out, r.consumed + q.consumed⟩ := by
  induction a generalizing c w1 u r with
  | zero =>
    subst hr
    obtain rfl : c = b := by rcases hcap with rfl | ⟨rfl, -⟩ <;> simp
    simpa using hq
  | succ a ih =>
    by_cases hshort : w1.length < w
    · rw [strLoop_of_short hshort] at hr
      subst hr
      simp only [List.drop_zero] at hq
      have hwhole : strLoop interp track c (w1 ++ w2) u = q := by
        rcases hcap with rfl | ⟨rfl, rfl | hspare⟩
        · simpa using hq
        · rw [List.append_nil] at hq ⊢
          rw [← hq, strLoop_of_short hshort, strLoop_of_short hshort]
        · rw [← hq] at hspare ⊢
          exact strLoop_of_spare_capacity hspare (by omega)
      simp [hwhole]
    · have hlong := Nat.not_lt.mp hshort
      rw [strLoop_of_long hlong] at hr
      subst hr
      simp only [List.length_cons, ← List.drop_drop] at hq hcap
      obtain ⟨c, rfl⟩ : ∃ k, c = k + 1 := ⟨c - 1, by omega⟩
      rw [strLoop_append_of_long hlong]
      have htail := ih (c := c) rfl hq (hcap.imp (by omega) (And.imp_left (by omega)))
      simp only [htail, List.cons_append, Nat.add_assoc]

end Loop

/-- The VAL field of an answer is its value, if that fits (30_encoding.md R94). -/
theorem valField_answer {t : State} {status evt val : Nat} {rx : Option Word}
    (h : t.response = answer status evt val rx) (hval : val < 2 ^ 24) : valField t = val := by
  simp only [valField, h, answer, BitVec.toNat_ofNat]; omega

/-- The RX word of an answer is its count, if that fits (30_encoding.md R103). -/
theorem rxField_answer {t : State} {status evt val n : Nat}
    (h : t.response = answer status evt val (some (BitVec.ofNat 32 n))) (hn : n < 2 ^ 32) : rxField t = n := by
  simp only [rxField, h, answer, consumedCount, BitVec.toNat_ofNat]; omega

/-- What a `STR.WORK` with legal operands leaves to be read: the registers, the two counts, the items produced,
and the input window as it was. -/
theorem strWork_leaves_run {s t : State} {cap avail : Nat} (hcap : cap < 2 ^ 24) (havail : avail < 2 ^ 32)
    (h : exec (.strWork cap avail) s = .next t) :
    t.str = (s.strRun cap avail).regs ∧ valField t = (s.strRun cap avail).out.length ∧
      rxField t = (s.strRun cap avail).consumed ∧
      t.win.strOut.take (valField t) = (s.strRun cap avail).out ∧ t.win.strIn = s.win.strIn := by
  have hlen := strRun_length_le s cap avail
  have hcons := strRun_consumed_le s cap avail
  rw [exec_strWork rfl (by omega)] at h
  cases h
  refine ⟨rfl, valField_answer rfl (by omega), rxField_answer rfl (by omega), ?_, rfl⟩
  rw [valField_answer rfl (by omega), List.take_left]

/-- A filled window holds no free item (20_memory.md R65; log 6). -/
theorem strWindow_of_filled {s : State} {n : Nat} (h : Filled n s.win.strIn) :
    s.strWindow n = s.win.strIn.take n := inputWindow_filled _ n _ h

/-- A filled window is its first piece and the rest. -/
theorem strWindow_eq_append {s : State} {avail1 avail : Nat} (hle : avail1 ≤ avail)
    (h : Filled avail s.win.strIn) :
    s.strWindow avail = s.strWindow avail1 ++ (s.win.strIn.take avail).drop avail1 := by
  have hpiece : s.strWindow avail1 = (s.win.strIn.take avail).take avail1 := by
    rw [strWindow_of_filled (hle.trans h), List.take_take, Nat.min_eq_left hle]
  rw [hpiece, List.take_append_drop, strWindow_of_filled h]

/-- Where the host dropped the first `n` items, the rest of a filled window is that window from item `n` on
(R127). -/
theorem strWindow_of_drop {s s' : State} {n avail : Nat} (hin : s'.win.strIn = s.win.strIn.drop n)
    (h : Filled avail s.win.strIn) : s'.strWindow (avail - n) = (s.strWindow avail).drop n := by
  have hfilled : Filled (avail - n) s'.win.strIn := by
    rw [Filled, hin, List.length_drop]; exact Nat.sub_le_sub_right h _
  rw [strWindow_of_filled hfilled, hin, strWindow_of_filled h, List.drop_take]

/-- The run on a first piece and the run from the state `s'` it leads to, on all that it left, make up one run on
the whole window. -/
theorem strRun_split {s s' : State} {a b c avail1 avail : Nat} {r q : StrRun} (hle : avail1 ≤ avail)
    (hfilled : Filled avail s.win.strIn) (hr : s.strRun a avail1 = r) (hstr : s'.str = r.regs)
    (hin : s'.win.strIn = s.win.strIn.drop r.consumed) (hq : s'.strRun b (avail - r.consumed) = q)
    (hcap : c = r.out.length + b ∨ (c = a + b ∧ (avail1 = avail ∨ q.out.length < b))) :
    s.strRun c avail = ⟨q.regs, r.out ++ q.out, r.consumed + q.consumed⟩ := by
  have hconsumed : r.consumed ≤ (s.strWindow avail1).length := by
    rw [← hr, State.strWindow_length]; exact strRun_consumed_le s a avail1
  rw [State.strRun, hstr, strWindow_of_drop hin hfilled, strWindow_eq_append hle hfilled,
    List.drop_append_of_le_length hconsumed] at hq
  rw [State.strRun, strWindow_eq_append hle hfilled]
  refine strLoop_split hr hq (hcap.imp_right (And.imp_right (Or.imp_left ?_)))
  rintro rfl
  exact List.drop_eq_nil_of_le (List.length_take_le _ _)

/-- Settles O23: the host's commit leads to the state whose run continues the first one. -/
theorem strWorkSplits : Obligations.StrWorkSplits := by
  intro a b c avail1 avail s t u v ha hb hc hle havail hfilled ht hu hv hcap
  obtain ⟨htstr, htval, htrx, htout, htin⟩ := strWork_leaves_run ha (by omega) ht
  rw [htrx] at hu
  obtain ⟨hustr, huval, hurx, huout, -⟩ := strWork_leaves_run hb (by omega) hu
  obtain ⟨hvstr, hvval, hvrx, hvout, -⟩ := strWork_leaves_run hc havail hv
  have hcommit : (hostMove t (.commit .str)).win.strIn = s.win.strIn.drop (s.strRun a avail1).consumed := by
    rw [← htin, ← htrx]; rfl
  rw [htval, huval] at hcap
  rw [strRun_split (s' := hostMove t (.commit .str)) hle hfilled rfl htstr hcommit rfl hcap] at hvstr hvval hvrx hvout
  refine ⟨hvstr.trans hustr.symm, ?_, ?_, ?_⟩
  · rw [hvval, htval, huval, List.length_append]
  · rw [hvrx, htrx, hurx]
  · rw [hvout, htout, huout]

end Sys2Proof.Machine
end

section
/-! The rate bound of STR along a run (O24; 41_symbol_timing_recovery.md R128). -/

namespace Sys2Proof.Machine

section Turns

variable {w : Nat} {interp : List Sample → Sample → InterpState → InterpResult w}
  {track : Sample → LoopState → TrackResult}

/-- One more turn after the given ones. -/
theorem strTurns_snoc (windows : List (List Sample)) (x : List Sample) (u : StrUnit) :
    strTurns interp track (windows ++ [x]) u =
      let r := strTurns interp track windows u
      let t := strTurn interp track x r.1
      (t.regs, r.2 + t.advance) := by
  induction windows generalizing u with
  | nil => simp [strTurns]
  | cons y ys ih => simp [strTurns, ih, Nat.add_assoc]

/-- After `n` turns from reset, with the registers `u` and at least `left` samples still in the stream of `total`:
the turns are within the rate. -/
def StrWithinRate (interp : List Sample → Sample → InterpState → InterpResult w)
    (track : Sample → LoopState → TrackResult) (num den total n : Nat) (u : StrUnit) (left : Nat) : Prop :=
  n ≤ ceilDiv (total * den) num ∧
    ∃ windows : List (List Sample), (∀ x ∈ windows, x.length = w) ∧ windows.length = n ∧
      (strTurns interp track windows StrUnit.reset).1 = u ∧
      (strTurns interp track windows StrUnit.reset).2 + left ≤ total

theorem strWithinRate_reset (num den total : Nat) :
    StrWithinRate interp track num den total 0 StrUnit.reset total :=
  ⟨Nat.zero_le _, [], by simp, rfl, rfl, by simp [strTurns]⟩

/-- A turn needs a whole window, which is what the hypothesis on the interpolator counts (R128). -/
theorem StrWithinRate.turn {num den total n left : Nat} {u : StrUnit}
    (hrate : InterpRateBound interp track num den)
    (h : StrWithinRate interp track num den total n u left) {x : List Sample} (hx : x.length = w)
    (hleft : w ≤ left) :
    StrWithinRate interp track num den total (n + 1) (strTurn interp track x u).regs
      (left - (strTurn interp track x u).advance) := by
  obtain ⟨-, windows, hwindows, rfl, rfl, htotal⟩ := h
  set r := strTurns interp track windows StrUnit.reset with hr
  have hadv := (strTurn_spec interp track x r.1).2.2
  have hbound : windows.length + 1 ≤ ceilDiv ((r.2 + w) * den) num := hrate windows hwindows
  refine ⟨hbound.trans (ceilDiv_mono (Nat.mul_le_mul_right den (by omega)) num),
    windows ++ [x], ?_, by simp, by simp [strTurns_snoc, hr], ?_⟩
  · simpa [or_imp, forall_and] using ⟨hwindows, hx⟩
  · simp only [strTurns_snoc, ← hr]; omega

/-- The turns of one call keep within the rate. -/
theorem StrWithinRate.loop {num den total n left : Nat} {u : StrUnit}
    (hrate : InterpRateBound interp track num den)
    (h : StrWithinRate interp track num den total n u left) (cap : Nat) {items : List Sample}
    (hitems : items.length ≤ left) :
    StrWithinRate interp track num den total (n + (strLoop interp track cap items u).out.length)
      (strLoop interp track cap items u).regs (left - (strLoop interp track cap items u).consumed) := by
  induction cap generalizing n left u items with
  | zero => exact h
  | succ cap ih =>
    by_cases hshort : items.length < w
    · rw [strLoop_of_short hshort]; exact h
    · have hlong := Nat.not_lt.mp hshort
      have hturn := h.turn hrate (List.length_take_of_le hlong) (hlong.trans hitems)
      have hrest := ih hturn (items := items.drop (strTurn interp track (items.take w) u).advance)
        (by rw [List.length_drop]; omega)
      rw [strLoop_of_long hlong]
      simpa [Nat.sub_sub, Nat.add_assoc, Nat.add_comm 1] using hrest

/-- Further calls on what is left of the stream keep within the rate. -/
theorem StrWithinRate.calls {num den total n : Nat} {u : StrUnit} {items : List Sample}
    (hrate : InterpRateBound interp track num den)
    (h : StrWithinRate interp track num den total n u items.length) (calls : List (Nat × Nat)) :
    n + strCalls interp track calls items u ≤ ceilDiv (total * den) num := by
  induction calls generalizing n u items with
  | nil => exact h.1
  | cons call calls ih =>
    have hcall := h.loop hrate call.1 (List.length_take_le' call.2 items)
    rw [← List.length_drop] at hcall
    simpa [strCalls, Nat.add_assoc] using ih hcall

end Turns

/-- Settles O24: every turn of every call keeps within the rate, from reset on. -/
theorem strRateBound : Obligations.StrRateBound := by
  intro w num den interp track _ hrate calls items
  simpa using (strWithinRate_reset num den items.length).calls hrate calls

end Sys2Proof.Machine
end

section
/-! FSD's tags and its forecast (O25, O26; 42_field_sync_demux.md R142, R151). -/

namespace Sys2Proof.Machine

/-- An item that does not start a sync run has no marker, whatever its field mark (R142). -/
theorem markerClass_of_not_start {tag : SymbolTag} (h : tag.valid = false ∨ tag.symbolIndex ≠ 0) :
    markerClass tag = some .none := if_pos h

/-- At the start of a sync run the field mark decides (R142). -/
theorem markerClass_of_start {tag : SymbolTag} (hvalid : tag.valid = true) (hindex : tag.symbolIndex = 0) :
    markerClass tag =
      if tag.fieldMark = 0 then some .seg else if tag.fieldMark = 1 then some .fs1
      else if tag.fieldMark = 2 then some .fs2 else none := by
  obtain ⟨valid, index, mark⟩ := tag
  cases hvalid; cases hindex
  revert mark; decide

/-- Settles O26: the start of a sync run is classified by its field mark, every other item has class NONE. -/
theorem markerClasses : Obligations.MarkerClasses := by
  intro tag
  by_cases hstart : tag.valid = true ∧ tag.symbolIndex = 0
  · obtain ⟨hvalid, hindex⟩ := hstart
    rw [markerClass_of_start hvalid hindex]
    simp only [hvalid, hindex]
    generalize tag.fieldMark = mark
    revert mark; decide
  · have hother : tag.valid = false ∨ tag.symbolIndex ≠ 0 := by
      rwa [not_and_or, Bool.not_eq_true] at hstart
    have hnot (p : Prop) : ¬ (tag.valid = true ∧ tag.symbolIndex = 0 ∧ p) :=
      fun ⟨hvalid, hindex, _⟩ => hstart ⟨hvalid, hindex⟩
    rw [markerClass_of_not_start hother]
    simp only [hother, hnot]
    decide

theorem fsdRequired_eq (n : Nat) : fsdRequired n = 832 * n + 1663 := by
  rw [fsdRequired, SEG_LEN_eq]; omega

/-- Settles O25: a forecast changes the response alone, and answers the count of R151. -/
theorem fsdForecast : Obligations.FsdForecast := by
  intro n s
  rw [← fsdRequired_eq]
  exact answerForecast_answers s _

end Sys2Proof.Machine
end

section
/-! What is refused (O10; 93_implementation_defined.md U3, U4, U5, U9). -/

namespace Sys2Proof.Machine

/-- The refusals that 93_implementation_defined.md allows a command. -/
def listedRefusals : Instr → List Refusal
  | .tceBuild => [.blockLengthBand, .tableTooLarge, .endStateOutOfRange]
  | .fsdWork _ _ => [.reservedFieldMark]
  | _ => []

/-- An outcome that, if it is a refusal, has one of the reasons `l`. -/
def RefusesOnly (l : List Refusal) (o : Host.Outcome State Fault Refusal) : Prop :=
  ∀ r, o = .refused r → r ∈ l

theorem refusesOnly_next (l : List Refusal) (s : State) : RefusesOnly l (.next s) := fun _ h => by cases h

theorem refusesOnly_fault (l : List Refusal) (f : Fault) : RefusesOnly l (.fault f) := fun _ h => by cases h

theorem refusesOnly_refused {l : List Refusal} {r : Refusal} (h : r ∈ l) : RefusesOnly l (.refused r) :=
  fun _ hr => by cases hr; exact h

/-- The construction's refusals are the band of R220 and the two limits of R221. -/
theorem tceBuild_refusesOnly (maxStreams maxTotalDelay : Nat) (s : State) :
    RefusesOnly (listedRefusals .tceBuild) (tceBuild maxStreams maxTotalDelay s) := by
  unfold tceBuild
  split
  · exact refusesOnly_next _ _
  split
  · exact refusesOnly_next _ _
  dsimp only
  split
  · exact refusesOnly_next _ _
  split
  · exact refusesOnly_refused (by decide)
  split
  · exact refusesOnly_refused (by decide)
  split
  · exact refusesOnly_refused (by decide)
  · exact refusesOnly_next _ _

theorem execFsdWork_refusesOnly (cap avail : Nat) (s : State) :
    RefusesOnly (listedRefusals (.fsdWork cap avail)) (execFsdWork cap avail s) := by
  unfold execFsdWork
  split
  · exact refusesOnly_refused (List.mem_singleton_self _)
  · exact refusesOnly_next _ _

theorem execSysRdreg_refusesOnly (l : List Refusal) (reg : BitVec 8) (s : State) :
    RefusesOnly l (execSysRdreg reg s) := by
  unfold execSysRdreg; split <;> exact refusesOnly_next _ _

theorem execLfsrWhiten_refusesOnly (l : List Refusal) (n : Nat) (s : State) :
    RefusesOnly l (execLfsrWhiten n s) := by
  unfold execLfsrWhiten; split <;> exact refusesOnly_next _ _

theorem configure_refusesOnly (l : List Refusal) (s : State) (u : TceUnit) :
    RefusesOnly l (configure s u) := by
  unfold configure; split <;> exact refusesOnly_next _ _

theorem execTceLookup_refusesOnly (l : List Refusal) (v : BitVec 24) (st : BitVec 32) (s : State) :
    RefusesOnly l (execTceLookup v st s) := by
  unfold execTceLookup
  split
  · exact refusesOnly_next _ _
  split
  · exact refusesOnly_next _ _
  cases trellisRead s.tce st.toNat v.toNat with
  | ok e => exact refusesOnly_next _ _
  | error f => exact refusesOnly_fault _ _

theorem execCesForecast_refusesOnly (l : List Refusal) (n : Nat) (s : State) :
    RefusesOnly l (execCesForecast n s) := by
  unfold execCesForecast; split <;> exact refusesOnly_next _ _

theorem execCesWork_refusesOnly (l : List Refusal) (cap avail : Nat) (s : State) :
    RefusesOnly l (execCesWork cap avail s) := by
  unfold execCesWork
  split
  · exact refusesOnly_next _ _
  split
  · exact refusesOnly_next _ _
  cases cesLoop s.tce cap (s.cesWindow avail) s.ces with
  | ok r => exact refusesOnly_next _ _
  | error f => exact refusesOnly_fault _ _

/-- No command is refused but for its listed reasons. -/
theorem exec_refusesOnly (i : Instr) (s : State) : RefusesOnly (listedRefusals i) (exec i s) := by
  cases i with
  | sysRdreg reg => exact execSysRdreg_refusesOnly _ reg s
  | fsdWork cap avail => exact execFsdWork_refusesOnly cap avail s
  | lfsrWhiten n => exact execLfsrWhiten_refusesOnly _ n s
  | tceCfgDim | tceCfgBlock | tceCfgEnd => exact configure_refusesOnly _ s _
  | tceBuild => exact tceBuild_refusesOnly _ _ s
  | tceLookup v st => exact execTceLookup_refusesOnly _ v st s
  | cesForecast n => exact execCesForecast_refusesOnly _ n s
  | cesWork cap avail => exact execCesWork_refusesOnly _ cap avail s
  | strForecast | strWork | fsdForecast | lfsrReset | lfsrOut | lfsrClk | lfsrDewhiten | tceCfgGen | tceCfgFb =>
    exact refusesOnly_next _ _

/-- Only the two commands have a listed refusal. -/
theorem mem_listedRefusals {i : Instr} {r : Refusal} (h : r ∈ listedRefusals i) :
    (i = .tceBuild ∧ (r = .blockLengthBand ∨ r = .tableTooLarge ∨ r = .endStateOutOfRange)) ∨
      (∃ cap avail, i = .fsdWork cap avail ∧ r = .reservedFieldMark) := by
  cases i with
  | tceBuild => exact .inl ⟨rfl, by simpa [listedRefusals] using h⟩
  | fsdWork cap avail => exact .inr ⟨cap, avail, rfl, List.mem_singleton.mp h⟩
  | _ => exact absurd h List.not_mem_nil

/-- Settles O10: a step that is refused took a command, and that command's refusals are listed. -/
theorem onlyListedRefusals : Obligations.OnlyListedRefusals := by
  intro s r h
  unfold step at h
  split at h
  · next i rest hport =>
    rcases mem_listedRefusals (exec_refusesOnly i _ r h) with ⟨rfl, hreason⟩ | ⟨cap, avail, rfl, hreason⟩
    · exact .inl ⟨rest, hport, hreason⟩
    · exact .inr ⟨cap, avail, rest, hport, hreason⟩
  · cases h
  · cases h

end Sys2Proof.Machine
end

section
/-! FSD's first pass by the state and the boundary's marker (O28 to O31; 42_field_sync_demux.md R144 to R150). -/

namespace Sys2Proof.Machine

/-! ### A whole segment at the boundary -/

section Segment

variable {c : MarkerClass} {b : List MarkedSample} (rest : List MarkedSample)

theorem MarkedSegment.not_short (h : MarkedSegment c b) : ¬ (b ++ rest).length < Config.SEG_LEN := by
  rw [List.length_append, h.1, SEG_LEN_eq]; omega

theorem MarkedSegment.head_marker (h : MarkedSegment c b) :
    (b ++ rest).head?.map MarkedSample.marker = some c := by
  obtain ⟨-, x, xs, rfl, hmark⟩ := h
  exact congrArg some hmark

theorem MarkedSegment.drop_append (h : MarkedSegment c b) : (b ++ rest).drop Config.SEG_LEN = rest :=
  List.drop_left' h.1

theorem MarkedSegment.take_append (h : MarkedSegment c b) : (b ++ rest).take Config.SEG_LEN = b :=
  List.take_left' h.1

theorem MarkedSegment.take_self (h : MarkedSegment c b) : b.take Config.SEG_LEN = b :=
  List.take_of_length_le h.1.le

end Segment

/-! ### Scan and lock -/

/-- A locked unit stays at its boundary. -/
theorem fsdLock_of_locked {u : FsdUnit} (h : u.state = .locked) (items : List MarkedSample) :
    fsdLock u items = (u, items) := by
  simp [fsdLock, h]

/-- Items without a marker are skipped (R144). -/
theorem fsdScan_append_of_unmarked {skipped : List MarkedSample} (h : ∀ x ∈ skipped, x.marker = .none)
    (items : List MarkedSample) : fsdScan (skipped ++ items) = fsdScan items :=
  List.dropWhile_append_of_pos fun x hx => by simp [h x hx]

/-- The scan stops at a marker (R144). -/
theorem fsdScan_cons_of_marked {x : MarkedSample} (h : x.marker ≠ .none) (xs : List MarkedSample) :
    fsdScan (x :: xs) = x :: xs :=
  List.dropWhile_cons_of_neg (by simpa using h)

/-- A window without a marker is skipped whole and leaves the unit as it is (R144). -/
theorem fsdLock_of_unmarked {u : FsdUnit} (hu : u.state = .searching) {skipped : List MarkedSample}
    (h : ∀ x ∈ skipped, x.marker = .none) : fsdLock u skipped = (u, []) := by
  have hscan : fsdScan skipped = [] := by simpa [fsdScan] using fsdScan_append_of_unmarked h []
  simp [fsdLock, hu, hscan]

/-- At the first marker the counters are set and the unit locks on it (R145). -/
theorem fsdLock_of_marked {u : FsdUnit} (hu : u.state = .searching) {skipped : List MarkedSample}
    (h : ∀ x ∈ skipped, x.marker = .none) {x : MarkedSample} (hx : x.marker ≠ .none) (xs : List MarkedSample) :
    fsdLock u (skipped ++ x :: xs) = ({ fsdSetCounters u x.marker with state := .locked }, x :: xs) := by
  simp [fsdLock, hu, fsdScan_append_of_unmarked h, fsdScan_cons_of_marked hx]

/-- The registers after the lock, marker by marker. -/
theorem fsdSetCounters_locked (u : FsdUnit) {c : MarkerClass} (h : c ≠ .none) :
    { fsdSetCounters u c with state := .locked } =
      { u with
        state := .locked
        inField2 := if c = .fs1 then false else if c = .fs2 then true else u.inField2
        segmentNumber := if c = .seg then u.segmentNumber else 0 } := by
  cases c with
  | none => exact absurd rfl h
  | seg | fs1 | fs2 => rfl

/-! ### The run from a boundary -/

/-- A run of a locked unit starts at the boundary. -/
theorem fsdRun_of_locked {u : FsdUnit} (h : u.state = .locked) (segs cap : Nat) (items : List MarkedSample) :
    fsdRun segs (cap + 1) u items = fsdFromBoundary segs cap u items := by
  rw [fsdRun_succ, fsdLock_of_locked h]

/-- Less than a whole segment is left where it is (R146). -/
theorem fsdFromBoundary_of_short {items : List MarkedSample} (h : items.length < 832) (segs cap : Nat)
    (u : FsdUnit) : fsdFromBoundary segs cap u items = ⟨u, items, [], false, false⟩ := if_pos h

/-- A field sync sets the counters and the run goes on behind it (R147). -/
theorem fsdFromBoundary_of_fieldSync {c : MarkerClass} {b : List MarkedSample} (h : MarkedSegment c b)
    (hc : c = .fs1 ∨ c = .fs2) (segs cap : Nat) (u : FsdUnit) (rest : List MarkedSample) :
    fsdFromBoundary segs cap u (b ++ rest) = fsdRun segs (cap + 1) (fsdSetCounters u c) rest := by
  rcases hc with rfl | rfl <;>
    simp only [fsdFromBoundary, if_neg (h.not_short rest), h.head_marker, h.drop_append]

/-- A segment sync produces its segment and the run goes on behind it (R148, R149). -/
theorem fsdFromBoundary_of_seg {b : List MarkedSample} (h : MarkedSegment .seg b) (segs cap : Nat) (u : FsdUnit)
    (rest : List MarkedSample) :
    fsdFromBoundary segs cap u (b ++ rest) =
      let r := fsdRun segs cap (fsdAfterEmit segs u) rest
      { r with out := fsdSegment segs u b :: r.out, overflow := fsdOverflows segs u || r.overflow } := by
  have hsegment : fsdSegment segs u (b ++ rest) = fsdSegment segs u b := by
    rw [fsdSegment, fsdSegment, h.take_append, h.take_self]
  simp only [fsdFromBoundary, if_neg (h.not_short rest), h.head_marker, h.drop_append, hsegment]

/-- A boundary without a marker is a sync loss (R150). -/
theorem fsdFromBoundary_of_none {b : List MarkedSample} (h : MarkedSegment .none b) (segs cap : Nat) (u : FsdUnit)
    (rest : List MarkedSample) :
    fsdFromBoundary segs cap u (b ++ rest) = ⟨fsdAfterLoss u, b ++ rest, [], true, false⟩ := by
  simp only [fsdFromBoundary, if_neg (h.not_short rest), h.head_marker]

/-! ### The registers as numbers -/

/-- The number a segment carries is the clamped counter (R149). -/
theorem fsdEmitNumber_eq (segs : Nat) (u : FsdUnit) :
    fsdEmitNumber segs u = BitVec.ofNat 16 (clampedNumber segs u.segmentNumber.toNat) := by
  by_cases h : segs ≤ u.segmentNumber.toNat
  · simp [fsdEmitNumber, fsdOverflows, clampedNumber, h]
  · simp [fsdEmitNumber, fsdOverflows, clampedNumber, h]

/-- The lost position is the segment number with the field behind it (R150). -/
theorem lossPos_eq (number : BitVec 16) (inField2 : Bool) :
    number ++ BitVec.ofBool inField2 = BitVec.ofNat 17 (number.toNat * 2 + (if inField2 then 1 else 0)) := by
  apply BitVec.eq_of_toNat_eq
  rw [toNat_append_eq_add, BitVec.toNat_ofNat, BitVec.toNat_ofBool]
  cases inField2 <;> simp only [Bool.toNat_true, Bool.toNat_false, if_true, Bool.false_eq_true, if_false] <;> omega

/-! ### The obligations -/

/-- Settles O28: each clause is what `fsdLock` does, and what starts at the boundary it finds. -/
theorem fsdScanAndLock : Obligations.FsdScanAndLock := by
  intro segs cap u skipped rest hskip
  refine ⟨fsdRun_zero .., fun hu hshort => ?waits, fun hu => ⟨?skips, fun x xs hrest hmark => ?locks⟩⟩
  case waits => rw [fsdRun_of_locked hu, fsdFromBoundary_of_short hshort]
  case skips => rw [fsdRun_succ, fsdLock_of_unmarked hu hskip, fsdFromBoundary_of_short (by simp)]
  case locks =>
    subst hrest
    rw [fsdRun_succ, fsdLock_of_marked hu hskip hmark, ← fsdSetCounters_locked u hmark, fsdRun_of_locked rfl]

/-- Settles O29: the registers after either field sync are `fsdSetCounters` of its class. -/
theorem fsdFieldSync : Obligations.FsdFieldSync := by
  intro segs cap u b rest hu
  rw [fsdRun_of_locked hu]
  exact ⟨fun h => fsdFromBoundary_of_fieldSync h (.inl rfl) .., fun h => fsdFromBoundary_of_fieldSync h (.inr rfl) ..⟩

/-- Settles O30: the model's registers and segment are those of R148 at the clamped number. -/
theorem fsdEmission : Obligations.FsdEmission := by
  intro segs cap u b rest _ _ hu h n clamped r
  have hafter : fsdAfterEmit segs u =
      { u with segmentNumber := BitVec.ofNat 16 (n + 1), evOverflow := u.evOverflow || clamped } := by
    rw [fsdAfterEmit, fsdEmitNumber_eq, BitVec.ofNat_add]; rfl
  have hsegment : fsdSegment segs u b =
      ⟨if u.inField2 then 2 else 1, BitVec.ofNat 16 n, b.map MarkedSample.sample⟩ := by
    rw [fsdSegment, fsdEmitNumber_eq, h.take_self]; rfl
  rw [fsdRun_of_locked hu, fsdFromBoundary_of_seg h, hafter, hsegment]
  rfl

/-- Settles O31: the run stops at the boundary, with the lost position as a number. -/
theorem fsdSyncLoss : Obligations.FsdSyncLoss := by
  intro segs cap u b rest hu h
  rw [fsdRun_of_locked hu, fsdFromBoundary_of_none h, fsdAfterLoss, lossPos_eq]

end Sys2Proof.Machine
end

section
/-! The numbering of a field's segments (O32; 42_field_sync_demux.md R156). -/

namespace Sys2Proof.Machine

/-- LOCKED in field 1 with the counter at `n`. -/
def inFieldOne (u : FsdUnit) (n : Nat) : FsdUnit :=
  { u with state := .locked, inField2 := false, segmentNumber := BitVec.ofNat 16 n }

/-- The segments of field 1 with the samples of `bs`, numbered from `n` on. -/
def fieldOneSegments : Nat → List (List MarkedSample) → List DataSegment
  | _, [] => []
  | n, b :: bs => ⟨1, BitVec.ofNat 16 n, b.map MarkedSample.sample⟩ :: fieldOneSegments (n + 1) bs

/-- Their headers count up, as long as the numbers fit their 16 bits (20_memory.md R67). -/
theorem fieldOneSegments_headers {n : Nat} {bs : List (List MarkedSample)} (h : n + bs.length ≤ 2 ^ 16) :
    (fieldOneSegments n bs).map (fun d => (d.fieldFlag.toNat, d.segmentNumber.toNat)) =
      (List.range' n bs.length).map (fun k => (1, k)) := by
  induction bs generalizing n with
  | nil => rfl
  | cons b bs ih =>
    rw [List.length_cons] at h
    have hn : (BitVec.ofNat 16 n).toNat = n := Nat.mod_eq_of_lt (by omega)
    rw [fieldOneSegments, List.map_cons, hn, ih (by omega), List.length_cons, List.range'_succ, List.map_cons]
    rfl

theorem fieldOneSegments_payloads (n : Nat) (bs : List (List MarkedSample)) :
    (fieldOneSegments n bs).map DataSegment.payload = bs.map (fun b => b.map MarkedSample.sample) := by
  induction bs generalizing n with
  | nil => rfl
  | cons b bs ih => simp [fieldOneSegments, ih]

/-- From every state of the unit a field-sync-1 segment starts field 1 at number 0 (R145, R147). -/
theorem fsdRun_fieldSync1 {f : List MarkedSample} (hf : MarkedSegment .fs1 f) (segs cap : Nat) (u : FsdUnit)
    (rest : List MarkedSample) :
    fsdRun segs (cap + 1) u (f ++ rest) = fsdRun segs (cap + 1) (inFieldOne u 0) rest := by
  cases hu : u.state with
  | locked => rw [(fsdFieldSync segs cap u f rest hu).1 hf, inFieldOne, ← hu]; rfl
  | searching =>
    obtain ⟨x, xs, rfl, hmark⟩ := hf.2
    have hlock : fsdLock u ((x :: xs) ++ rest) = (inFieldOne u 0, (x :: xs) ++ rest) := by
      have hfirst := fsdLock_of_marked hu (skipped := []) (by simp) (x := x) (by simp [hmark]) (xs ++ rest)
      rwa [hmark] at hfirst
    rw [fsdRun_succ, hlock, fsdFromBoundary_of_fieldSync hf (.inl rfl)]
    rfl

/-- A segment within the field is emitted with the counter's number and without a report (R148). -/
theorem fsdRun_fieldOne_cons {segs n : Nat} (hsegs : segs < 2 ^ 16) (hn : n < segs) {b : List MarkedSample}
    (hb : MarkedSegment .seg b) (cap : Nat) (u : FsdUnit) (rest : List MarkedSample) :
    fsdRun segs (cap + 1) (inFieldOne u n) (b ++ rest) =
      let r := fsdRun segs cap (inFieldOne u (n + 1)) rest
      { r with out := ⟨1, BitVec.ofNat 16 n, b.map MarkedSample.sample⟩ :: r.out } := by
  have hmod : n % 65536 = n := Nat.mod_eq_of_lt (by omega)
  have hemit := fsdEmission segs cap (inFieldOne u n) b rest (by omega) hsegs rfl hb
  simpa [inFieldOne, clampedNumber, hmod, Nat.not_le.mpr hn] using hemit

/-- A row of segments that ends within the field is emitted with the numbers from `n` on, and the run goes on
behind it. -/
theorem fsdRun_fieldOne {segs n : Nat} (hsegs : segs < 2 ^ 16) {bs : List (List MarkedSample)}
    (hbs : ∀ b ∈ bs, MarkedSegment .seg b) (hn : n + bs.length ≤ segs) (cap : Nat) (u : FsdUnit)
    (rest : List MarkedSample) :
    fsdRun segs (bs.length + cap) (inFieldOne u n) (bs.flatten ++ rest) =
      let r := fsdRun segs cap (inFieldOne u (n + bs.length)) rest
      { r with out := fieldOneSegments n bs ++ r.out } := by
  induction bs generalizing n with
  | nil => simp [fieldOneSegments]
  | cons b bs ih =>
    obtain ⟨hb, hbs⟩ := List.forall_mem_cons.mp hbs
    rw [List.length_cons] at hn ⊢
    rw [Nat.add_right_comm, List.flatten_cons, List.append_assoc, fsdRun_fieldOne_cons hsegs (by omega) hb,
      ih hbs (by omega), Nat.add_right_comm n 1, Nat.add_assoc n]
    rfl

/-- A field-sync-1 segment and at most a field's segments, from every state of the unit. -/
theorem fsdRun_wholeFieldOne {segs : Nat} (hsegs : segs < 2 ^ 16) {f : List MarkedSample} (hf : MarkedSegment .fs1 f)
    {bs : List (List MarkedSample)} (hbs : ∀ b ∈ bs, MarkedSegment .seg b) (hlen : bs.length ≤ segs) (cap : Nat)
    (u : FsdUnit) (rest : List MarkedSample) :
    fsdRun segs (bs.length + (cap + 1)) u (f ++ (bs.flatten ++ rest)) =
      let r := fsdRun segs (cap + 1) (inFieldOne u bs.length) rest
      { r with out := fieldOneSegments 0 bs ++ r.out } := by
  rw [← Nat.add_assoc, fsdRun_fieldSync1 hf, Nat.add_assoc, fsdRun_fieldOne hsegs hbs (by omega), Nat.zero_add]

/-- Settles O32: the run is one field, then one field, then a wait for more items. -/
theorem fsdNumbersAField : Obligations.FsdNumbersAField := by
  intro segs cap u f f' bs bs' hsegs hf hf' hbs hbs' hlen hlen' hcap r
  obtain ⟨k, rfl⟩ : ∃ k, cap = bs.length + (bs'.length + k + 1) := ⟨cap - bs.length - bs'.length - 1, by omega⟩
  have hfirst := fsdRun_wholeFieldOne hsegs hf hbs hlen (bs'.length + k) u (f' ++ (bs'.flatten ++ []))
  rw [Nat.add_assoc bs'.length, fsdRun_wholeFieldOne hsegs hf' hbs' hlen', fsdRun_of_locked rfl,
    fsdFromBoundary_of_short (by simp)] at hfirst
  have hout : r.out = fieldOneSegments 0 bs ++ fieldOneSegments 0 bs' ∧
      r.loss = false ∧ r.overflow = false ∧ r.rest = [] := by
    simp only [List.append_nil, ← List.append_assoc] at hfirst
    exact ⟨congrArg FsdRun.out hfirst, congrArg FsdRun.loss hfirst, congrArg FsdRun.overflow hfirst,
      congrArg FsdRun.rest hfirst⟩
  obtain ⟨hout, hreports⟩ := hout
  refine ⟨?headers, ?payloads, hreports⟩
  case headers =>
    rw [hout, List.map_append, List.map_append, fieldOneSegments_headers (by omega),
      fieldOneSegments_headers (by omega), List.range_eq_range', List.range_eq_range']
  case payloads =>
    rw [hout, List.map_append, List.map_append, fieldOneSegments_payloads, fieldOneSegments_payloads]

end Sys2Proof.Machine
end

section
/-! The clock of LFSR bit by bit, and its inverse (O35, O36; 43_lfsr_whitener.md R176, R177, R184). -/

namespace Sys2Proof.Machine

/-! ### The bits of the clock and of its inverse -/

/-- The tested bit enters at the top (R176). -/
theorem clk_getLsbD_top (tap v : BitVec 16) : (clk tap v).getLsbD 15 = v.getLsbD 0 := by
  simp only [clk, BitVec.getLsbD_append]
  simp

/-- Below the top: the bit above, with the mask's bit injected when the tested bit is 1 (R176). -/
theorem clk_getLsbD_of_lt (tap v : BitVec 16) {j : Nat} (hj : j < 15) :
    (clk tap v).getLsbD j = (v.getLsbD (j + 1) ^^ (v.getLsbD 0 && tap.getLsbD (j + 1))) := by
  simp only [clk, BitVec.getLsbD_append, hj, BitVec.getLsbD_extractLsb', decide_true, Nat.add_comm 1 j]
  cases v.getLsbD 0 <;> simp

/-- The inverse puts the top bit back at the bottom (R177). -/
theorem unclk_getLsbD_zero (tap v : BitVec 16) : (unclk tap v).getLsbD 0 = v.getLsbD 15 := by
  simp only [unclk, BitVec.getLsbD_append]
  simp

/-- Above the bottom the inverse takes the mask's bit out again (R177). -/
theorem unclk_getLsbD_succ (tap v : BitVec 16) {j : Nat} (hj : j < 15) :
    (unclk tap v).getLsbD (j + 1) = (v.getLsbD j ^^ (v.getLsbD 15 && tap.getLsbD (j + 1))) := by
  simp only [unclk, BitVec.getLsbD_append, BitVec.getLsbD_xor, BitVec.getLsbD_extractLsb']
  cases v.getLsbD 15 <;> simp [hj, Nat.add_comm 1 j]

/-! ### The clock as a bijection -/

/-- R177: what the clock injected, the inverse takes out, as the tested bit is now the top one. -/
theorem unclk_clk (tap v : BitVec 16) : unclk tap (clk tap v) = v := by
  apply BitVec.eq_of_getLsbD_eq
  intro i hi
  cases i with
  | zero => rw [unclk_getLsbD_zero, clk_getLsbD_top]
  | succ j =>
    rw [unclk_getLsbD_succ tap _ (by omega), clk_getLsbD_of_lt tap v (by omega), clk_getLsbD_top]
    simp

/-- R177, the other side. -/
theorem clk_unclk (tap v : BitVec 16) : clk tap (unclk tap v) = v := by
  apply BitVec.eq_of_getLsbD_eq
  intro i hi
  obtain rfl | hlow : i = 15 ∨ i < 15 := by omega
  · rw [clk_getLsbD_top, unclk_getLsbD_zero]
  · rw [clk_getLsbD_of_lt tap _ hlow, unclk_getLsbD_succ tap v hlow, unclk_getLsbD_zero]
    simp

/-- R184: no bit is tested 1, so none is injected. -/
theorem clk_zero (tap : BitVec 16) : clk tap 0 = 0 := by
  simp [clk]

/-- Settles O36: a function with an inverse on both sides is a bijection. -/
theorem clockIsBijective : Obligations.ClockIsBijective := fun tap =>
  ⟨Function.bijective_iff_has_inverse.mpr ⟨unclk tap, unclk_clk tap, clk_unclk tap⟩, clk_zero tap,
    fun v => ⟨unclk_clk tap v, clk_unclk tap v⟩⟩

/-! ### `LFSR.CLK` -/

/-- `LFSR.CLK` advances the register by one clock and answers OK (R176). -/
theorem exec_lfsrClk (s : State) :
    exec .lfsrClk s =
      .next { s with lfsr := ⟨clk Config.TAP_MASK s.lfsr.s⟩, response := answer 0 0 0 none } :=
  congrArg Host.Outcome.next (respond_eq (s.withLfsr ⟨clk Config.TAP_MASK s.lfsr.s⟩) {} 0 none)

/-- Settles O35: the next register is the clock's, whose bits are known. -/
theorem lfsrClk : Obligations.LfsrClk := fun s =>
  ⟨_, exec_lfsrClk s, clk_getLsbD_top _ _, fun _ => clk_getLsbD_of_lt _ _⟩

end Sys2Proof.Machine
end

section
/-! The register read and written by single commands, and the keystream they give (O34, O41;
43_lfsr_whitener.md R172 to R175, R180, R183). -/

namespace Sys2Proof.Machine

/-- `LFSR.RESET` writes the register and answers OK (R172). -/
theorem exec_lfsrReset (s : State) :
    exec .lfsrReset s = .next { s with lfsr := ⟨Config.PRELOAD⟩, response := answer 0 0 0 none } :=
  congrArg Host.Outcome.next (respond_eq (s.withLfsr ⟨Config.PRELOAD⟩) {} 0 none)

/-- `LFSR.OUT` builds the table and answers the register's output bit (R173, R175). -/
theorem exec_lfsrOut (s : State) :
    exec .lfsrOut s =
      .next { s with
        lutBuilt := true
        response := answer 0 0 (if outBit Config.OUT_LUT s.lfsr.s then 1 else 0) none } := by
  show Host.Outcome.next (s.ensureLut.respond {} _ none) = _
  rw [State.ensureLut_eq, respond_eq]
  cases outBit Config.OUT_LUT s.lfsr.s <;> rfl

/-- The output bit is the table's entry at the register's bits 15 to 2 (R173). -/
theorem outBit_eq (lut : BitVec 14 → Bool) (v : BitVec 16) :
    outBit lut v = lut (BitVec.ofNat 14 (v.toNat / 4)) := by
  rw [outBit, BitVec.extractLsb', Nat.shiftRight_eq_div_pow]

/-- Settles O34: bits 15 to 2 are the register divided by 4. -/
theorem lfsrResetAndOut : Obligations.LfsrResetAndOut := fun s =>
  ⟨exec_lfsrReset s, by rw [← outBit_eq Config.OUT_LUT s.lfsr.s]; exact exec_lfsrOut s⟩

/-! ### The commands on the port -/

/-- The word of `LFSR.CLK` at the head of the port is one clock (30_encoding.md R97). -/
theorem step_lfsrClk {s : State} {rest : List Word} (h : s.port = 0x32000000 :: rest) :
    step s =
      .next { s with
        port := rest, lfsr := ⟨clk Config.TAP_MASK s.lfsr.s⟩, response := answer 0 0 0 none } := by
  have hdecode : decode s.port = .command .lfsrClk rest := by
    rw [h]; exact decode_encode_append (i := .lfsrClk) trivial rest
  rw [step_of_command hdecode, exec_lfsrClk]

/-- The word of `LFSR.OUT` at the head of the port reads the output bit (30_encoding.md R97). -/
theorem step_lfsrOut {s : State} {rest : List Word} (h : s.port = 0x31000000 :: rest) :
    step s =
      .next { s with
        port := rest, lutBuilt := true
        response := answer 0 0 (if outBit Config.OUT_LUT s.lfsr.s then 1 else 0) none } := by
  have hdecode : decode s.port = .command .lfsrOut rest := by
    rw [h]; exact decode_encode_append (i := .lfsrOut) trivial rest
  rw [step_of_command hdecode, exec_lfsrOut]

/-- A run that begins with a step to `t` goes on from `t`. -/
theorem run_succ_of_step {s t : State} (h : step s = .next t) (k : Nat) :
    Host.Core.run Sys2Proof.core (k + 1) s = Host.Core.run Sys2Proof.core k t := by
  have hcore : Sys2Proof.core.step s = .next t := h
  simp only [Host.Core.run, hcore]

/-- Settles O41: by induction on the clocks, each of which is one step. -/
theorem keystreamByStepping : Obligations.KeystreamByStepping := by
  intro k
  induction k with
  | zero =>
    intro s hport
    exact ⟨_, run_succ_of_step (step_lfsrOut hport) 0, rfl, rfl⟩
  | succ k ih =>
    intro s hport
    rw [run_succ_of_step (step_lfsrClk hport)]
    exact ih _ rfl

end Sys2Proof.Machine
end

section
/-! The payload loops bit by bit (43_lfsr_whitener.md R178 to R181; 20_memory.md R68). -/

namespace Sys2Proof.Machine

/-- Setting a bit sets that bit and keeps every other. -/
theorem setBit_getLsbD {w : Nat} (v : BitVec w) (i : Nat) (b : Bool) {p : Nat} (hp : p < w) :
    (setBit v i b).getLsbD p = if p = i then b else v.getLsbD p := by
  have hone : (1#w <<< i).getLsbD p = decide (i = p) := by
    rw [← BitVec.twoPow_eq, BitVec.getLsbD_twoPow]
    by_cases h : i = p <;> simp [h, hp]
  rw [setBit, apply_ite (BitVec.getLsbD · p), BitVec.getLsbD_or, BitVec.getLsbD_and, BitVec.getLsbD_not, hone]
  by_cases h : i = p
  · cases b <;> simp [h]
  · simp [h, Ne.symm h, hp]

section Keystream

variable (tap : BitVec 16) (lut : BitVec 14 → Bool)

/-- The bit loop keeps the positions it does not visit. -/
theorem xorBits_getLsbD_of_not_mem (b : Byte) {ps : List Nat} {p : Nat} (hp : p < 8) (hmem : p ∉ ps)
    (v : BitVec 16) (w : Byte) : (xorBits tap lut b ps v w).2.getLsbD p = w.getLsbD p := by
  induction ps generalizing v w with
  | nil => rfl
  | cons q ps ih =>
    obtain ⟨hne, hmem⟩ := List.ne_and_not_mem_of_not_mem_cons hmem
    rw [xorBits, ih hmem, setBit_getLsbD w q _ hp, if_neg hne]

/-- The position the bit loop visits after `k` clocks meets the keystream's bit `k` (R178). -/
theorem xorBits_getLsbD (b : Byte) {ps : List Nat} (hnodup : ps.Nodup) {p k : Nat} (hp : p < 8)
    (hk : ps[k]? = some p) (v : BitVec 16) (w : Byte) :
    (xorBits tap lut b ps v w).2.getLsbD p = (b.getLsbD p ^^ outBit lut (clkTimes tap k v)) := by
  induction ps generalizing k v w with
  | nil => cases hk
  | cons q ps ih =>
    obtain ⟨hfresh, hnodup⟩ := List.nodup_cons.mp hnodup
    rw [xorBits]
    cases k with
    | zero =>
      cases hk
      rw [xorBits_getLsbD_of_not_mem tap lut b hp hfresh, setBit_getLsbD w _ _ hp, if_pos rfl]
      rfl
    | succ k => exact ih hnodup hk _ _

/-- A byte meets eight keystream bits, from its most significant bit down (R178; 20_memory.md R68). -/
theorem xorByte_getLsbD (v : BitVec 16) (b : Byte) {p : Nat} (hp : p < 8) :
    (xorByte tap lut v b).2.getLsbD p = (b.getLsbD p ^^ outBit lut (clkTimes tap (7 - p) v)) := by
  have hvisit : ∀ p < 8, payloadBitOrder[7 - p]? = some p := by decide
  exact xorBits_getLsbD tap lut b (by decide) hp (hvisit p hp) v 0

theorem xorByte_register (v : BitVec 16) (b : Byte) : (xorByte tap lut v b).1 = clkTimes tap 8 v :=
  xorBits_register tap lut b payloadBitOrder v 0

/-- XOR with the keystream is its own inverse, on a byte (R179). -/
theorem xorByte_xorByte (v : BitVec 16) (b : Byte) :
    (xorByte tap lut v (xorByte tap lut v b).2).2 = b := by
  apply BitVec.eq_of_getLsbD_eq
  intro p hp
  rw [xorByte_getLsbD tap lut v _ hp, xorByte_getLsbD tap lut v b hp]
  simp

/-- XOR with the keystream is its own inverse, on a payload (R181). -/
theorem xorBytes_xorBytes (v : BitVec 16) (bs : List Byte) :
    (xorBytes tap lut v (xorBytes tap lut v bs).2).2 = bs := by
  induction bs generalizing v with
  | nil => rfl
  | cons b bs ih => simp only [xorBytes, xorByte_register, xorByte_xorByte, ih]

/-- Bit `p` of byte `j` meets the keystream's bit `8 j + (7 - p)`, counted from the register before the payload
(R178, R180). -/
theorem xorBytes_getLsbD (v : BitVec 16) {bs : List Byte} {j p : Nat} (hj : j < bs.length) (hp : p < 8) :
    (((xorBytes tap lut v bs).2[j]?).getD 0).getLsbD p =
      (((bs[j]?).getD 0).getLsbD p ^^ outBit lut (clkTimes tap (8 * j + (7 - p)) v)) := by
  induction bs generalizing v j with
  | nil => exact absurd hj (Nat.not_lt_zero j)
  | cons b bs ih =>
    cases j with
    | zero => simpa [xorBytes] using xorByte_getLsbD tap lut v b hp
    | succ j =>
      have hclocks : 8 * (j + 1) + (7 - p) = 8 + (8 * j + (7 - p)) := by omega
      rw [hclocks, clkTimes_add, ← xorByte_register tap lut v b]
      exact ih (xorByte tap lut v b).1 (Nat.lt_of_succ_lt_succ hj)

end Keystream

end Sys2Proof.Machine
end

section
/-! `LFSR.WHITEN` and `LFSR.DEWHITEN` as whole next states, and the round trip (O37 to O40;
43_lfsr_whitener.md R178, R179, R181). -/

namespace Sys2Proof.Machine

@[simp] theorem State.lfsrWindow_length (s : State) (n : Nat) : (s.lfsrWindow n).length = n :=
  inputWindow_length _ n _

/-- The table is built where a condition asks for it (R175). -/
theorem ite_ensureLut_eq (s : State) (p : Prop) [Decidable p] :
    (if p then s.ensureLut else s) = s.withLutBuilt (s.lutBuilt || decide p) := by
  by_cases hp : p
  · simp [hp, State.ensureLut_eq]
  · simp [hp, State.withLutBuilt]

/-- What a payload operation leaves, field by field (R178, R179). -/
theorem lfsrPayload_eq (s : State) (p : Prop) [Decidable p] (u : LfsrUnit) (out : List Byte)
    (val : BitVec 24) :
    (((if p then s.ensureLut else s).withLfsr u).emitLfsr out).tick.respond {} val none =
      { s with
        lfsr := u, lutBuilt := s.lutBuilt || decide p
        win := { s.win with lfsrOut := out ++ s.win.lfsrOut.drop out.length }
        freeCount := s.freeCount + 1, response := answer 0 0 val.toNat none } := by
  rw [ite_ensureLut_eq, respond_eq]
  rfl

/-! ### The bytes of a command -/

/-- The bytes `LFSR.WHITEN n` emits. -/
def State.whitened (s : State) (n : Nat) : List Byte :=
  (whitenBytes Config.TAP_MASK Config.OUT_LUT s.lfsr.s (s.lfsrWindow n)).2

/-- The bytes `LFSR.DEWHITEN m` emits. -/
def State.dewhitened (s : State) (m : Nat) : List Byte :=
  (dewhitenBytes Config.FRAMING_BYTE Config.TAP_MASK Config.OUT_LUT s.lfsr.s (s.lfsrWindow m)).2

@[simp] theorem State.whitened_length (s : State) (n : Nat) : (s.whitened n).length = n - 1 := by
  simp [State.whitened, whitenBytes]

@[simp] theorem State.dewhitened_length (s : State) (m : Nat) : (s.dewhitened m).length = m + 1 := by
  simp [State.dewhitened, dewhitenBytes]

/-- Byte `j` emitted is payload byte `j + 1` on the keystream from bit `8 j` on (R178). -/
theorem whitened_getLsbD (s : State) {n j p : Nat} (hj : j + 1 < n) (hp : p < 8) :
    (((s.whitened n)[j]?).getD 0).getLsbD p =
      ((((s.lfsrWindow n)[j + 1]?).getD 0).getLsbD p ^^
        outBit Config.OUT_LUT (clkTimes Config.TAP_MASK (8 * j + (7 - p)) s.lfsr.s)) := by
  have hbyte : ((s.lfsrWindow n).drop 1)[j]? = (s.lfsrWindow n)[j + 1]? := by
    rw [List.getElem?_drop, Nat.add_comm]
  rw [← hbyte]
  exact xorBytes_getLsbD _ _ _ (by rw [List.length_drop, State.lfsrWindow_length]; omega) hp

/-- Behind the framing byte, byte `j` of the window on the keystream from bit `8 j` on (R179). -/
theorem dewhitened_getLsbD (s : State) {m j p : Nat} (hj : j < m) (hp : p < 8) :
    (((s.dewhitened m)[j + 1]?).getD 0).getLsbD p =
      ((((s.lfsrWindow m)[j]?).getD 0).getLsbD p ^^
        outBit Config.OUT_LUT (clkTimes Config.TAP_MASK (8 * j + (7 - p)) s.lfsr.s)) :=
  xorBytes_getLsbD _ _ _ (by rwa [State.lfsrWindow_length]) hp

/-! ### The commands -/

/-- `LFSR.WHITEN` of no byte is E_RANGE (R178). -/
theorem exec_lfsrWhiten_zero (s : State) :
    exec (.lfsrWhiten 0) s = .next { s with response := answer 3 0 0 none } :=
  congrArg Host.Outcome.next (raise_eq s .range false)

/-- `LFSR.WHITEN` as a whole next state (R178). -/
theorem exec_lfsrWhiten (s : State) {n : Nat} (hpos : 0 < n) (hn : n < 2 ^ 24) :
    exec (.lfsrWhiten n) s =
      .next { s with
        lfsr := ⟨clkTimes Config.TAP_MASK (8 * (n - 1)) s.lfsr.s⟩
        lutBuilt := s.lutBuilt || decide (1 < n)
        win := { s.win with lfsrOut := s.whitened n ++ s.win.lfsrOut.drop (s.whitened n).length }
        freeCount := s.freeCount + 1
        response := answer 0 0 (n - 1) none } := by
  have hregister : (whitenBytes Config.TAP_MASK Config.OUT_LUT s.lfsr.s (s.lfsrWindow n)).1 =
      clkTimes Config.TAP_MASK (8 * (n - 1)) s.lfsr.s := by
    rw [whitenBytes, xorBytes_register, List.length_drop, State.lfsrWindow_length]
  have hexec : exec (.lfsrWhiten n) s = _ := if_neg hpos.ne'
  rw [hexec, lfsrPayload_eq, hregister, valOf_toNat _ (by omega), State.whitened]

/-- `LFSR.DEWHITEN` as a whole next state (R179; log 10 for the VAL of the last operand). -/
theorem exec_lfsrDewhiten (s : State) (m : Nat) :
    exec (.lfsrDewhiten m) s =
      .next { s with
        lfsr := ⟨clkTimes Config.TAP_MASK (8 * m) s.lfsr.s⟩
        lutBuilt := s.lutBuilt || decide (0 < m)
        win := { s.win with lfsrOut := s.dewhitened m ++ s.win.lfsrOut.drop (s.dewhitened m).length }
        freeCount := s.freeCount + 1
        response := answer 0 0 (valOrFree s.freeCount (m + 1)).toNat none } := by
  have hregister : (dewhitenBytes Config.FRAMING_BYTE Config.TAP_MASK Config.OUT_LUT s.lfsr.s
      (s.lfsrWindow m)).1 = clkTimes Config.TAP_MASK (8 * m) s.lfsr.s := by
    rw [dewhitenBytes, xorBytes_register, State.lfsrWindow_length]
  rw [← hregister]
  exact congrArg Host.Outcome.next (lfsrPayload_eq s (0 < m) _ _ _)

/-- A count that fits VAL is answered (30_encoding.md R103). -/
theorem valOrFree_toNat (free : Nat) {n : Nat} (h : n < 2 ^ 24) : (valOrFree free n).toNat = n := by
  rw [valOrFree, if_pos h, valOf_toNat n h]

/-! ### The obligations -/

/-- Settles O37: the bytes are those `whiten` emits, bit by bit. -/
theorem lfsrWhiten : Obligations.LfsrWhiten := by
  intro n s hn
  refine ⟨?empty, fun hpos => ?bytes⟩
  case empty => rintro rfl; exact exec_lfsrWhiten_zero s
  case bytes =>
    exact ⟨s.whitened n, s.whitened_length n, fun _ _ => whitened_getLsbD s, exec_lfsrWhiten s hpos hn⟩

/-- Settles O38: the bytes are those `dewhiten` emits, bit by bit, and their count fits VAL. -/
theorem lfsrDewhiten : Obligations.LfsrDewhiten := by
  intro m s hm
  have hexec := exec_lfsrDewhiten s m
  rw [valOrFree_toNat _ hm] at hexec
  exact ⟨s.dewhitened m, s.dewhitened_length m, rfl, fun _ _ => dewhitened_getLsbD s, hexec⟩

/-- Settles O39: the command is the same, and its VAL is the free one. -/
theorem lfsrDewhitenLongest : Obligations.LfsrDewhitenLongest := by
  intro s
  have hexec := exec_lfsrDewhiten s (2 ^ 24 - 1)
  have hbuilt : (s.lutBuilt || decide (0 < 2 ^ 24 - 1)) = true := by simp
  rw [hbuilt] at hexec
  exact ⟨s.dewhitened (2 ^ 24 - 1), _, s.dewhitened_length _, BitVec.isLt _, rfl,
    fun _ _ => dewhitened_getLsbD s, hexec⟩

/-! ### The round trip (R181) -/

/-- De-whitening what was whitened, from the same register, puts back the payload's first byte as the framing byte
and gives the other bytes back. -/
theorem dewhitenBytes_whitenBytes (framing : Byte) (tap : BitVec 16) (lut : BitVec 14 → Bool) (v : BitVec 16)
    {payload : List Byte} (h : payload.head? = some framing) :
    (dewhitenBytes framing tap lut v (whitenBytes tap lut v payload).2).2 = payload := by
  obtain ⟨rest, rfl⟩ := List.head?_eq_some_iff.mp h
  exact congrArg (framing :: ·) (xorBytes_xorBytes tap lut v rest)

/-- A window filled exactly is its items (20_memory.md R65). -/
theorem lfsrWindow_of_length {s : State} {n : Nat} (h : s.win.lfsrIn.length = n) :
    s.lfsrWindow n = s.win.lfsrIn := by
  rw [State.lfsrWindow, inputWindow_filled _ n _ h.ge, List.take_of_length_le h.le]

/-- The bytes de-whitened, from a state that holds the register before and the bytes whitened. -/
theorem dewhitened_of_whitened {s s' : State} {n : Nat} (hpos : 0 < n) (hfilled : Filled n s.win.lfsrIn)
    (hframing : s.win.lfsrIn[0]? = some Config.FRAMING_BYTE) (hlfsr : s'.lfsr = s.lfsr)
    (hin : s'.win.lfsrIn = s.whitened n) : s'.dewhitened (n - 1) = s.win.lfsrIn.take n := by
  have hwindow : s.lfsrWindow n = s.win.lfsrIn.take n := inputWindow_filled _ n _ hfilled
  have hhead : (s.lfsrWindow n).head? = some Config.FRAMING_BYTE := by
    rw [hwindow, List.head?_eq_getElem?, List.getElem?_take_of_lt hpos, hframing]
  rw [State.dewhitened, hlfsr, lfsrWindow_of_length (by rw [hin, State.whitened_length]), hin, State.whitened,
    dewhitenBytes_whitenBytes _ _ _ _ hhead, hwindow]

/-- Settles O40: the output window of the first command, cut to its bytes, is what was whitened. -/
theorem whitenRoundTrip : Obligations.WhitenRoundTrip := by
  intro n s s' hpos hn hfilled hframing hlfsr
  refine ⟨_, exec_lfsrWhiten s hpos hn, rfl, fun hin => ⟨_, exec_lfsrDewhiten s' (n - 1), ?_, ?_⟩⟩
  · have hout : s'.win.lfsrIn = s.whitened n := by rw [hin]; exact List.take_left' (s.whitened_length n)
    have hback := dewhitened_of_whitened hpos hfilled hframing hlfsr hout
    have hlen : (s'.dewhitened (n - 1)).length = n := by rw [State.dewhitened_length]; omega
    rw [← hback]
    exact List.take_left' hlen
  · rw [hlfsr]

end Sys2Proof.Machine
end

section
/-! The configuration writes of TCE and its lookup as whole next states (O42, O43, O53;
44_trellis_code_engine.md R202 to R207, R230). -/

namespace Sys2Proof.Machine

/-- A configuration write is accepted while UNBUILT and E_STATE otherwise (R207). -/
theorem configure_eq (s : State) (u : TceUnit) :
    configure s u =
      if s.tce.buildState = .unbuilt then .next { s with tce := u, response := answer 0 0 0 none }
      else .next { s with response := answer 2 0 0 none } := by
  unfold configure
  split
  · exact congrArg Host.Outcome.next (respond_eq (s.withTce u) {} 0 none)
  · exact congrArg Host.Outcome.next (raise_eq s .state false)

/-- Settles O42: each is `configure` with its registers. -/
theorem configurationWrites : Obligations.ConfigurationWrites :=
  ⟨fun _ _ s => configure_eq s _, fun _ _ s => configure_eq s _, fun _ s => configure_eq s _⟩

/-! ### Matrix writes (R203, R204) -/

theorem configureEntry_of_not_unbuilt {s : State} (h : s.tce.buildState ≠ .unbuilt) (maxStreams i o : Nat)
    (u : TceUnit) : configureEntry maxStreams i o s u = .next { s with response := answer 2 0 0 none } := by
  rw [configureEntry, if_neg h, raise_eq]; rfl

theorem configureEntry_of_out_of_range {s : State} (h : s.tce.buildState = .unbuilt) {maxStreams i o : Nat}
    (hrange : maxStreams ≤ i ∨ maxStreams ≤ o) (u : TceUnit) :
    configureEntry maxStreams i o s u = .next { s with response := answer 3 0 0 none } := by
  rw [configureEntry, if_pos h, if_pos hrange, raise_eq]; rfl

theorem configureEntry_of_in_range {s : State} (h : s.tce.buildState = .unbuilt) {maxStreams i o : Nat}
    (hi : i < maxStreams) (ho : o < maxStreams) (u : TceUnit) :
    configureEntry maxStreams i o s u =
      .next { s with tce := u, response := answer 0 0 0 none } := by
  rw [configureEntry, if_pos h, if_neg (by omega), respond_eq]; rfl

/-- A write at a position of 8-bit operands, read back by position (20_memory.md R64). -/
theorem memRead_memWrite_cfgKey {m : Memory} (h : m.wf) {i o a b : Nat} (ho : o < 256) (hb : b < 256)
    (v : BitVec 32) :
    memRead (memWrite m (cfgKey i o) v) (cfgKey a b) =
      if a = i ∧ b = o then some v else memRead m (cfgKey a b) := by
  simp only [memRead_memWrite m h, cfgKey_inj hb ho]

/-- Settles O43: `memWrite` on the one matrix, E_STATE before E_RANGE. -/
theorem matrixWrites : Obligations.MatrixWrites := by
  intro i o mask s hgen hfb
  refine ⟨fun hstate => ⟨?_, ?_⟩, fun hstate hrange => ⟨?_, ?_⟩, fun hstate hi ho => ?_⟩
  · exact configureEntry_of_not_unbuilt hstate _ _ _ _
  · exact configureEntry_of_not_unbuilt hstate _ _ _ _
  · exact configureEntry_of_out_of_range hstate hrange _
  · exact configureEntry_of_out_of_range hstate hrange _
  · have ho' : o < 256 := by have := Config.MAX_STREAMS_range.2; omega
    exact ⟨memWrite s.tce.gen (cfgKey i o) mask, memWrite s.tce.fb (cfgKey i o) mask,
      memWrite_wf _ hgen _ _, memWrite_wf _ hfb _ _,
      fun _ _ hb => memRead_memWrite_cfgKey hgen ho' hb mask,
      fun _ _ hb => memRead_memWrite_cfgKey hfb ho' hb mask,
      configureEntry_of_in_range hstate hi ho _, configureEntry_of_in_range hstate hi ho _⟩

/-! ### Lookup (R230) -/

/-- `TCE.LOOKUP` of an operand outside TRELLIS. -/
theorem exec_tceLookup_out_of_range {s : State} (h : s.tce.buildState = .built) {v : BitVec 24}
    {st : BitVec 32} (hrange : 2 ^ s.tce.totalDelay.toNat ≤ st.toNat ∨ 2 ^ s.tce.inputs.toNat ≤ v.toNat) :
    exec (.tceLookup v st) s = .next { s with response := answer 3 0 0 (some 0) } := by
  show execTceLookup v st s = _
  rw [execTceLookup, if_neg (not_not.mpr h), if_pos hrange, raised_eq, raise_eq]; rfl

/-- `TCE.LOOKUP` of an operand inside TRELLIS answers the entry read. -/
theorem exec_tceLookup_of_read {s : State} (h : s.tce.buildState = .built) {v : BitVec 24} {st : BitVec 32}
    (hst : st.toNat < 2 ^ s.tce.totalDelay.toNat) (hv : v.toNat < 2 ^ s.tce.inputs.toNat) {e : TrellisEntry}
    (hread : trellisRead s.tce st.toNat v.toNat = .ok e) :
    exec (.tceLookup v st) s = .next { s with response := answer 0 0 e.out.toNat (some e.next) } := by
  show execTceLookup v st s = _
  simp only [execTceLookup, if_neg (not_not.mpr h), if_neg (not_or.mpr ⟨not_le.mpr hst, not_le.mpr hv⟩), hread,
    respond_eq]
  rfl

/-- Settles O53: a built TRELLIS holds an entry in range for every state and combination. -/
theorem lookupAnswers : Obligations.LookupAnswers := by
  intro v st s hinv
  refine ⟨fun hstate => ?_, fun hstate => exec_tceLookup_out_of_range hstate, fun hstate hst hv => ?_⟩
  · show execTceLookup v st s = _
    rw [execTceLookup, if_pos hstate, raised_eq, raise_eq]; rfl
  · obtain ⟨-, -, htce, -⟩ := hinv
    obtain ⟨-, -, -, -, hbuilt⟩ := (tceInv_iff_of_built _ hstate).mp htce
    obtain ⟨-, -, -, -, -, hlen, hentries, -⟩ := hbuilt
    obtain ⟨e, hmem, hread⟩ := trellisRead_in_range s.tce st.toNat v.toNat _ hlen hst hv
    obtain ⟨hnext, hout⟩ := hentries e hmem
    exact ⟨e, (trellisRead_ok _ _ _ _).mp hread, hnext, hout, exec_tceLookup_of_read hstate hst hv hread⟩

end Sys2Proof.Machine
end

section
/-! The outcomes of TCE.BUILD (O44, O45, O47; 44_trellis_code_engine.md R208 to R210, R220, R221, R226). -/

namespace Sys2Proof.Machine

/-! ### The checks in the terms of the statements -/

theorem checksBlockLength_iff (u : TceUnit) :
    checksBlockLength u = true ↔ u.doTerm = true ∧ u.blockLen ≠ 0 := by
  simp [checksBlockLength, BitVec.toNat_eq]

/-- The block is shorter than `max_delay` exactly when it is shorter than some memory (R219, R220). -/
theorem lt_chosenMaxDelay_iff (u : TceUnit) (len : Nat) :
    len < chosenMaxDelay u ↔ ∃ m ∈ selectedMems u, len < m.len := by
  rw [chosenMaxDelay, ← selectedMems_eq, ← not_le, maxOf_le]
  simp

theorem chosenMaxDelay_le_chosenTotal (u : TceUnit) : chosenMaxDelay u ≤ chosenTotal u := by
  rw [chosenTotal_eq, selectedMems_eq]
  exact (maxOf_le _ _).mpr fun _ hlen => List.le_sum_of_mem hlen

theorem zeroColumn_iff (u : TceUnit) :
    zeroColumn u = true ↔ ∃ o < u.outputs.toNat, ∀ i < u.inputs.toNat, cfgEntry u.gen i o = 0 := by
  simp [zeroColumn, genMask]

theorem zeroRow_iff (u : TceUnit) :
    zeroRow u = true ↔ ∃ i < u.inputs.toNat, ∀ o < u.outputs.toNat, cfgEntry u.gen i o = 0 := by
  simp [zeroRow, genMask]

/-! ### The construction by its outcomes (R208) -/

/-- The STATUS code of an error answer (30_encoding.md R94). -/
theorem statusOf_answer {t : State} {status : Nat} {rx : Option Word} (h : t.response = answer status 0 0 rx)
    (hstatus : status < 16) : statusOf t = some status := by
  rw [statusOf, h]
  simp only [answer, Option.map_some, Option.some.injEq, BitVec.toNat_ofNat]
  omega

theorem tceBuild_of_not_unbuilt {s : State} (h : s.tce.buildState ≠ .unbuilt) (ms mt : Nat) :
    tceBuild ms mt s = .next { s with response := answer 2 0 0 none } := by
  rw [tceBuild, if_pos h, raised_eq, raise_eq]; rfl

theorem tceBuild_of_bad_shape {s : State} (h : s.tce.buildState = .unbuilt) {ms : Nat}
    (hshape : shapeValid ms s.tce = false) (mt : Nat) :
    tceBuild ms mt s =
      .next { s with
        tce := { s.tce with errDim := true, buildState := .failed }
        response := answer 4 0 0 none } := by
  rw [tceBuild, if_neg (not_not.mpr h), if_pos hshape, raised_eq, raise_eq]; rfl

/-- Steps 2 to 8 on a configuration whose shape is right, the error status and the answer written out. -/
theorem tceBuild_of_shape {s : State} (h : s.tce.buildState = .unbuilt) {ms : Nat}
    (hshape : shapeValid ms s.tce = true) (mt : Nat) :
    tceBuild ms mt s =
      if checksBlockLength s.tce ∧ s.tce.blockLen.toNat < chosenMaxDelay s.tce then
        .next { s with
          tce := { analyse s.freeCount s.tce with errBlocklen := true, buildState := .failed }
          freeCount := s.freeCount + 1, response := answer 4 0 0 none }
      else if checksBlockLength s.tce ∧ s.tce.blockLen.toNat < chosenTotal s.tce then
        .refused .blockLengthBand
      else if mt < chosenTotal s.tce then .refused .tableTooLarge
      else if s.tce.doTerm ∧ 2 ^ chosenTotal s.tce ≤ s.tce.endState.toNat then
        .refused .endStateOutOfRange
      else
        .next { s with
          tce := finishBuild (analyse s.freeCount s.tce), freeCount := s.freeCount + 1
          response := answer 0 (flagAt (zeroColumn s.tce || zeroRow s.tce) 3) 0 none } := by
  have hshape' : ¬ shapeValid ms s.tce = false := by simp [hshape]
  rw [tceBuild, if_neg (not_not.mpr h), if_neg hshape']
  simp only [raised_eq, raise_eq, respond_eq]
  have hevents : ∀ b, flagAt false 0 + flagAt false 1 + flagAt false 2 + flagAt b 3 = flagAt b 3 :=
    fun b => by simp [flagAt]
  simp only [hevents]
  rfl

/-- A block of at least T passes both checks of R220. -/
theorem tceBuild_of_long_block {s : State} (h : s.tce.buildState = .unbuilt) {ms : Nat}
    (hshape : WellShaped ms s.tce)
    (hlong : ¬ ((s.tce.doTerm = true ∧ s.tce.blockLen ≠ 0) ∧
      s.tce.blockLen.toNat < delayBits (selectedMems s.tce))) (mt : Nat) :
    tceBuild ms mt s =
      if mt < delayBits (selectedMems s.tce) then .refused .tableTooLarge
      else if s.tce.doTerm ∧ 2 ^ delayBits (selectedMems s.tce) ≤ s.tce.endState.toNat then
        .refused .endStateOutOfRange
      else
        .next { s with
          tce := finishBuild (analyse s.freeCount s.tce), freeCount := s.freeCount + 1
          response := answer 0 (flagAt (zeroColumn s.tce || zeroRow s.tce) 3) 0 none } := by
  rw [← chosenTotal_eq] at hlong ⊢
  rw [← checksBlockLength_iff] at hlong
  have hmax := chosenMaxDelay_le_chosenTotal s.tce
  rw [tceBuild_of_shape h (shapeValid_of_wellShaped _ _ hshape),
    if_neg fun hshort => hlong ⟨hshort.1, hshort.2.trans_le hmax⟩, if_neg hlong]

/-- A construction that answers OK has passed every check (R208). -/
theorem tceBuild_ok {ms mt : Nat} {s t : State} (h : tceBuild ms mt s = .next t)
    (hok : statusOf t = some 0) :
    chosenTotal s.tce ≤ mt ∧ t.tce = finishBuild (analyse s.freeCount s.tce) ∧
      t.response = answer 0 (flagAt (zeroColumn s.tce || zeroRow s.tce) 3) 0 none := by
  have notOk : ∀ status, t.response = answer status 0 0 none → 0 < status ∧ status < 16 → False :=
    fun status hresponse ⟨hpos, hlt⟩ => by
      rw [statusOf_answer hresponse hlt, Option.some.injEq] at hok; omega
  by_cases hu : s.tce.buildState = .unbuilt
  case neg =>
    rw [tceBuild_of_not_unbuilt hu] at h
    cases h; exact (notOk 2 rfl (by decide)).elim
  cases hshape : shapeValid ms s.tce with
  | false =>
    rw [tceBuild_of_bad_shape hu hshape] at h
    cases h; exact (notOk 4 rfl (by decide)).elim
  | true =>
    rw [tceBuild_of_shape hu hshape] at h
    split at h
    · cases h; exact (notOk 4 rfl (by decide)).elim
    split at h
    · cases h
    split at h
    · cases h
    next htotal =>
    split at h
    · cases h
    cases h
    exact ⟨not_lt.mp htotal, rfl, rfl⟩

/-! ### The obligations -/

/-- Settles O44: each cause contradicts `WellShaped`, which the check of shape decides. -/
theorem buildRejectsBadShape : Obligations.BuildRejectsBadShape := by
  intro s hu hgen hfb hcause
  refine tceBuild_of_bad_shape hu (Bool.eq_false_iff.mpr fun hshape => ?_) _
  obtain ⟨hi0, hi, ho0, ho, -, hg, hf⟩ := (shapeValid_iff _ _ hgen hfb).mp hshape
  rcases hcause with hc | hc | hc | hc | hc | ⟨hhas, hc⟩
  · simp [hc] at hi0
  · exact absurd hi (not_le.mpr hc)
  · simp [hc] at ho0
  · exact absurd ho (not_le.mpr hc)
  · exact hc hg
  · exact hc (hf hhas).2

/-- Settles O45: the outcomes of `tceBuild` in the order of its checks. -/
theorem buildRejectsOrRefuses : Obligations.BuildRejectsOrRefuses := by
  refine ⟨fun _ => rfl, ?_⟩
  intro ms mt s hu hshape checked len mems total
  have hvalid := shapeValid_of_wellShaped _ _ hshape
  refine ⟨?short, ?band, fun hlong htotal => ?table, fun hlong htotal hterm hend => ?endState⟩
  case short =>
    rintro ⟨hchecked, hshort⟩
    rw [tceBuild_of_shape hu hvalid,
      if_pos ⟨(checksBlockLength_iff _).mpr hchecked, (lt_chosenMaxDelay_iff _ _).mpr hshort⟩]
    exact ⟨_, rfl, rfl, rfl, rfl, rfl, rfl, rfl, rfl, rfl, rfl, rfl, rfl, rfl, rfl⟩
  case band =>
    rintro ⟨hchecked, hfits, hband⟩
    have hnotShort : ¬ len < chosenMaxDelay s.tce := by
      rw [lt_chosenMaxDelay_iff]
      rintro ⟨m, hm, hlt⟩
      exact absurd (hfits m hm) (not_le.mpr hlt)
    rw [tceBuild_of_shape hu hvalid, if_neg fun h => hnotShort h.2,
      if_pos ⟨(checksBlockLength_iff _).mpr hchecked, (chosenTotal_eq _).trans_gt hband⟩]
  case table => rw [tceBuild_of_long_block hu hshape hlong, if_pos htotal]
  case endState =>
    rw [tceBuild_of_long_block hu hshape hlong, if_neg (not_lt.mpr htotal), if_pos ⟨hterm, hend⟩]

/-- Settles O47: the warnings are those of the generator matrix, which the construction leaves alone. -/
theorem buildWarnings : Obligations.BuildWarnings := by
  intro ms mt s t h hok
  obtain ⟨-, htce, hresponse⟩ := tceBuild_ok h hok
  have hout : t.tce.warnZeroOut = zeroColumn s.tce := by rw [htce]; rfl
  have hin : t.tce.warnZeroIn = zeroRow s.tce := by rw [htce]; rfl
  refine ⟨by rw [hout, zeroColumn_iff], by rw [hin, zeroRow_iff], ?_⟩
  rw [hresponse, hout, hin]
  simp [flagAt]

end Sys2Proof.Machine
end

section
/-! The memories of a candidate (O46; 44_trellis_code_engine.md R211 to R216): the sketches after the first of the
positions, then their lengths and offsets. -/

namespace Sys2Proof.Machine

/-! ### Degrees and lengths (R211, R216) -/

/-- No term stands above the degree. -/
theorem getLsbD_of_degFrom_lt (p : BitVec 32) {k j : Nat} (hdeg : degFrom p k < j) (hj : j ≤ k) :
    p.getLsbD j = false := by
  induction k with
  | zero => omega
  | succ k ih =>
    unfold degFrom at hdeg
    split at hdeg
    · omega
    · next hbit =>
      rcases Nat.lt_or_eq_of_le hj with hlt | rfl
      · exact ih hdeg (Nat.le_of_lt_succ hlt)
      · simpa using hbit

theorem getLsbD_degFrom (p : BitVec 32) {k : Nat} (h : 0 < degFrom p k) : p.getLsbD (degFrom p k) = true := by
  induction k with
  | zero => exact absurd h (Nat.lt_irrefl 0)
  | succ k ih =>
    unfold degFrom at h ⊢
    split at h
    · next hbit => rw [if_pos hbit]; exact hbit
    · next hbit => rw [if_neg hbit]; exact ih h

theorem getLsbD_of_deg_lt (p : BitVec 32) {j : Nat} (h : deg p < j) : p.getLsbD j = false := by
  rcases Nat.lt_or_ge j 32 with hj | hj
  · exact getLsbD_of_degFrom_lt p h (by omega)
  · exact BitVec.getLsbD_of_ge p j hj

theorem getLsbD_deg (p : BitVec 32) (h : 0 < deg p) : p.getLsbD (deg p) = true := getLsbD_degFrom p h

/-- The length is the least bound of the degrees of the memory's polynomials (R216). -/
theorem memoryLength_le_iff (gen : Nat → Nat → BitVec 32) (m : MemorySketch) (n : Nat) :
    memoryLength gen m ≤ n ↔ deg m.phi ≤ n ∧ ∀ b ∈ m.members, deg (gen m.owner b) ≤ n := by
  simp [memoryLength, maxOf_le]

/-- A positive length is the degree of one of the memory's polynomials (R216). -/
theorem memoryLength_eq_deg (gen : Nat → Nat → BitVec 32) (m : MemorySketch) (h : 0 < memoryLength gen m) :
    memoryLength gen m = deg m.phi ∨ ∃ b ∈ m.members, memoryLength gen m = deg (gen m.owner b) := by
  rcases max_choice (deg m.phi) (maxOf (m.members.map fun b => deg (gen m.owner b))) with hmax | hmax
  · exact .inl hmax
  · obtain ⟨b, hb, hdeg⟩ := List.mem_map.mp (maxOf_mem _ (h.trans_eq hmax))
    exact .inr ⟨b, hb, hmax.trans hdeg.symm⟩

/-! ### Sketches in creation order (R213 to R215) -/

/-- The creation order of positions: owners outside, members inside. -/
def PosLt (p q : Nat × Nat) : Prop := p.1 < q.1 ∨ (p.1 = q.1 ∧ p.2 < q.2)

/-- What stays of a memory when a member joins it: owner, feedback and first member. -/
def MemorySketch.founding (m : MemorySketch) : Nat × BitVec 32 × Nat := (m.owner, m.phi, m.members.headD 0)

/-- The order of memories by what founded them; a later one of the same owner has another feedback. -/
def FoundedBefore (x y : Nat × BitVec 32 × Nat) : Prop :=
  (x.1 ≠ y.1 ∨ x.2.1 ≠ y.2.1) ∧ PosLt (x.1, x.2.2) (y.1, y.2.2)

/-- The sketches after the positions `ps`. -/
structure SketchesOf (gen fb : Nat → Nat → BitVec 32) (ps : List (Nat × Nat)) (ms : List MemorySketch) :
    Prop where
  participating : ∀ a b, (∃ m ∈ ms, m.owner = a ∧ b ∈ m.members) ↔ (a, b) ∈ ps ∧ gen a b ≠ 0
  feedback : ∀ m ∈ ms, ∀ b ∈ m.members, m.phi = fb m.owner b
  memberOrder : ∀ m ∈ ms, m.members ≠ [] ∧ m.members.Pairwise (· < ·)
  founded : (ms.map MemorySketch.founding).Pairwise FoundedBefore

/-- A position founds a memory or joins the one with its owner and feedback (R214, R215). -/
theorem joinMemory_cases (a b : Nat) (phi : BitVec 32) (ms : List MemorySketch) :
    ((∀ m ∈ ms, ¬ (m.owner = a ∧ m.phi = phi)) ∧ joinMemory a b phi ms = ms ++ [⟨a, phi, [b]⟩]) ∨
    ∃ l m r, ms = l ++ m :: r ∧ m.owner = a ∧ m.phi = phi ∧
      joinMemory a b phi ms = l ++ { m with members := m.members ++ [b] } :: r := by
  induction ms with
  | nil => exact .inl ⟨by simp, rfl⟩
  | cons m ms ih =>
    unfold joinMemory
    split
    · next h => exact .inr ⟨[], m, ms, rfl, h.1, h.2, rfl⟩
    · next h =>
      rcases ih with ⟨hnone, heq⟩ | ⟨l, m', r, hms, howner, hphi, heq⟩
      · exact .inl ⟨List.forall_mem_cons.mpr ⟨h, hnone⟩, by rw [heq]; rfl⟩
      · exact .inr ⟨m :: l, m', r, by rw [hms]; rfl, howner, hphi, by rw [heq]; rfl⟩

section Join

variable {gen fb : Nat → Nat → BitVec 32} {ps : List (Nat × Nat)} {ms : List MemorySketch} {a b : Nat}

/-- A member of a sketch was a position. -/
theorem SketchesOf.mem_positions (h : SketchesOf gen fb ps ms) {m : MemorySketch} (hm : m ∈ ms) {c : Nat}
    (hc : c ∈ m.members) : (m.owner, c) ∈ ps := ((h.participating _ _).mp ⟨m, hm, rfl, hc⟩).1

/-- A position that does not participate changes nothing (R213). -/
theorem SketchesOf.skip (h : SketchesOf gen fb ps ms) (hgen : gen a b = 0) :
    SketchesOf gen fb (ps ++ [(a, b)]) ms := by
  refine ⟨fun a' b' => ?_, h.feedback, h.memberOrder, h.founded⟩
  rw [h.participating]
  simp only [List.mem_append, List.mem_singleton, Prod.mk.injEq]
  constructor
  · rintro ⟨hmem, hne⟩; exact ⟨.inl hmem, hne⟩
  · rintro ⟨hmem | ⟨rfl, rfl⟩, hne⟩
    · exact ⟨hmem, hne⟩
    · exact absurd hgen hne

/-- A participating position after all of `ps` founds a memory. -/
theorem SketchesOf.found (h : SketchesOf gen fb ps ms) (hgen : gen a b ≠ 0) (hlast : ∀ q ∈ ps, PosLt q (a, b))
    (hnone : ∀ m ∈ ms, ¬ (m.owner = a ∧ m.phi = fb a b)) :
    SketchesOf gen fb (ps ++ [(a, b)]) (ms ++ [⟨a, fb a b, [b]⟩]) := by
  refine ⟨fun a' b' => ?_, ?_, ?_, ?_⟩
  · simp only [List.mem_append, List.mem_singleton, or_and_right, exists_or, h.participating,
      exists_eq_left, Prod.mk.injEq]
    constructor
    · rintro (⟨hmem, hne⟩ | ⟨rfl, rfl⟩)
      · exact .inl ⟨hmem, hne⟩
      · exact .inr ⟨⟨rfl, rfl⟩, hgen⟩
    · rintro (⟨hmem, hne⟩ | ⟨⟨rfl, rfl⟩, -⟩)
      · exact .inl ⟨hmem, hne⟩
      · exact .inr ⟨rfl, rfl⟩
  · simpa [or_imp, forall_and] using h.feedback
  · simpa [or_imp, forall_and] using h.memberOrder
  · rw [List.map_append, List.pairwise_append]
    refine ⟨h.founded, List.pairwise_singleton _ _, ?_⟩
    simp only [List.map_cons, List.map_nil, List.mem_singleton, List.mem_map]
    rintro _ ⟨m, hm, rfl⟩ _ rfl
    obtain ⟨first, rest, hmembers⟩ := List.exists_cons_of_ne_nil (h.memberOrder m hm).1
    have hpos := hlast _ (h.mem_positions hm (c := first) (by simp [hmembers]))
    refine ⟨not_and_or.mp (hnone m hm), ?_⟩
    simpa [MemorySketch.founding, hmembers] using hpos

/-- A participating position after all of `ps` joins the memory with its owner and feedback. -/
theorem SketchesOf.join {l r : List MemorySketch} {m : MemorySketch}
    (h : SketchesOf gen fb ps (l ++ m :: r)) (hgen : gen a b ≠ 0) (hlast : ∀ q ∈ ps, PosLt q (a, b))
    (howner : m.owner = a) (hphi : m.phi = fb a b) :
    SketchesOf gen fb (ps ++ [(a, b)]) (l ++ { m with members := m.members ++ [b] } :: r) := by
  have hm : m ∈ l ++ m :: r := by simp
  refine ⟨fun a' b' => ?_, ?_, ?_, ?_⟩
  · have hmembers : (∃ x ∈ l ++ { m with members := m.members ++ [b] } :: r, x.owner = a' ∧ b' ∈ x.members) ↔
        (∃ x ∈ l ++ m :: r, x.owner = a' ∧ b' ∈ x.members) ∨ (a' = a ∧ b' = b) := by
      simp only [List.mem_append, List.mem_cons, List.not_mem_nil, or_false, or_and_right, exists_or,
        exists_eq_left, and_or_left, howner, eq_comm (a := a'), or_assoc, or_comm (b := a = a' ∧ b' = b)]
      exact or_left_comm
    rw [hmembers, h.participating]
    simp only [List.mem_append, List.mem_singleton, Prod.mk.injEq, or_and_right]
    exact or_congr_right ⟨fun ⟨ha, hb⟩ => ⟨⟨ha, hb⟩, ha ▸ hb ▸ hgen⟩, And.left⟩
  · intro x hx c hc
    have hfeedback := h.feedback
    simp only [List.mem_append, List.mem_cons] at hx
    rcases hx with hx | rfl | hx
    · exact hfeedback x (by simp [hx]) c hc
    · rcases List.mem_append.mp hc with hc | hc
      · exact hfeedback m hm c hc
      · rw [List.mem_singleton.mp hc]; exact hphi.trans (by rw [howner])
    · exact hfeedback x (by simp [hx]) c hc
  · intro x hx
    simp only [List.mem_append, List.mem_cons] at hx
    rcases hx with hx | rfl | hx
    · exact h.memberOrder x (by simp [hx])
    · refine ⟨by simp, List.pairwise_append.mpr ⟨(h.memberOrder m hm).2, List.pairwise_singleton _ _, ?_⟩⟩
      intro c hc d hd
      rw [List.mem_singleton.mp hd]
      rcases hlast _ (h.mem_positions hm hc) with hlt | ⟨-, hlt⟩
      · exact absurd howner (Nat.ne_of_lt hlt)
      · exact hlt
    · exact h.memberOrder x (by simp [hx])
  · have hfounding : MemorySketch.founding { m with members := m.members ++ [b] } = m.founding := by
      obtain ⟨first, rest, hmembers⟩ := List.exists_cons_of_ne_nil (h.memberOrder m hm).1
      simp [MemorySketch.founding, hmembers]
    have hfounded := h.founded
    rw [List.map_append, List.map_cons] at hfounded ⊢
    rwa [hfounding]

/-- One position of R214 or R215. -/
theorem SketchesOf.joinMemory (h : SketchesOf gen fb ps ms) (hgen : gen a b ≠ 0)
    (hlast : ∀ q ∈ ps, PosLt q (a, b)) :
    SketchesOf gen fb (ps ++ [(a, b)]) (joinMemory a b (fb a b) ms) := by
  rcases joinMemory_cases a b (fb a b) ms with ⟨hnone, heq⟩ | ⟨l, m, r, rfl, howner, hphi, heq⟩
  · rw [heq]; exact h.found hgen hlast hnone
  · rw [heq]; exact h.join hgen hlast howner hphi

end Join

/-- The sketches of positions in creation order. -/
theorem sketchMemories_of (gen fb : Nat → Nat → BitVec 32) (todo : List (Nat × Nat)) {ps : List (Nat × Nat)}
    {ms : List MemorySketch} (h : SketchesOf gen fb ps ms) (hsorted : (ps ++ todo).Pairwise PosLt) :
    SketchesOf gen fb (ps ++ todo) (sketchMemories gen fb todo ms) := by
  induction todo generalizing ps ms with
  | nil => simpa [sketchMemories] using h
  | cons p todo ih =>
    obtain ⟨a, b⟩ := p
    have hlast : ∀ q ∈ ps, PosLt q (a, b) := fun q hq =>
      (List.pairwise_append.mp hsorted).2.2 q hq (a, b) List.mem_cons_self
    rw [List.append_cons] at hsorted ⊢
    unfold sketchMemories
    split
    · next hgen => exact ih (h.skip hgen) hsorted
    · next hgen => exact ih (h.joinMemory hgen hlast) hsorted

theorem mem_positions (owners members a b : Nat) :
    (a, b) ∈ positions owners members ↔ a < owners ∧ b < members := by
  simp [positions]

theorem positions_sorted (owners members : Nat) : (positions owners members).Pairwise PosLt := by
  unfold positions
  rw [List.pairwise_flatMap]
  constructor
  · intro a _
    rw [List.pairwise_map]
    exact List.pairwise_lt_range.imp fun h => .inr ⟨rfl, h⟩
  · refine List.pairwise_lt_range.imp fun hlt p hp q hq => ?_
    obtain ⟨_, -, rfl⟩ := List.mem_map.mp hp
    obtain ⟨_, -, rfl⟩ := List.mem_map.mp hq
    exact .inl hlt

theorem sketchesOf_positions (owners members : Nat) (gen fb : Nat → Nat → BitVec 32) :
    SketchesOf gen fb (positions owners members) (sketchMemories gen fb (positions owners members) []) :=
  sketchMemories_of gen fb (positions owners members) (ps := [])
    ⟨by simp, by simp, by simp, List.Pairwise.nil⟩ (positions_sorted owners members)

/-! ### Placing the sketches (R216) -/

/-- A placed memory without its length and offset. -/
def sketchOf (m : CodeMemory) : MemorySketch := ⟨m.owner, m.phi, m.members⟩

theorem placeMemories_map_sketch (gen : Nat → Nat → BitVec 32) (off : Nat) (ms : List MemorySketch) :
    (placeMemories gen off ms).map sketchOf = ms := by
  induction ms generalizing off with
  | nil => rfl
  | cons m ms ih => rw [placeMemories, List.map_cons, ih]; rfl

theorem placeMemories_len (gen : Nat → Nat → BitVec 32) (off : Nat) (ms : List MemorySketch) :
    ∀ m ∈ placeMemories gen off ms, m.len = memoryLength gen (sketchOf m) := by
  induction ms generalizing off with
  | nil => simp [placeMemories]
  | cons s ms ih =>
    intro m hm
    rcases List.mem_cons.mp hm with rfl | hm
    · rfl
    · exact ih _ m hm

theorem placeMemories_off (gen : Nat → Nat → BitVec 32) (off : Nat) (ms : List MemorySketch) (j : Nat)
    (m : CodeMemory) (h : (placeMemories gen off ms)[j]? = some m) :
    m.off = off + delayBits ((placeMemories gen off ms).take j) := by
  induction ms generalizing off j with
  | nil => simp [placeMemories] at h
  | cons s ms ih =>
    cases j with
    | zero => simp [placeMemories] at h; simp [← h, delayBits]
    | succ j =>
      rw [placeMemories, List.getElem?_cons_succ] at h
      rw [ih _ j h, placeMemories, List.take_succ_cons]
      simp [delayBits, Nat.add_assoc]

/-- A candidate is what R211 to R216 describe. -/
theorem layOut_candidate (owners members : Nat) (gen fb : Nat → Nat → BitVec 32) :
    Candidate owners members gen fb (layOut owners members gen fb) := by
  have hsketch := sketchesOf_positions owners members gen fb
  rw [← placeMemories_map_sketch gen 0 (sketchMemories gen fb (positions owners members) [])] at hsketch
  have hlen := placeMemories_len gen 0 (sketchMemories gen fb (positions owners members) [])
  have hfounded := hsketch.founded
  rw [List.map_map, List.pairwise_map] at hfounded
  refine
    { participating := fun a b => ?_
      feedback := fun m hm => hsketch.feedback (sketchOf m) (List.mem_map_of_mem hm)
      coalesced := hfounded.imp fun h => h.1
      memberOrder := fun m hm => hsketch.memberOrder (sketchOf m) (List.mem_map_of_mem hm)
      creationOrder := hfounded.imp fun h => h.2
      lengthBounds := fun m hm k hk => ?_
      lengthReached := fun m hm hpos => ?_
      offset := fun j m hm => by
        have := placeMemories_off gen 0 _ j m hm
        rwa [Nat.zero_add] at this }
  · rw [← and_assoc, ← mem_positions, ← hsketch.participating]
    simp [layOut, sketchOf]
  · rw [hlen m hm] at hk
    obtain ⟨hphi, hgen⟩ := (memoryLength_le_iff gen (sketchOf m) _).mp le_rfl
    exact ⟨getLsbD_of_deg_lt _ (hphi.trans_lt hk),
      fun b hb => getLsbD_of_deg_lt _ ((hgen b hb).trans_lt hk)⟩
  · rw [hlen m hm] at hpos ⊢
    rcases memoryLength_eq_deg gen (sketchOf m) hpos with hdeg | ⟨b, hb, hdeg⟩
    · rw [hdeg] at hpos ⊢
      exact .inl (getLsbD_deg _ hpos)
    · rw [hdeg] at hpos ⊢
      exact .inr ⟨b, hb, getLsbD_deg _ hpos⟩

theorem soaiMems_candidate (u : TceUnit) :
    Candidate u.outputs.toNat u.inputs.toNat (fun o i => genMask u i o) (fun o i => fbMask u i o)
      (soaiMems u) := layOut_candidate _ _ _ _

theorem siaoMems_candidate (u : TceUnit) :
    Candidate u.inputs.toNat u.outputs.toNat (genMask u) (fbMask u) (siaoMems u) := layOut_candidate _ _ _ _

/-- No memory is longer than a mask's highest term (R211, R216). -/
theorem Candidate.len_le {owners members : Nat} {gen fb : Nat → Nat → BitVec 32} {ms : List CodeMemory}
    (h : Candidate owners members gen fb ms) {m : CodeMemory} (hm : m ∈ ms) : m.len ≤ 31 := by
  by_contra hlong
  rcases h.lengthReached m hm (by omega) with hbit | ⟨b, -, hbit⟩
  · exact absurd (BitVec.lt_of_getLsbD hbit) (by omega)
  · exact absurd (BitVec.lt_of_getLsbD hbit) (by omega)

/-! ### The build (R208, R217 to R219, R225) -/

theorem feedbackInUse_iff (u : TceUnit) :
    feedbackInUse u = true ↔ ∃ i < u.inputs.toNat, ∃ o < u.outputs.toNat,
      cfgEntry u.gen i o ≠ 0 ∧ normalFeedback u i o ≠ 1 := by
  simp only [feedbackInUse, List.any_eq_true, Prod.exists, mem_positions, genMask, fbMask_eq]
  constructor
  · rintro ⟨i, o, ⟨hi, ho⟩, hfb⟩; exact ⟨i, hi, o, ho, of_decide_eq_true hfb⟩
  · rintro ⟨i, hi, o, ho, hfb⟩; exact ⟨i, o, ⟨hi, ho⟩, decide_eq_true hfb⟩

/-- The smaller total wins (R217). -/
theorem selectRealization_siao_iff (u : TceUnit) :
    selectRealization u = .siao ↔ delayBits (siaoMems u) < delayBits (soaiMems u) := by
  rw [selectRealization, totalBits_eq, totalBits_eq]
  split <;> simp_all

theorem delayBits_selectedMems (u : TceUnit) :
    delayBits (selectedMems u) = min (delayBits (soaiMems u)) (delayBits (siaoMems u)) := by
  unfold selectedMems
  split <;> omega

/-- A total that fits its register stands there (R219; log 9). -/
theorem totalRegister_of_fits (free : Nat) (r : Realization) {n : Nat} (h : n < 256) :
    (totalRegister free r n).toNat = n := by
  rw [totalRegister, if_pos h, BitVec.toNat_ofNat, Nat.mod_eq_of_lt h]

/-- The selected memories are one of the two candidates, so none is longer than a mask's highest term. -/
theorem selectedMems_len_le (u : TceUnit) : ∀ m ∈ selectedMems u, m.len ≤ 31 := by
  unfold selectedMems
  split
  · exact fun _ => (siaoMems_candidate u).len_le
  · exact fun _ => (soaiMems_candidate u).len_le

/-- `max_delay` is at most 31 and fits its register (R219; log 9). -/
theorem analyse_maxDelay (n : Nat) (u : TceUnit) : (analyse n u).maxDelay.toNat = chosenMaxDelay u := by
  have hle : chosenMaxDelay u ≤ 31 := by
    by_contra hlong
    obtain ⟨m, hm, hlt⟩ := (lt_chosenMaxDelay_iff u 31).mp (not_le.mp hlong)
    exact absurd (selectedMems_len_le u m hm) (not_le.mpr hlt)
  show (BitVec.ofNat 8 (chosenMaxDelay u)).toNat = _
  rw [BitVec.toNat_ofNat, Nat.mod_eq_of_lt (by omega)]

/-- `max_delay` is the length of some memory unless it is 0 (R219). -/
theorem chosenMaxDelay_mem (u : TceUnit) (h : 0 < chosenMaxDelay u) :
    ∃ m ∈ selectedMems u, m.len = chosenMaxDelay u := by
  rw [selectedMems_eq]
  exact List.mem_map.mp (maxOf_mem _ h)

/-- Settles O46: the candidates are `layOut`'s, and the registers are those `analyse` and `finishBuild` write. -/
theorem buildCompletes : Obligations.BuildCompletes := by
  refine ⟨fun u => ⟨soaiMems_candidate u, siaoMems_candidate u⟩, ?_⟩
  intro s hu hshape mems soai siao hblock htotal hend
  have hbuild := tceBuild_of_long_block hu hshape
    (fun ⟨⟨hterm, hlen⟩, hshort⟩ => absurd (hblock hterm hlen) (not_le.mpr hshort)) Config.MAX_TOTAL_DELAY
  rw [if_neg (not_lt.mpr htotal), if_neg fun ⟨hterm, hle⟩ => absurd (hend hterm) (not_lt.mpr hle)] at hbuild
  have hT : (analyse s.freeCount s.tce).totalDelay.toNat = delayBits mems := by
    rw [← chosenTotal_eq] at htotal
    exact (analyse_totalDelay _ _ (htotal.trans Config.MAX_TOTAL_DELAY_le)).trans (chosenTotal_eq _)
  have hmax := analyse_maxDelay s.freeCount s.tce
  refine ⟨finishBuild (analyse s.freeCount s.tce), hbuild, rfl, (selectedMems_eq _).symm,
    selectRealization_siao_iff _, feedbackInUse_iff _, hT.trans (delayBits_selectedMems _), hT, ?_, ?_, ?_, ?_, ?_,
    ?_, rfl, rfl, rfl, rfl, rfl, rfl, rfl, rfl, rfl, rfl⟩
  · intro m hm
    refine (not_lt.mp fun hlt => ?_ : m.len ≤ (analyse s.freeCount s.tce).maxDelay.toNat)
    rw [hmax] at hlt
    exact absurd ((lt_chosenMaxDelay_iff _ _).mpr ⟨m, hm, hlt⟩) (Nat.lt_irrefl _)
  · intro hpos
    show ∃ m ∈ mems, m.len = (analyse s.freeCount s.tce).maxDelay.toNat
    rw [hmax]
    exact chosenMaxDelay_mem _ (hmax ▸ hpos)
  · intro hfits
    have heq := totalBits_eq (soaiMems s.tce)
    exact (totalRegister_of_fits _ _ (heq.trans_lt hfits)).trans heq
  · intro hfits
    have heq := totalBits_eq (siaoMems s.tce)
    exact (totalRegister_of_fits _ _ (heq.trans_lt hfits)).trans heq
  · show (buildTable s.tce).length = 2 ^ (analyse s.freeCount s.tce).totalDelay.toNat * _
    rw [buildTable_length, hT, chosenTotal_eq]; rfl
  · intro st c hst hc
    have hst' : st < 2 ^ (analyse s.freeCount s.tce).totalDelay.toNat := hst
    rw [hT] at hst'
    exact buildTable_getElem? s.tce st c ((chosenTotal_eq s.tce).symm ▸ hst') hc

end Sys2Proof.Machine
end

section
/-! The termination table (O48; 44_trellis_code_engine.md R227): the levels hold exactly the states that reach the
end state, and the path through them is the least. -/

namespace Sys2Proof.Machine

/-- A table of `states` by `combos` entries whose next states are states (20_memory.md R61). -/
structure ClosedTable (table : List TrellisEntry) (combos states : Nat) : Prop where
  length : table.length = states * combos
  next_lt : ∀ e ∈ table, e.next.toNat < states

/-- TRELLIS is closed. -/
theorem buildTable_closed (u : TceUnit) :
    ClosedTable (buildTable u) (2 ^ u.inputs.toNat) (2 ^ chosenTotal u) :=
  ⟨buildTable_length u, fun e he => (buildTable_lt u e he).1⟩

/-- Nothing but the empty list drives a state in no step. -/
theorem drivesTo_zero (table : List TrellisEntry) (combos st goal : Nat) (cs : List Nat) :
    DrivesTo table combos 0 st goal cs ↔ cs = [] ∧ st = goal := by
  constructor
  · rintro ⟨hlen, -, hwalk⟩
    obtain rfl := List.length_eq_zero_iff.mp hlen
    exact ⟨rfl, hwalk⟩
  · rintro ⟨rfl, rfl⟩; exact ⟨rfl, by simp, rfl⟩

/-- A combination, then the rest from the state it leads to. -/
theorem drivesTo_succ (table : List TrellisEntry) (combos r st goal : Nat) (cs : List Nat) :
    DrivesTo table combos (r + 1) st goal cs ↔
      ∃ c cs', cs = c :: cs' ∧ c < combos ∧ DrivesTo table combos r (tableNext table combos st c) goal cs' := by
  constructor
  · rintro ⟨hlen, hlt, hwalk⟩
    obtain ⟨c, cs', rfl⟩ := List.exists_cons_of_length_eq_add_one hlen
    exact ⟨c, cs', rfl, hlt c List.mem_cons_self,
      Nat.succ.inj hlen, fun x hx => hlt x (List.mem_cons_of_mem _ hx), hwalk⟩
  · rintro ⟨c, cs', rfl, hc, hlen, hlt, hwalk⟩
    exact ⟨congrArg Nat.succ hlen, List.forall_mem_cons.mpr ⟨hc, hlt⟩, hwalk⟩

section Levels

variable {table : List TrellisEntry} {combos states : Nat}

/-- `Reach[r]` holds the states from which `r` combinations lead to the end state (R227). -/
theorem reachLevels_iff (htable : ClosedTable table combos states) (endState r : Nat) {st : Nat}
    (hst : st < states) :
    ((reachLevels table combos states endState r).headD []).getD st false = true ↔
      ∃ cs, DrivesTo table combos r st endState cs := by
  induction r generalizing st with
  | zero =>
    simp [reachLevels, reachEnd, List.getD, hst, drivesTo_zero]
  | succ r ih =>
    have hnext : ∀ c < combos, tableNext table combos st c < states := fun c hc =>
      tableNext_lt table combos states st c htable.length htable.next_lt hst hc
    simp only [reachLevels, List.headD_cons, reachStep_getD, hst, true_and, drivesTo_succ]
    constructor
    · rintro ⟨c, hc, hlevel⟩
      obtain ⟨cs, hcs⟩ := (ih (hnext c hc)).mp hlevel
      exact ⟨c :: cs, c, cs, rfl, hc, hcs⟩
    · rintro ⟨_, c, cs, rfl, hc, hcs⟩
      exact ⟨c, hc, (ih (hnext c hc)).mpr ⟨cs, hcs⟩⟩

/-- A level on top of the levels below it. -/
theorem reachLevels_eq_cons (table : List TrellisEntry) (combos states endState r : Nat) :
    reachLevels table combos states endState r =
      (reachLevels table combos states endState r).headD [] ::
        (reachLevels table combos states endState r).tail := by
  cases r <;> rfl

/-- `List.find?` over a range finds the least number. -/
theorem le_of_find?_range {n c c' : Nat} {p : Nat → Bool} (h : (List.range n).find? p = some c) (hc' : p c' = true) :
    c ≤ c' := by
  rw [List.find?_range_eq_some] at h
  by_contra hlt
  have := h.2.2 c' (not_le.mp hlt)
  simp [hc'] at this

/-- The path picked is lexicographically the least of those that drive to the end state (R227). -/
theorem termPath_least (htable : ClosedTable table combos states) (endState r : Nat) {st : Nat} {seq cs : List Nat}
    (hst : st < states) (hpath : termPath table combos (reachLevels table combos states endState r).tail st = some seq)
    (hcs : DrivesTo table combos r st endState cs) : seq = cs ∨ List.Lex (· < ·) seq cs := by
  induction r generalizing st seq cs with
  | zero =>
    obtain ⟨rfl, -⟩ := (drivesTo_zero _ _ _ _ _).mp hcs
    cases hpath; exact .inl rfl
  | succ r ih =>
    obtain ⟨c', cs', rfl, hc', hcs'⟩ := (drivesTo_succ _ _ _ _ _ _).mp hcs
    rw [reachLevels, List.tail_cons, reachLevels_eq_cons, termPath] at hpath
    split at hpath
    · cases hpath
    next c hfind =>
    obtain ⟨seq', hseq', rfl⟩ := Option.map_eq_some_iff.mp hpath
    have hnext : tableNext table combos st c' < states :=
      tableNext_lt table combos states st c' htable.length htable.next_lt hst hc'
    have hle : c ≤ c' := le_of_find?_range hfind ((reachLevels_iff htable endState r hnext).mpr ⟨cs', hcs'⟩)
    rcases Nat.lt_or_eq_of_le hle with hlt | rfl
    · exact .inr (.rel hlt)
    · rcases ih hnext hseq' hcs' with rfl | hlex
      · exact .inl rfl
      · exact .inr (.cons hlex)

/-- One state of TERM: NONE where nothing drives it to the end state, else the least that does (R227). -/
theorem buildTerm_cases (htable : ClosedTable table combos states) (endState total : Nat) {st : Nat}
    (hst : st < states) :
    ((buildTerm table combos states endState total)[st]? = some none ∧
        ∀ cs, ¬ DrivesTo table combos total st endState cs) ∨
      ∃ seq, (buildTerm table combos states endState total)[st]? = some (some seq) ∧
        DrivesTo table combos total st endState seq ∧
        ∀ cs, DrivesTo table combos total st endState cs → seq = cs ∨ List.Lex (· < ·) seq cs := by
  have hentry : (buildTerm table combos states endState total)[st]? =
      some (if ((reachLevels table combos states endState total).headD []).getD st false
        then termPath table combos (reachLevels table combos states endState total).tail st else none) := by
    simp only [buildTerm, List.getElem?_map, List.getElem?_range hst, Option.map_some]
  have hreach := reachLevels_iff htable endState total hst
  rw [hentry]
  cases hlevel : ((reachLevels table combos states endState total).headD []).getD st false with
  | false =>
    exact .inl ⟨rfl, fun cs hcs => Bool.false_ne_true (hlevel.symm.trans (hreach.mpr ⟨cs, hcs⟩))⟩
  | true =>
    obtain ⟨seq, hpath, hdrives⟩ := termPath_spec table combos states endState total st hlevel
    exact .inr ⟨seq, congrArg some hpath, hdrives, fun cs => termPath_least htable endState total hst hpath⟩

end Levels

/-- Settles O48: TERM of a build is `buildTerm` on its TRELLIS. -/
theorem terminationTable : Obligations.TerminationTable := by
  intro ms mt s t hmt h hok hterm drives
  obtain ⟨htotal, htce, -⟩ := tceBuild_ok h hok
  have hT : t.tce.totalDelay.toNat = chosenTotal s.tce := by
    rw [htce]; exact analyse_totalDelay _ _ (htotal.trans hmt)
  have htable : t.tce.table = buildTable s.tce := by rw [htce]; rfl
  have hinputs : t.tce.inputs = s.tce.inputs := by rw [htce]; rfl
  have hend : t.tce.endState = s.tce.endState := by rw [htce]; rfl
  have hbuilt : t.tce.term = buildTermFor s.tce := by
    rw [htce]; exact finishBuild_term (analyse s.freeCount s.tce) hterm
  simp only [drives, hT, htable, hinputs, hend, hbuilt]
  exact ⟨buildTerm_length _ _ _ _ _, fun st hst => buildTerm_cases (buildTable_closed s.tce) _ _ hst⟩

end Sys2Proof.Machine
end

section
/-! One symbol-step bit by bit (O49, O50; 44_trellis_code_engine.md R222 to R224): what each memory writes into its
delay line and adds to the outputs, whichever the realization. -/

namespace Sys2Proof.Machine

/-! ### What one memory does -/

/-- A delay line written inside the state word: its elements, and every other bit as before (R222). -/
theorem writeDelay_getLsbD (m : CodeMemory) (f : Nat → Bool) (n : Nat) (st : BitVec 32) (j : Nat)
    (hfit : m.off + n ≤ 32) (hj : j < 32) :
    (writeDelay m f n st).getLsbD j = if m.off ≤ j ∧ j < m.off + n then f (j - m.off + 1) else st.getLsbD j := by
  induction n with
  | zero => rw [if_neg (by omega)]; rfl
  | succ n ih =>
    rw [writeDelay, setBit_getLsbD _ _ _ hj, ih (by omega)]
    by_cases hnew : j = m.off + n
    · rw [if_pos (by omega), if_pos (by omega), hnew, Nat.add_sub_cancel_left]
    · rw [if_neg (by omega)]
      exact if_congr (by omega) rfl rfl

/-! ### What one memory does -/

/-- The bit that becomes the delay element `m'_k` (R223, R224). -/
def delayInput (gen : Nat → Nat → BitVec 32) (r : Realization) (st : BitVec 32) (c : BitVec 24) (m : CodeMemory)
    (k : Nat) : Bool :=
  match r with
  | .siao => if k = 1 then siaoInput st c m else delayBit st m (k - 1)
  | .soai => soaiDelay gen st c m k

/-- What a memory adds to output `o` (R223, R224). -/
def outputShare (gen : Nat → Nat → BitVec 32) (r : Realization) (st : BitVec 32) (c : BitVec 24) (m : CodeMemory)
    (o : Nat) : Bool :=
  match r with
  | .siao => decide (o ∈ m.members) && siaoTap gen st c m o
  | .soai => decide (m.owner = o) && soaiOutput gen st c m

/-- One memory of a step (R223, R224). -/
def stepMemory (gen : Nat → Nat → BitVec 32) (r : Realization) (st : BitVec 32) (c : BitVec 24) (m : CodeMemory)
    (e : TrellisEntry) : TrellisEntry :=
  match r with
  | .siao => siaoMemory gen st c m e
  | .soai => soaiMemory gen st c m e

section Memory

variable (gen : Nat → Nat → BitVec 32) (r : Realization) (st : BitVec 32) (c : BitVec 24)

theorem stepMems_cons (m : CodeMemory) (ms : List CodeMemory) (e : TrellisEntry) :
    stepMems gen r st c (m :: ms) e = stepMems gen r st c ms (stepMemory gen r st c m e) := by
  cases r <;> rfl

theorem stepMemory_next (m : CodeMemory) (e : TrellisEntry) :
    (stepMemory gen r st c m e).next = writeDelay m (delayInput gen r st c m) m.len e.next := by
  cases r <;> rfl

/-- The member outputs of a SIAO memory take its taps, each once (R223). -/
theorem siaoOutputs_getLsbD (m : CodeMemory) (os : List Nat) (hos : os.Nodup) (out : BitVec 24) {o : Nat}
    (ho : o < 24) :
    (siaoOutputs gen st c m os out).getLsbD o =
      (out.getLsbD o ^^ (decide (o ∈ os) && siaoTap gen st c m o)) := by
  induction os generalizing out with
  | nil => simp [siaoOutputs]
  | cons p os ih =>
    obtain ⟨hp, hos⟩ := List.nodup_cons.mp hos
    rw [siaoOutputs, ih hos, setBit_getLsbD _ _ _ ho]
    by_cases hop : o = p
    · subst hop; simp [hp]
    · simp [hop]

theorem stepMemory_out (m : CodeMemory) (hmembers : m.members.Nodup) (e : TrellisEntry) {o : Nat} (ho : o < 24) :
    (stepMemory gen r st c m e).out.getLsbD o = (e.out.getLsbD o ^^ outputShare gen r st c m o) := by
  cases r with
  | siao => exact siaoOutputs_getLsbD gen st c m m.members hmembers e.out ho
  | soai =>
    show (setBit _ _ _).getLsbD o = (_ ^^ (decide (m.owner = o) && _))
    rw [setBit_getLsbD _ _ _ ho]
    by_cases howner : o = m.owner
    · subst howner; simp
    · simp [howner, Ne.symm howner]

/-! ### All memories of a code -/

theorem stepMems_out (ms : List CodeMemory) (hms : ∀ m ∈ ms, m.members.Nodup) (e : TrellisEntry) {o : Nat}
    (ho : o < 24) :
    (stepMems gen r st c ms e).out.getLsbD o =
      (e.out.getLsbD o ^^ xorMems ms (fun m => outputShare gen r st c m o)) := by
  induction ms generalizing e with
  | nil => simp [stepMems, xorMems]
  | cons m ms ih =>
    obtain ⟨hm, hms⟩ := List.forall_mem_cons.mp hms
    rw [stepMems_cons, ih hms, stepMemory_out gen r st c m hm e ho, Bool.xor_assoc]
    rfl

/-- A state bit outside every delay line stays (R222). -/
theorem stepMems_next_outside (ms : List CodeMemory) (e : TrellisEntry) {j : Nat} (hj : j < 32)
    (hms : ∀ m ∈ ms, m.off + m.len ≤ 32 ∧ (j < m.off ∨ m.off + m.len ≤ j)) :
    (stepMems gen r st c ms e).next.getLsbD j = e.next.getLsbD j := by
  induction ms generalizing e with
  | nil => rfl
  | cons m ms ih =>
    obtain ⟨⟨hfit, hout⟩, hms⟩ := List.forall_mem_cons.mp hms
    rw [stepMems_cons, ih _ hms, stepMemory_next, writeDelay_getLsbD _ _ _ _ _ hfit hj, if_neg (by omega)]

/-- Where the delay lines lie one after the other, each takes its own inputs (R222). -/
theorem stepMems_next (ms : List CodeMemory) (hapart : ms.Pairwise (fun m m' => m.off + m.len ≤ m'.off))
    (hfit : ∀ m ∈ ms, m.off + m.len ≤ 32) (e : TrellisEntry) {m : CodeMemory} (hm : m ∈ ms) {k : Nat}
    (hpos : 1 ≤ k) (hk : k ≤ m.len) :
    (stepMems gen r st c ms e).next.getLsbD (m.off + k - 1) = delayInput gen r st c m k := by
  induction ms generalizing e with
  | nil => cases hm
  | cons x ms ih =>
    obtain ⟨hx, hapart⟩ := List.pairwise_cons.mp hapart
    obtain ⟨hxfit, hrest⟩ := List.forall_mem_cons.mp hfit
    rw [stepMems_cons]
    rcases List.mem_cons.mp hm with rfl | hm
    · have hbit : m.off + k - 1 < 32 := by omega
      have hlater : ∀ m' ∈ ms, m'.off + m'.len ≤ 32 ∧
          (m.off + k - 1 < m'.off ∨ m'.off + m'.len ≤ m.off + k - 1) :=
        fun m' hm' => ⟨hrest m' hm', .inl (by have := hx m' hm'; omega)⟩
      rw [stepMems_next_outside gen r st c ms _ hbit hlater, stepMemory_next, writeDelay_getLsbD _ _ _ _ _ hxfit hbit,
        if_pos (by omega), show m.off + k - 1 - m.off + 1 = k by omega]
    · exact ih hapart hrest _ hm

end Memory

/-! ### The memories of a code (R214 to R216) -/

theorem placeMemories_apart (gen : Nat → Nat → BitVec 32) (off : Nat) (ms : List MemorySketch) :
    (placeMemories gen off ms).Pairwise (fun m m' => m.off + m.len ≤ m'.off) := by
  induction ms generalizing off with
  | nil => exact List.Pairwise.nil
  | cons m ms ih => exact List.pairwise_cons.mpr ⟨fun m' hm' => (placeMemories_in gen _ ms m' hm').1, ih _⟩

theorem chosenMems_apart (u : TceUnit) : (chosenMems u).Pairwise (fun m m' => m.off + m.len ≤ m'.off) := by
  unfold chosenMems
  cases selectRealization u <;> exact placeMemories_apart _ _ _

theorem chosenMems_fit (u : TceUnit) : ∀ m ∈ chosenMems u, m.off + m.len ≤ chosenTotal u := by
  unfold chosenTotal chosenMems
  cases selectRealization u <;> exact fun m hm => (layOut_in _ _ _ _ m hm).1

theorem Candidate.members_nodup {owners members : Nat} {gen fb : Nat → Nat → BitVec 32} {ms : List CodeMemory}
    (h : Candidate owners members gen fb ms) {m : CodeMemory} (hm : m ∈ ms) : m.members.Nodup :=
  (h.memberOrder m hm).2.imp Nat.ne_of_lt

theorem chosenMems_members_nodup (u : TceUnit) : ∀ m ∈ chosenMems u, m.members.Nodup := by
  unfold chosenMems
  cases selectRealization u with
  | siao => exact fun _ => (siaoMems_candidate u).members_nodup
  | soai => exact fun _ => (soaiMems_candidate u).members_nodup

/-! ### One symbol-step -/

section Step

variable (u : TceUnit) (st : BitVec 32) (c : BitVec 24)

theorem codeStep_next (hfit : chosenTotal u ≤ 32) {m : CodeMemory} (hm : m ∈ chosenMems u) {k : Nat}
    (hpos : 1 ≤ k) (hk : k ≤ m.len) :
    (codeStep u st c).next.getLsbD (m.off + k - 1) =
      delayInput (genMask u) (selectRealization u) st c m k :=
  stepMems_next _ _ _ _ _ (chosenMems_apart u) (fun m hm => (chosenMems_fit u m hm).trans hfit) _ hm hpos hk

theorem codeStep_out {o : Nat} (ho : o < 24) :
    (codeStep u st c).out.getLsbD o =
      xorMems (chosenMems u) (fun m => outputShare (genMask u) (selectRealization u) st c m o) := by
  rw [codeStep, stepMems_out _ _ _ _ _ (chosenMems_members_nodup u) _ ho]
  simp

end Step

/-- Settles O49: what a SIAO memory writes and adds. -/
theorem symbolStepSiao : Obligations.SymbolStepSiao := by
  intro u st c hsiao hfit houts
  refine ⟨fun m hm k hpos hk => ?_, fun o ho => ?_⟩
  · rw [codeStep_next u st c hfit hm hpos hk, hsiao]; rfl
  · rw [codeStep_out u st c (ho.trans_le houts), hsiao]; rfl

/-- Settles O50: what a SOAI memory writes and adds. -/
theorem symbolStepSoai : Obligations.SymbolStepSoai := by
  intro u st c hsoai hfit houts
  refine ⟨fun m hm k hpos hk => ?_, fun o ho => ?_⟩
  · rw [codeStep_next u st c hfit hm hpos hk, hsoai]; rfl
  · rw [codeStep_out u st c (ho.trans_le houts), hsoai]; rfl

end Sys2Proof.Machine
end

section
/-! Convolution over the bits (O51, O52; 44_trellis_code_engine.md R201): XOR and AND make `Bool` a ring, in which the
sums of the statements are sums and `convolve` is the product of power series. -/

namespace Sys2Proof.Machine

/-! ### XOR as a sum -/

theorem xorBelow_eq_sum (n : Nat) (f : Nat → Bool) : xorBelow n f = ∑ k ∈ Finset.range n, f k := rfl

theorem xorMems_eq_sum (ms : List CodeMemory) (f : CodeMemory → Bool) : xorMems ms f = (ms.map f).sum := rfl

theorem xorOver_eq_sum (f : Nat → Bool) (l : List Nat) : xorOver f l = (l.map f).sum := by
  induction l with
  | nil => rfl
  | cons x l ih => rw [xorOver, ih]; rfl

@[simp] theorem xorBelow_zero (f : Nat → Bool) : xorBelow 0 f = false := rfl

theorem xorBelow_congr {n : Nat} {f g : Nat → Bool} (h : ∀ k < n, f k = g k) : xorBelow n f = xorBelow n g :=
  Finset.sum_congr rfl fun k hk => h k (Finset.mem_range.mp hk)

theorem xorBelow_false (n : Nat) : xorBelow n (fun _ => false) = false :=
  Finset.sum_const_zero (s := Finset.range n) (M := Bool)

/-- The first term apart. -/
theorem xorBelow_succ (n : Nat) (f : Nat → Bool) : xorBelow (n + 1) f = (f 0 ^^ xorBelow n (fun k => f (k + 1))) :=
  (Finset.sum_range_succ' f n).trans (add_comm _ _)

theorem xorBelow_xor (n : Nat) (f g : Nat → Bool) :
    xorBelow n (fun k => f k ^^ g k) = (xorBelow n f ^^ xorBelow n g) :=
  Finset.sum_add_distrib (s := Finset.range n) (f := f) (g := g)

theorem and_xorBelow (n : Nat) (b : Bool) (f : Nat → Bool) :
    (b && xorBelow n f) = xorBelow n (fun k => b && f k) :=
  Finset.mul_sum (Finset.range n) f b

/-- The one term that a test of the index keeps. -/
theorem xorBelow_decide_eq {n o : Nat} (ho : o < n) (f : Nat → Bool) :
    xorBelow n (fun k => decide (k = o) && f k) = f o := by
  rw [xorBelow_eq_sum, Finset.sum_eq_single_of_mem o (Finset.mem_range.mpr ho)]
  · simp
  · intro k _ hk; simp only [hk, decide_false, Bool.false_and]; rfl

theorem xorOver_congr {f g : Nat → Bool} {l : List Nat} (h : ∀ x ∈ l, f x = g x) : xorOver f l = xorOver g l := by
  rw [xorOver_eq_sum, xorOver_eq_sum, List.map_congr_left h]

theorem xorOver_false (l : List Nat) : xorOver (fun _ => false) l = false := by
  induction l with
  | nil => rfl
  | cons x l ih => simp [xorOver, ih]

theorem and_xorOver (b : Bool) (f : Nat → Bool) (l : List Nat) :
    (b && xorOver f l) = xorOver (fun x => b && f x) l := by
  induction l with
  | nil => simp [xorOver]
  | cons x l ih => rw [xorOver, Bool.and_xor_distrib_left, ih]; rfl

/-- XOR over a list and over a range, in either order. -/
theorem xorBelow_xorOver (n : Nat) (f : Nat → Nat → Bool) (l : List Nat) :
    xorBelow n (fun k => xorOver (fun x => f x k) l) = xorOver (fun x => xorBelow n (f x)) l := by
  induction l with
  | nil => exact xorBelow_false n
  | cons x l ih => simp only [xorOver, xorBelow_xor, ih]

/-- The one element of a list without duplicates that a test keeps. -/
theorem xorOver_decide_eq {l : List Nat} (hl : l.Nodup) (o : Nat) (b : Bool) :
    xorOver (fun x => decide (x = o) && b) l = (decide (o ∈ l) && b) := by
  induction l with
  | nil => rfl
  | cons x l ih =>
    obtain ⟨hx, hl⟩ := List.nodup_cons.mp hl
    rw [xorOver, ih hl]
    by_cases hxo : x = o
    · subst hxo; simp [hx]
    · simp [hxo, Ne.symm hxo]

theorem xorMems_congr {ms : List CodeMemory} {f g : CodeMemory → Bool} (h : ∀ m ∈ ms, f m = g m) :
    xorMems ms f = xorMems ms g := by
  rw [xorMems_eq_sum, xorMems_eq_sum, List.map_congr_left h]

theorem xorUpTo_congr {n : Nat} {f g : Nat → Bool} (h : ∀ k, 1 ≤ k → k ≤ n → f k = g k) :
    xorUpTo n f = xorUpTo n g := by
  induction n with
  | zero => rfl
  | succ n ih =>
    rw [xorUpTo, xorUpTo, ih fun k hpos hk => h k hpos (Nat.le_succ_of_le hk), h (n + 1) (Nat.le_add_left 1 n) le_rfl]

/-- The model's XOR of positions 1 to `n`, with position 0. -/
theorem xor_xorUpTo (n : Nat) (f : Nat → Bool) : (f 0 ^^ xorUpTo n f) = xorBelow (n + 1) f := by
  induction n with
  | zero => simp [xorUpTo, xorBelow_succ]
  | succ n ih =>
    rw [xorUpTo, ← Bool.xor_assoc, ih]
    exact (Finset.sum_range_succ f (n + 1)).symm

/-! ### Convolution (R201) -/

/-- `convolve` is the product of power series. -/
theorem convolve_eq_coeff (p : BitVec 32) (x : Nat → Bool) (t : Nat) :
    convolve p x t = PowerSeries.coeff t (PowerSeries.mk p.getLsbD * PowerSeries.mk x) := by
  rw [PowerSeries.coeff_mul, Finset.Nat.sum_antidiagonal_eq_sum_range_succ_mk]
  simp only [PowerSeries.coeff_mk]
  rfl

theorem mk_convolve (p : BitVec 32) (x : Nat → Bool) :
    PowerSeries.mk (convolve p x) = PowerSeries.mk p.getLsbD * PowerSeries.mk x :=
  PowerSeries.ext fun t => by rw [PowerSeries.coeff_mk, convolve_eq_coeff]

/-- Two masks commute. -/
theorem convolve_comm (p g : BitVec 32) (x : Nat → Bool) (t : Nat) :
    convolve p (convolve g x) t = convolve g (convolve p x) t := by
  rw [convolve_eq_coeff, convolve_eq_coeff, mk_convolve, mk_convolve, mul_left_comm]

/-- The newest element apart. -/
theorem convolve_eq_xor (p : BitVec 32) (x : Nat → Bool) (t : Nat) :
    convolve p x t = ((p.getLsbD 0 && x t) ^^ xorBelow t (fun k => p.getLsbD (k + 1) && x (t - (k + 1)))) :=
  xorBelow_succ t _

theorem convolve_zero (x : Nat → Bool) (t : Nat) : convolve 0 x t = false := by
  simp [convolve, xorBelow_false]

theorem convolve_one (x : Nat → Bool) (t : Nat) : convolve 1 x t = x t := by
  simp [convolve_eq_xor, xorBelow_false]

theorem convolve_false (p : BitVec 32) (t : Nat) : convolve p (fun _ => false) t = false := by
  simp [convolve, xorBelow_false]

/-- A polynomial with bit 0 set has a quotient at most: streams with the same product agree, up to any time. -/
theorem eq_of_convolve_eq {p : BitVec 32} (hp : p.getLsbD 0 = true) {x y : Nat → Bool} {n : Nat}
    (h : ∀ t < n, convolve p x t = convolve p y t) : ∀ t < n, x t = y t := by
  intro t
  induction t using Nat.strong_induction_on with
  | _ t ih =>
    intro ht
    have heq := h t ht
    have hold : xorBelow t (fun k => p.getLsbD (k + 1) && x (t - (k + 1))) =
        xorBelow t (fun k => p.getLsbD (k + 1) && y (t - (k + 1))) :=
      xorBelow_congr fun k hk => by rw [ih (t - (k + 1)) (by omega) (by omega)]
    rw [convolve_eq_xor, convolve_eq_xor, hold, hp] at heq
    simpa using heq

/-- The convolution of a XOR of streams. -/
theorem convolve_xorOver (p : BitVec 32) (y : Nat → Nat → Bool) (l : List Nat) (t : Nat) :
    convolve p (fun s => xorOver (fun i => y i s) l) t = xorOver (fun i => convolve p (y i) t) l := by
  simp only [convolve, and_xorOver, xorBelow_xorOver]

/-- Taps on the elements of a delay line of `len` elements that began empty, the delay-0 tap included, are the
convolution with what entered the line. -/
theorem xor_xorUpTo_eq_convolve {p : BitVec 32} {len : Nat} (hp : ∀ k, len < k → p.getLsbD k = false)
    (x : Nat → Bool) (t : Nat) :
    ((p.getLsbD 0 && x t) ^^ xorUpTo len (fun k => p.getLsbD k && (decide (k ≤ t) && x (t - k)))) =
      convolve p x t := by
  have hfirst := xor_xorUpTo len (fun k => p.getLsbD k && (decide (k ≤ t) && x (t - k)))
  simp only [Nat.zero_le, decide_true, Bool.true_and, Nat.sub_zero] at hfirst
  have hlen : ∀ k ≥ len + 1, (p.getLsbD k && (decide (k ≤ t) && x (t - k))) = false := fun k hk => by
    simp [hp k hk]
  have htime : ∀ k ≥ t + 1, (p.getLsbD k && (decide (k ≤ t) && x (t - k))) = false := fun k hk => by
    simp [show ¬ k ≤ t by omega]
  rw [hfirst, xorBelow_eq_sum, ← Finset.eventually_constant_sum hlen (le_max_left (len + 1) (t + 1)),
    Finset.eventually_constant_sum htime (le_max_right (len + 1) (t + 1))]
  exact xorBelow_congr fun k hk => by simp [Nat.le_of_lt_succ hk]

end Sys2Proof.Machine
end

section
/-! What a code computes from state 0 (O51, O52; 44_trellis_code_engine.md R229, R232): the delay lines along a run
as convolutions, memory by memory, and the memories of an output put together. -/

namespace Sys2Proof.Machine

/-! ### Runs -/

/-- The state before input `t` of a run. -/
def stateAlong (u : TceUnit) (x : Nat → BitVec 24) (st : BitVec 32) : Nat → BitVec 32
  | 0 => st
  | t + 1 => (codeStep u (stateAlong u x st t) (x t)).next

theorem stateAlong_succ (u : TceUnit) (x : Nat → BitVec 24) (st : BitVec 32) (t : Nat) :
    stateAlong u x st (t + 1) = stateAlong u (fun k => x (k + 1)) (codeStep u st (x 0)).next t := by
  induction t with
  | zero => rfl
  | succ t ih => rw [stateAlong, ih]; rfl

/-- Output `t` of a list of inputs is that of the step from the state it reaches. -/
theorem encodeFrom_getElem? (u : TceUnit) (st : BitVec 32) (cs : List (BitVec 24)) {t : Nat} (ht : t < cs.length) :
    ((encodeFrom u st cs)[t]?).getD 0 =
      (codeStep u (stateAlong u (fun k => (cs[k]?).getD 0) st t) ((cs[t]?).getD 0)).out := by
  induction cs generalizing st t with
  | nil => exact absurd ht (Nat.not_lt_zero t)
  | cons c cs ih =>
    cases t with
    | zero => rfl
    | succ t =>
      rw [encodeFrom, List.getElem?_cons_succ, ih _ (Nat.lt_of_succ_lt_succ ht), stateAlong_succ]
      rfl

section Run

variable {u : TceUnit} (x : Nat → BitVec 24)

/-- The delay elements after a step are its inputs (R222). -/
theorem delayBit_stateAlong_succ (hfit : chosenTotal u ≤ 32) {m : CodeMemory} (hm : m ∈ chosenMems u) {k : Nat}
    (hpos : 1 ≤ k) (hk : k ≤ m.len) (t : Nat) :
    delayBit (stateAlong u x 0 (t + 1)) m k =
      delayInput (genMask u) (selectRealization u) (stateAlong u x 0 t) (x t) m k :=
  codeStep_next u _ _ hfit hm hpos hk

/-! ### SIAO: the line holds the fed-back input -/

/-- What enters the line of a SIAO memory at time `t` (R223). -/
def lineInput (u : TceUnit) (x : Nat → BitVec 24) (m : CodeMemory) (t : Nat) : Bool :=
  siaoInput (stateAlong u x 0 t) (x t) m

/-- Element `k` is what entered `k` steps ago. -/
theorem delayBit_siao (hsiao : selectRealization u = .siao) (hfit : chosenTotal u ≤ 32) {m : CodeMemory}
    (hm : m ∈ chosenMems u) (t : Nat) {k : Nat} (hpos : 1 ≤ k) (hk : k ≤ m.len) :
    delayBit (stateAlong u x 0 t) m k = (decide (k ≤ t) && lineInput u x m (t - k)) := by
  induction t generalizing k with
  | zero => simp [stateAlong, delayBit, show ¬ k ≤ 0 by omega]
  | succ t ih =>
    rw [delayBit_stateAlong_succ x hfit hm hpos hk, hsiao, delayInput]
    split
    · next hk1 => subst hk1; simp [lineInput]
    · next hk1 =>
      rw [ih (by omega) (by omega), show t + 1 - k = t - (k - 1) by omega]
      exact congrArg (· && _) (decide_eq_decide.mpr (by omega))

/-- Taps on the line of a SIAO memory are a convolution with what entered it. -/
theorem taps_siao (hsiao : selectRealization u = .siao) (hfit : chosenTotal u ≤ 32) {m : CodeMemory}
    (hm : m ∈ chosenMems u) {p : BitVec 32} (hp : ∀ k, m.len < k → p.getLsbD k = false) (t : Nat) :
    ((p.getLsbD 0 && lineInput u x m t) ^^
        xorUpTo m.len (fun k => p.getLsbD k && delayBit (stateAlong u x 0 t) m k)) =
      convolve p (lineInput u x m) t := by
  rw [← xor_xorUpTo_eq_convolve hp]
  refine congrArg (_ ^^ ·) (xorUpTo_congr fun k hpos hk => ?_)
  rw [delayBit_siao x hsiao hfit hm t hpos hk]

/-- The feedback of a SIAO memory divides its input: what enters the line, times the feedback, is the input. -/
theorem convolve_lineInput (hsiao : selectRealization u = .siao) (hfit : chosenTotal u ≤ 32) {m : CodeMemory}
    (hm : m ∈ chosenMems u) (hphi : ∀ k, m.len < k → m.phi.getLsbD k = false) (hzero : m.phi.getLsbD 0 = true)
    (t : Nat) : convolve m.phi (lineInput u x m) t = (x t).getLsbD m.owner := by
  rw [← taps_siao x hsiao hfit hm hphi, hzero, Bool.true_and, lineInput, siaoInput]
  simp

/-! ### SOAI: the line accumulates taps and feedback -/

/-- The output bit of a SOAI memory at time `t` (R224). -/
def lineOutput (u : TceUnit) (x : Nat → BitVec 24) (m : CodeMemory) (t : Nat) : Bool :=
  soaiOutput (genMask u) (stateAlong u x 0 t) (x t) m

/-- The members' taps into element `k` (R224). -/
def memberTaps (u : TceUnit) (x : Nat → BitVec 24) (m : CodeMemory) (k t : Nat) : Bool :=
  xorOver (fun i => (genMask u i m.owner).getLsbD k && (x t).getLsbD i) m.members

/-- The delay elements of a SOAI memory, 0 past its end (R224). -/
def lineElement (u : TceUnit) (x : Nat → BitVec 24) (m : CodeMemory) (k t : Nat) : Bool :=
  decide (k ≤ m.len) && delayBit (stateAlong u x 0 t) m k

/-- What is injected into element `k` at time `t` (R224). -/
def injected (u : TceUnit) (x : Nat → BitVec 24) (m : CodeMemory) (k t : Nat) : Bool :=
  memberTaps u x m k t ^^ (m.phi.getLsbD k && lineOutput u x m t)

/-- No polynomial of the memory has a term past its end (R216). -/
def WithinLine (u : TceUnit) (m : CodeMemory) : Prop :=
  ∀ k, m.len < k → m.phi.getLsbD k = false ∧ ∀ i ∈ m.members, (genMask u i m.owner).getLsbD k = false

theorem injected_past_end {m : CodeMemory} (hwithin : WithinLine u m) {k : Nat} (hk : m.len < k) (t : Nat) :
    injected u x m k t = false := by
  obtain ⟨hphi, hgen⟩ := hwithin k hk
  have htaps : memberTaps u x m k t = xorOver (fun _ => false) m.members :=
    xorOver_congr fun i hi => by rw [hgen i hi, Bool.false_and]
  rw [injected, htaps, xorOver_false, hphi]
  rfl

theorem lineOutput_eq (m : CodeMemory) (t : Nat) :
    lineOutput u x m t = (lineElement u x m 1 t ^^ memberTaps u x m 0 t) := rfl

/-- One step shifts the line towards its newest end and injects (R224). -/
theorem lineElement_succ (hsoai : selectRealization u = .soai) (hfit : chosenTotal u ≤ 32) {m : CodeMemory}
    (hm : m ∈ chosenMems u) (hwithin : WithinLine u m) {k : Nat} (hpos : 1 ≤ k) (t : Nat) :
    lineElement u x m k (t + 1) = (lineElement u x m (k + 1) t ^^ injected u x m k t) := by
  rcases Nat.lt_or_ge m.len k with hk | hk
  · rw [injected_past_end x hwithin hk]
    simp [lineElement, show ¬ k ≤ m.len by omega, show ¬ k + 1 ≤ m.len by omega]
  · have hstep := delayBit_stateAlong_succ x hfit hm hpos hk t
    rw [hsoai] at hstep
    rw [lineElement, hstep, decide_eq_true hk, Bool.true_and, injected, ← Bool.xor_assoc]
    rfl

/-- An element is the XOR of what was injected behind it, each as long ago as it had to travel. -/
theorem lineElement_eq (hsoai : selectRealization u = .soai) (hfit : chosenTotal u ≤ 32) {m : CodeMemory}
    (hm : m ∈ chosenMems u) (hwithin : WithinLine u m) (t : Nat) {k : Nat} (hpos : 1 ≤ k) :
    lineElement u x m k t = xorBelow t (fun d => injected u x m (k + d) (t - (d + 1))) := by
  induction t generalizing k with
  | zero => simp [lineElement, delayBit, stateAlong]
  | succ t ih =>
    rw [lineElement_succ x hsoai hfit hm hwithin hpos, ih (Nat.le_add_left 1 k), xorBelow_succ, Bool.xor_comm]
    refine congrArg (_ ^^ ·) (xorBelow_congr fun d _ => ?_)
    rw [Nat.add_right_comm k 1 d, Nat.add_assoc k d 1, Nat.add_sub_add_right]

/-- The output of a SOAI memory, times its feedback, is the XOR of its members' generators times their inputs. -/
theorem convolve_lineOutput (hsoai : selectRealization u = .soai) (hfit : chosenTotal u ≤ 32) {m : CodeMemory}
    (hm : m ∈ chosenMems u) (hwithin : WithinLine u m) (hzero : m.phi.getLsbD 0 = true) (t : Nat) :
    convolve m.phi (lineOutput u x m) t =
      xorOver (fun i => convolve (genMask u i m.owner) (fun s => (x s).getLsbD i) t) m.members := by
  have hinjected : lineElement u x m 1 t =
      (xorBelow t (fun d => memberTaps u x m (d + 1) (t - (d + 1))) ^^
        xorBelow t (fun d => m.phi.getLsbD (d + 1) && lineOutput u x m (t - (d + 1)))) := by
    rw [lineElement_eq x hsoai hfit hm hwithin t le_rfl, ← xorBelow_xor]
    exact xorBelow_congr fun d _ => by rw [Nat.add_comm 1 d, injected]
  calc convolve m.phi (lineOutput u x m) t
      = (memberTaps u x m 0 t ^^ xorBelow t (fun d => memberTaps u x m (d + 1) (t - (d + 1)))) := by
        rw [convolve_eq_xor, hzero, Bool.true_and, lineOutput_eq, hinjected,
          Bool.xor_comm _ (memberTaps u x m 0 t), Bool.xor_assoc, Bool.xor_assoc, Bool.xor_self, Bool.xor_false]
    _ = xorBelow (t + 1) (fun d => memberTaps u x m d (t - d)) := 
        (xorBelow_succ t (fun d => memberTaps u x m d (t - d))).symm
    _ = _ := xorBelow_xorOver (t + 1) (fun i d => (genMask u i m.owner).getLsbD d && (x (t - d)).getLsbD i) m.members

end Run

/-! ### The memories of an output -/

/-- The positions that belong to the memories, by owner and member (R214, R215). -/
def memberPositions (ms : List CodeMemory) : List (Nat × Nat) :=
  ms.flatMap (fun m => m.members.map (fun b => (m.owner, b)))

theorem xorMems_xorOver_eq_sum (ms : List CodeMemory) (f : Nat → Nat → Bool) :
    xorMems ms (fun m => xorOver (f m.owner) m.members) = ((memberPositions ms).map (fun p => f p.1 p.2)).sum := by
  induction ms with
  | nil => rfl
  | cons m ms ih =>
    rw [xorMems_eq_sum] at ih ⊢
    rw [List.map_cons, List.sum_cons, ih, xorOver_eq_sum]
    simp only [memberPositions, List.flatMap_cons, List.map_append, List.sum_append, List.map_map]
    rfl

section Positions

variable {owners members : Nat} {gen fb : Nat → Nat → BitVec 32} {ms : List CodeMemory}

/-- They are the participating ones (R213). -/
theorem Candidate.mem_memberPositions (h : Candidate owners members gen fb ms) (a b : Nat) :
    (a, b) ∈ memberPositions ms ↔ a < owners ∧ b < members ∧ gen a b ≠ 0 := by
  rw [← h.participating]
  simp only [memberPositions, List.mem_flatMap, List.mem_map, Prod.mk.injEq]
  constructor
  · rintro ⟨m, hm, _, hb, howner, rfl⟩; exact ⟨m, hm, howner, hb⟩
  · rintro ⟨m, hm, howner, hb⟩; exact ⟨m, hm, b, hb, howner, rfl⟩

/-- A position belongs to one memory: two with it would share owner and feedback. -/
theorem Candidate.memberPositions_nodup (h : Candidate owners members gen fb ms) :
    (memberPositions ms).Nodup := by
  refine List.nodup_flatMap.mpr ⟨fun m hm => (h.members_nodup hm).map (Prod.mk_right_injective _), ?_⟩
  refine h.coalesced.imp_of_mem fun {m m'} hm hm' hne => ?_
  rintro ⟨a, b⟩ hp hp'
  obtain ⟨_, hb, heq⟩ := List.mem_map.mp hp
  obtain ⟨_, hb', heq'⟩ := List.mem_map.mp hp'
  obtain ⟨rfl, rfl⟩ := Prod.mk.inj heq
  obtain ⟨howner, rfl⟩ := Prod.mk.inj heq'
  have hphi : m.phi = m'.phi := by rw [h.feedback m hm _ hb, h.feedback m' hm' _ hb', howner]
  exact hne.elim (fun hne => hne howner.symm) fun hne => hne hphi

/-- The XOR over the members of all memories is the XOR over the positions that participate. -/
theorem Candidate.xorMems_xorOver (h : Candidate owners members gen fb ms) (f : Nat → Nat → Bool) :
    xorMems ms (fun m => xorOver (f m.owner) m.members) =
      xorBelow owners (fun a => xorBelow members (fun b => decide (gen a b ≠ 0) && f a b)) := by
  have hset : (memberPositions ms).toFinset =
      (Finset.range owners ×ˢ Finset.range members).filter (fun p => gen p.1 p.2 ≠ 0) := by
    ext ⟨a, b⟩; simp [h.mem_memberPositions, and_assoc]
  calc xorMems ms (fun m => xorOver (f m.owner) m.members)
      = ∑ p ∈ (memberPositions ms).toFinset, f p.1 p.2 := by
        rw [xorMems_xorOver_eq_sum, List.sum_toFinset _ h.memberPositions_nodup]
    _ = ∑ a ∈ Finset.range owners, ∑ b ∈ Finset.range members, if gen a b ≠ 0 then f a b else false := by
        rw [hset, Finset.sum_filter, Finset.sum_product]; rfl
    _ = _ := xorBelow_congr fun a _ => xorBelow_congr fun b _ => by
        by_cases hgen : gen a b ≠ 0
        · rw [if_pos hgen, decide_eq_true hgen, Bool.true_and]
        · rw [if_neg hgen, decide_eq_false hgen, Bool.false_and]

end Positions

theorem fbMask_zero (u : TceUnit) (i o : Nat) : (fbMask u i o).getLsbD 0 = true := by
  unfold fbMask; split <;> simp

section Transfer

variable {u : TceUnit} {x : Nat → BitVec 24} {y : Nat → Nat → Nat → Bool} {n : Nat}

/-- `y i o` is, up to time `n`, the stream `G / Fn` applied to input `i` (R229). -/
def Quotients (u : TceUnit) (x : Nat → BitVec 24) (y : Nat → Nat → Nat → Bool) (n : Nat) : Prop :=
  ∀ i < u.inputs.toNat, ∀ o < u.outputs.toNat, ∀ t < n,
    convolve (fbMask u i o) (y i o) t = convolve (genMask u i o) (fun s => (x s).getLsbD i) t

/-- A position that does not participate adds nothing (R213). -/
theorem Quotients.eq_false (hy : Quotients u x y n) {i o : Nat} (hi : i < u.inputs.toNat) (ho : o < u.outputs.toNat)
    (hgen : genMask u i o = 0) {t : Nat} (ht : t < n) : y i o t = false :=
  eq_of_convolve_eq (y := fun _ => false) (fbMask_zero u i o)
    (fun s hs => by rw [hy i hi o ho s hs, hgen, convolve_zero, convolve_false]) t ht

theorem Quotients.and_eq (hy : Quotients u x y n) {i o : Nat} (hi : i < u.inputs.toNat) (ho : o < u.outputs.toNat)
    {t : Nat} (ht : t < n) : (decide (genMask u i o ≠ 0) && y i o t) = y i o t := by
  by_cases hgen : genMask u i o = 0
  · rw [hy.eq_false hi ho hgen ht, Bool.and_false]
  · rw [decide_eq_true hgen, Bool.true_and]

/-- A SIAO memory adds the quotient of its owner to each of its members. -/
theorem siaoTap_eq (hsiao : selectRealization u = .siao) (hfit : chosenTotal u ≤ 32) (hy : Quotients u x y n)
    {m : CodeMemory} (hm : m ∈ siaoMems u) (hchosen : m ∈ chosenMems u) {o : Nat} (ho : o ∈ m.members) {t : Nat}
    (ht : t < n) : siaoTap (genMask u) (stateAlong u x 0 t) (x t) m o = y m.owner o t := by
  have hcand := siaoMems_candidate u
  obtain ⟨howner, hout, -⟩ := (hcand.participating m.owner o).mp ⟨m, hm, rfl, ho⟩
  have hphi : m.phi = fbMask u m.owner o := hcand.feedback m hm o ho
  have hbounds := hcand.lengthBounds m hm
  have hdivides : convolve m.phi (lineInput u x m) = fun s => (x s).getLsbD m.owner :=
    funext fun s => convolve_lineInput x hsiao hfit hchosen (fun k hk => (hbounds k hk).1)
      (hphi ▸ fbMask_zero u _ _) s
  have htap : ∀ s, siaoTap (genMask u) (stateAlong u x 0 s) (x s) m o =
      convolve (genMask u m.owner o) (lineInput u x m) s := fun s =>
    taps_siao x hsiao hfit hchosen (fun k hk => (hbounds k hk).2 o ho) s
  rw [htap]
  refine eq_of_convolve_eq (fbMask_zero u m.owner o) (fun s hs => ?_) t ht
  rw [hy _ howner _ hout s hs, ← hphi, convolve_comm, hdivides]

/-- A SOAI memory adds the quotients of its members to its owner. -/
theorem lineOutput_eq_quotients (hsoai : selectRealization u = .soai) (hfit : chosenTotal u ≤ 32)
    (hy : Quotients u x y n) {m : CodeMemory} (hm : m ∈ soaiMems u) (hchosen : m ∈ chosenMems u) {t : Nat}
    (ht : t < n) : lineOutput u x m t = xorOver (fun i => y i m.owner t) m.members := by
  have hcand := soaiMems_candidate u
  obtain ⟨first, rest, hmembers⟩ := List.exists_cons_of_ne_nil (hcand.memberOrder m hm).1
  have hphi : ∀ i ∈ m.members, m.phi = fbMask u i m.owner := hcand.feedback m hm
  have hzero : m.phi.getLsbD 0 = true := by
    rw [hphi first (by simp [hmembers])]; exact fbMask_zero u _ _
  refine eq_of_convolve_eq (y := fun s => xorOver (fun i => y i m.owner s) m.members) hzero (fun s hs => ?_) t ht
  rw [convolve_lineOutput x hsoai hfit hchosen (hcand.lengthBounds m hm) hzero, convolve_xorOver]
  refine xorOver_congr fun i hi => ?_
  obtain ⟨hout, hin, -⟩ := (hcand.participating m.owner i).mp ⟨m, hm, rfl, hi⟩
  rw [hphi i hi, hy i hin _ hout s hs]

/-- An output of a code is the XOR of its quotients, under either realization (R229). -/
theorem codeStep_out_eq_quotients (houts : u.outputs.toNat ≤ 24) (hfit : chosenTotal u ≤ 32)
    (hy : Quotients u x y n) {t o : Nat} (ht : t < n) (ho : o < u.outputs.toNat) :
    (codeStep u (stateAlong u x 0 t) (x t)).out.getLsbD o = xorBelow u.inputs.toNat (fun i => y i o t) := by
  rw [codeStep_out u _ _ (ho.trans_le houts)]
  cases hsel : selectRealization u with
  | siao =>
    have hchosen : chosenMems u = siaoMems u := by rw [chosenMems, hsel]; rfl
    rw [hchosen]
    calc xorMems (siaoMems u) (fun m => outputShare (genMask u) .siao (stateAlong u x 0 t) (x t) m o)
        = xorMems (siaoMems u) (fun m => xorOver (fun b => decide (b = o) && y m.owner o t) m.members) := by
          refine xorMems_congr fun m hm => ?_
          rw [xorOver_decide_eq ((siaoMems_candidate u).members_nodup hm), outputShare]
          by_cases hmem : o ∈ m.members
          · rw [siaoTap_eq hsel hfit hy hm (hchosen ▸ hm) hmem ht]
          · simp [hmem]
      _ = _ := (siaoMems_candidate u).xorMems_xorOver (fun a b => decide (b = o) && y a o t)
      _ = xorBelow u.inputs.toNat (fun i => y i o t) := xorBelow_congr fun i hi => by
          simp only [Bool.and_left_comm (decide (genMask u i _ ≠ 0))]
          rw [xorBelow_decide_eq ho, hy.and_eq hi ho ht]
  | soai =>
    have hchosen : chosenMems u = soaiMems u := by rw [chosenMems, hsel]; rfl
    rw [hchosen]
    calc xorMems (soaiMems u) (fun m => outputShare (genMask u) .soai (stateAlong u x 0 t) (x t) m o)
        = xorMems (soaiMems u) (fun m => xorOver (fun b => decide (m.owner = o) && y b o t) m.members) := by
          refine xorMems_congr fun m hm => ?_
          rw [← and_xorOver]
          by_cases howner : m.owner = o
          · subst howner
            exact congrArg (_ && ·) (lineOutput_eq_quotients hsel hfit hy hm (hchosen ▸ hm) ht)
          · simp [outputShare, howner]
      _ = _ := (soaiMems_candidate u).xorMems_xorOver (fun a b => decide (a = o) && y b o t)
      _ = xorBelow u.inputs.toNat (fun i => y i o t) := by
          simp only [Bool.and_left_comm (decide (genMask u _ _ ≠ 0)), ← and_xorBelow]
          rw [xorBelow_decide_eq ho]
          exact xorBelow_congr fun i hi => hy.and_eq hi ho ht

end Transfer

/-- Settles O52: output `t` of the run is that of the step from the state it reaches. -/
theorem transferFunction : Obligations.TransferFunction := by
  intro u cs y _ houts hfit hy t ht o ho
  rw [encodeFrom_getElem? u 0 cs ht]
  exact codeStep_out_eq_quotients houts hfit hy ht ho

/-- Settles O51: without feedback the quotients are the convolutions themselves. -/
theorem feedForwardIsConvolution : Obligations.FeedForwardIsConvolution := by
  intro u cs hfb hins houts hfit
  refine transferFunction u cs (fun i o => convolve (genMask u i o) (inputBit cs i)) hins houts hfit ?_
  intro i _ o _ t _
  rw [fbMask, if_neg (by simp [hfb]), convolve_one]

end Sys2Proof.Machine
end

section
/-! `CES.WORK` and `CES.FORECAST` as whole next states, and one input of a block (O54, O56, O59;
45_conv_encoder_stage.md R253 to R258, R262). -/

namespace Sys2Proof.Machine

/-! ### The commands -/

/-- Settles O54: a forecast changes the response alone. -/
theorem cesForecast : Obligations.CesForecast := by
  intro n s
  show execCesForecast n s = _
  unfold execCesForecast
  by_cases hbuilt : s.tce.buildState = .built
  · rw [if_neg (not_not.mpr hbuilt), if_pos hbuilt, respond_eq]; rfl
  · rw [if_pos hbuilt, if_neg hbuilt, raised_eq, raise_eq]; rfl

/-- `CES.WORK` on a code that is not built is E_STATE (44_trellis_code_engine.md R207). -/
theorem exec_cesWork_of_not_built {s : State} (h : s.tce.buildState ≠ .built) (cap avail : Nat) :
    exec (.cesWork cap avail) s = .next { s with response := answer 2 0 0 (some 0) } := by
  show execCesWork cap avail s = _
  rw [execCesWork, if_pos h, raised_eq, raise_eq]; rfl

/-- With the fault latched `CES.WORK` is E_TERM (R258). -/
theorem exec_cesWork_of_fault {s : State} (hbuilt : s.tce.buildState = .built) (hfault : s.ces.faultTerm = true)
    (cap avail : Nat) :
    exec (.cesWork cap avail) s = .next { s with response := answer 5 0 0 (some 0) } := by
  show execCesWork cap avail s = _
  rw [execCesWork, if_neg (not_not.mpr hbuilt), if_pos hfault, raised_eq, raise_eq]; rfl

/-- `CES.WORK` as a whole next state, for a run whose count of vectors fits VAL (R256). -/
theorem exec_cesWork {s : State} {cap avail : Nat} {r : CesRun} (hbuilt : s.tce.buildState = .built)
    (hfault : s.ces.faultTerm = false) (hr : cesLoop s.tce cap (s.cesWindow avail) s.ces = .ok r)
    (hval : r.out.length < 2 ^ 24) :
    exec (.cesWork cap avail) s =
      .next { s with
        ces := r.regs, win := { s.win with cesOut := r.out ++ s.win.cesOut.drop r.out.length }
        freeCount := s.freeCount + 1
        response := answer 0 (if r.out.length < cap then 1 else 0) r.out.length
          (some (BitVec.ofNat 32 (avail - r.rest.length))) } := by
  show execCesWork cap avail s = _
  have hclear : ¬ s.ces.faultTerm = true := by simp [hfault]
  simp only [execCesWork, if_neg (not_not.mpr hbuilt), if_neg hclear, hr, respond_eq, valOf_toNat _ hval]
  simp [flagAt, writeWindow, rxOf]

/-- A `CES.WORK` that answers on a built code without a latched fault made a run. -/
theorem cesLoop_of_exec {s t : State} {cap avail : Nat} (hbuilt : s.tce.buildState = .built)
    (hfault : s.ces.faultTerm = false) (h : exec (.cesWork cap avail) s = .next t) :
    ∃ r, cesLoop s.tce cap (s.cesWindow avail) s.ces = .ok r := by
  have hexec : execCesWork cap avail s = .next t := h
  have hclear : ¬ s.ces.faultTerm = true := by simp [hfault]
  rw [execCesWork, if_neg (not_not.mpr hbuilt), if_neg hclear] at hexec
  cases hr : cesLoop s.tce cap (s.cesWindow avail) s.ces with
  | ok r => exact ⟨r, rfl⟩
  | error f => rw [hr] at hexec; cases hexec

@[simp] theorem State.cesWindow_length (s : State) (n : Nat) : (s.cesWindow n).length = n :=
  inputWindow_length _ n _

/-- The first item of a window is the host's, and the others fill it up (20_memory.md R65). -/
theorem cesWindow_succ_of_cons {s : State} {item : BitVec 24} {rest : List (BitVec 24)}
    (h : s.win.cesIn = item :: rest) (n : Nat) :
    ∃ items : List (BitVec 24), s.cesWindow (n + 1) = item :: items ∧ items.length = n := by
  rw [State.cesWindow, h]
  exact ⟨_, rfl, windowFrom_length _ _ _ _⟩

/-! ### The end-of-payload test (R255) -/

section EndOfPayload

variable {t : TceUnit} {u : CesUnit}

/-- A block that has not its length goes on. -/
theorem cesEndOfPayload_of_open (h : ¬ (t.blockLen ≠ 0 ∧ u.payloadCount = t.blockLen)) :
    cesEndOfPayload t u = .ok u := if_neg h

/-- A termination takes steps only where the code has delay (R255). -/
theorem terminates_iff : (t.doTerm = true ∧ t.totalDelay ≠ 0) ↔ (t.doTerm = true ∧ 0 < t.totalDelay.toNat) := by
  simp [BitVec.toNat_eq, Nat.pos_iff_ne_zero]

/-- A block that ends without a termination leaves the stage at INIT. -/
theorem cesEndOfPayload_of_unterminated (hend : t.blockLen ≠ 0 ∧ u.payloadCount = t.blockLen)
    (h : ¬ (t.doTerm = true ∧ t.totalDelay ≠ 0)) : cesEndOfPayload t u = .ok { u with phase := .init } := by
  rw [cesEndOfPayload, if_pos hend, if_neg (mt terminates_iff.mpr h)]

/-- A block that ends with a termination leaves the stage in TERMINATING, the fault latched where the state has no
sequence (R257, R258). -/
theorem cesEndOfPayload_of_terminated (hend : t.blockLen ≠ 0 ∧ u.payloadCount = t.blockLen)
    (h : t.doTerm = true ∧ t.totalDelay ≠ 0) {seq : Option (List Nat)}
    (hseq : t.term[u.tstate.toNat]? = some seq) :
    cesEndOfPayload t u =
      .ok ⟨.terminating, u.tstate, u.payloadCount, 0, u.tstate, u.faultTerm || seq.isNone⟩ := by
  rw [cesEndOfPayload, if_pos hend, if_pos (terminates_iff.mp h), cesEnterTerminating,
    (termSequence_ok t _ seq).mpr hseq]
  cases seq <;> simp

end EndOfPayload

/-! ### One input (R253, R254) -/

/-- The count of consumed inputs goes up by one and saturates (log 15). -/
theorem cesCountUp_toNat (n : BitVec 32) : (cesCountUp n).toNat = min (n.toNat + 1) (2 ^ 32 - 1) := by
  have hn := n.isLt
  unfold cesCountUp
  split
  · next h => subst h; rfl
  · next h =>
    have hne : n.toNat ≠ 2 ^ 32 - 1 := fun heq => h (BitVec.eq_of_toNat_eq heq)
    rw [BitVec.toNat_add, show (1 : BitVec 32).toNat = 1 from rfl]
    omega

/-- The registers as the next input meets them: from INIT a block is started first (R253). -/
def cesAtInput (u : CesUnit) : CesUnit := if u.phase = .init then cesStartBlock u else u

/-- The registers once an input is encoded, before the end-of-payload test (R254). -/
def cesEncoded (u : CesUnit) (next : BitVec 32) : CesUnit :=
  { u with tstate := next, payloadCount := cesCountUp u.payloadCount }

theorem cesAtInput_of_init {u : CesUnit} (h : u.phase = .init) : cesAtInput u = cesStartBlock u := if_pos h

theorem cesAtInput_of_encoding {u : CesUnit} (h : u.phase = .encodingPayload) : cesAtInput u = u := by
  simp [cesAtInput, h]

theorem cesAtInput_tstate (u : CesUnit) :
    (cesAtInput u).tstate.toNat = if u.phase = .init then 0 else u.tstate.toNat := by
  unfold cesAtInput; split <;> rfl

theorem cesAtInput_payloadCount (u : CesUnit) :
    (cesAtInput u).payloadCount.toNat = if u.phase = .init then 0 else u.payloadCount.toNat := by
  unfold cesAtInput; split <;> rfl

@[simp] theorem cesAtInput_faultTerm (u : CesUnit) : (cesAtInput u).faultTerm = u.faultTerm := by
  unfold cesAtInput; split <;> rfl

theorem cesAtInput_phase {u : CesUnit} (h : u.phase ≠ .terminating) :
    (cesAtInput u).phase = .encodingPayload := by
  cases hp : u.phase with
  | init => rw [cesAtInput_of_init hp]; rfl
  | encodingPayload => rw [cesAtInput_of_encoding hp, hp]
  | terminating => exact absurd hp h

/-- What starting a block overwrites is overwritten again by the encoding. -/
theorem cesAtInput_overwritten (u : CesUnit) (phase : CesPhase) (tstate count : BitVec 32) :
    { cesAtInput u with phase := phase, tstate := tstate, payloadCount := count } =
      { u with phase := phase, tstate := tstate, payloadCount := count } := by
  unfold cesAtInput; split <;> rfl

/-- A payload step emits the entry of the state and the item, keeps its next state, and tests for the end. -/
theorem cesPayloadStep_of_entry {t : TceUnit} {u : CesUnit} {item : BitVec 24} {e : TrellisEntry}
    (he : t.table[u.tstate.toNat * 2 ^ t.inputs.toNat + combination t.inputs.toNat item]? = some e)
    {v : CesUnit} (hv : cesEndOfPayload t (cesEncoded u e.next) = .ok v) :
    cesPayloadStep t u item = .ok (v, e.out) := by
  rw [cesEncoded] at hv
  simp only [cesPayloadStep, (trellisRead_ok t _ _ e).mpr he, hv]

/-- A pass outside TERMINATING with which the run ends: the capacity is used up, or the fault is latched. -/
theorem cesLoop_of_last_pass {t : TceUnit} {u v : CesUnit} {item ob : BitVec 24} {cap : Nat}
    (hphase : u.phase ≠ .terminating) (hstep : cesPayloadStep t (cesAtInput u) item = .ok (v, ob))
    (hlast : cap = 0 ∨ v.faultTerm = true) (items : List (BitVec 24)) :
    cesLoop t (cap + 1) (item :: items) u = .ok ⟨v, items, [ob]⟩ := by
  rw [cesAtInput] at hstep
  rw [cesLoop_payload hphase, hstep]
  show (if v.faultTerm = true then _ else _) = _
  by_cases hfault : v.faultTerm = true
  · rw [if_pos hfault]
  · obtain rfl : cap = 0 := hlast.resolve_right hfault
    rw [if_neg hfault]; rfl

/-- A `CES.WORK` whose first pass takes an item and is its last: one vector out, one item consumed. -/
theorem exec_cesWork_of_last_pass {s : State} {item ob : BitVec 24} {rest : List (BitVec 24)} {v : CesUnit}
    {cap : Nat} (avail : Nat) (hbuilt : s.tce.buildState = .built) (hfault : s.ces.faultTerm = false)
    (hphase : s.ces.phase ≠ .terminating) (hin : s.win.cesIn = item :: rest)
    (hstep : cesPayloadStep s.tce (cesAtInput s.ces) item = .ok (v, ob))
    (hlast : cap = 0 ∨ v.faultTerm = true) :
    exec (.cesWork (cap + 1) (avail + 1)) s =
      .next { s with
        ces := v, win := { s.win with cesOut := ob :: s.win.cesOut.drop 1 }
        freeCount := s.freeCount + 1
        response := answer 0 (if 0 < cap then 1 else 0) 1 (some 1) } := by
  obtain ⟨items, hwindow, hlen⟩ := cesWindow_succ_of_cons hin avail
  have hrun := cesLoop_of_last_pass hphase hstep hlast items
  rw [← hwindow] at hrun
  rw [exec_cesWork hbuilt hfault hrun (show 1 < 2 ^ 24 by decide)]
  simp [hlen]

/-- Settles O56: one pass on one item, by what the end-of-payload test finds. -/
theorem cesPayloadStep_of_work : Obligations.CesPayloadStep := by
  intro s item rest e seq hbuilt hfault hphase hin st count ends terminates hentry hseq
  have he : s.tce.table[(cesAtInput s.ces).tstate.toNat * 2 ^ s.tce.inputs.toNat +
      combination s.tce.inputs.toNat item]? = some e := by rw [cesAtInput_tstate]; exact hentry
  have hcountNat : (cesCountUp (cesAtInput s.ces).payloadCount).toNat = count := by
    rw [cesCountUp_toNat, cesAtInput_payloadCount]
  have hcount : cesCountUp (cesAtInput s.ces).payloadCount = BitVec.ofNat 32 count := by
    rw [← hcountNat, BitVec.ofNat_toNat, BitVec.setWidth_eq]
  have hends : (s.tce.blockLen ≠ 0 ∧ (cesEncoded (cesAtInput s.ces) e.next).payloadCount = s.tce.blockLen) ↔
      ends := by
    rw [BitVec.toNat_eq (y := s.tce.blockLen)]
    exact and_congr_right fun _ => by rw [← hcountNat]; rfl
  have answers {v : CesUnit} (hv : cesEndOfPayload s.tce (cesEncoded (cesAtInput s.ces) e.next) = .ok v) :=
    exec_cesWork_of_last_pass 0 hbuilt hfault hphase hin (cesPayloadStep_of_entry he hv) (.inl rfl)
  by_cases hend : ends
  · by_cases hterm : s.tce.doTerm = true ∧ s.tce.totalDelay ≠ 0
    · refine ⟨_, answers (cesEndOfPayload_of_terminated (hends.mpr hend) hterm (hseq ⟨hend, hterm⟩)),
        fun _ => ?_, fun h => absurd ⟨hend, hterm⟩ h, fun h => absurd hend h⟩
      simp [cesEncoded, hcount, hfault]
    · refine ⟨_, answers (cesEndOfPayload_of_unterminated (hends.mpr hend) hterm),
        fun h => absurd h.2 hterm, fun _ _ => ?_, fun h => absurd hend h⟩
      rw [← hcount]; exact cesAtInput_overwritten s.ces _ _ _
  · refine ⟨_, answers (cesEndOfPayload_of_open (mt hends.mp hend)),
      fun h => absurd h.1 hend, fun _ h => absurd h hend, fun _ => ?_⟩
    rw [← hcount, ← cesAtInput_overwritten, ← cesAtInput_phase hphase]; rfl

/-- Settles O59: the last input of the block is the last pass, and it latches the fault. -/
theorem cesTerminationUnreachable : Obligations.CesTerminationUnreachable := by
  refine ⟨fun cap avail s item rest e _ _ hbuilt hfault hphase hlast hdo hT hin hentry hnone => ?finds,
    fun cap avail s hbuilt hfault => exec_cesWork_of_fault hbuilt hfault cap avail⟩
  have hB := s.tce.blockLen.isLt
  have hcount : cesCountUp s.ces.payloadCount = s.tce.blockLen :=
    BitVec.eq_of_toNat_eq (by rw [cesCountUp_toNat]; omega)
  have hpos : s.tce.blockLen ≠ 0 := fun h0 => by simp [h0] at hlast
  have hend : cesEndOfPayload s.tce (cesEncoded s.ces e.next) =
      .ok ⟨.terminating, e.next, s.tce.blockLen, 0, e.next, true⟩ := by
    rw [cesEndOfPayload_of_terminated ⟨hpos, hcount⟩ ⟨hdo, hT⟩ hnone]
    simp [cesEncoded, hcount]
  refine exec_cesWork_of_last_pass avail hbuilt hfault (by simp [hphase]) hin ?_ (.inr rfl)
  rw [cesAtInput_of_encoding hphase]
  exact cesPayloadStep_of_entry hentry hend

end Sys2Proof.Machine
end

section
/-! A block of `CES.WORK` from its first input to its end: unbounded blocks (O57) and terminated ones (O58;
45_conv_encoder_stage.md R255, R257, R261). -/

namespace Sys2Proof.Machine

/-! ### Tables along a list of combinations -/

@[simp] theorem tableOutputs_length (table : List TrellisEntry) (combos st : Nat) (cs : List Nat) :
    (tableOutputs table combos st cs).length = cs.length := by
  induction cs generalizing st with
  | nil => rfl
  | cons c cs ih => simp [tableOutputs, ih]

theorem tableOutputs_append (table : List TrellisEntry) (combos st : Nat) (xs ys : List Nat) :
    tableOutputs table combos st (xs ++ ys) =
      tableOutputs table combos st xs ++ tableOutputs table combos (walk table combos st xs) ys := by
  induction xs generalizing st with
  | nil => rfl
  | cons x xs ih => simp [tableOutputs, walk, ih]

section Entry

variable {table : List TrellisEntry} {combos st c : Nat} {e : TrellisEntry}

theorem tableOutputs_cons (h : table[st * combos + c]? = some e) (cs : List Nat) :
    tableOutputs table combos st (c :: cs) = e.out :: tableOutputs table combos e.next.toNat cs := by
  simp [tableOutputs, tableNext, h]

theorem walk_cons (h : table[st * combos + c]? = some e) (cs : List Nat) :
    walk table combos st (c :: cs) = walk table combos e.next.toNat cs := by
  simp [walk, tableNext, h]

end Entry

/-! ### A pass of a run that answers -/

section Pass

variable {t : TceUnit} {u : CesUnit} {cap : Nat} {items : List (BitVec 24)} {r : CesRun}

/-- A payload step that answers found its entry and passed the end-of-payload test (R254). -/
theorem cesPayloadStep_ok {item : BitVec 24} {p : CesUnit × BitVec 24} (h : cesPayloadStep t u item = .ok p) :
    ∃ e, t.table[u.tstate.toNat * 2 ^ t.inputs.toNat + combination t.inputs.toNat item]? = some e ∧
      cesEndOfPayload t (cesEncoded u e.next) = .ok p.1 ∧ p.2 = e.out := by
  unfold cesPayloadStep at h
  split at h
  · cases h
  next e hread =>
  split at h
  · cases h
  next v hend =>
  cases h
  exact ⟨e, (trellisRead_ok _ _ _ _).mp hread, hend, rfl⟩

/-- A pass that takes an item found its entry, and either latched the fault and stopped, or went on (R254,
R258). -/
theorem cesLoop_payload_ok {item : BitVec 24} (hphase : u.phase ≠ .terminating)
    (hr : cesLoop t (cap + 1) (item :: items) u = .ok r) :
    ∃ e v, t.table[(cesAtInput u).tstate.toNat * 2 ^ t.inputs.toNat + combination t.inputs.toNat item]? = some e ∧
      cesEndOfPayload t (cesEncoded (cesAtInput u) e.next) = .ok v ∧
      ((v.faultTerm = true ∧ r = ⟨v, items, [e.out]⟩) ∨
        (v.faultTerm = false ∧ ∃ r', cesLoop t cap items v = .ok r' ∧ r = { r' with out := e.out :: r'.out })) := by
  rw [cesLoop_payload hphase, ← cesAtInput] at hr
  cases hstep : cesPayloadStep t (cesAtInput u) item with
  | error f => rw [hstep] at hr; cases hr
  | ok p =>
    obtain ⟨v, ob⟩ := p
    obtain ⟨e, hentry, hend, rfl⟩ := cesPayloadStep_ok hstep
    refine ⟨e, v, hentry, hend, ?_⟩
    cases hfault : v.faultTerm with
    | true => exact .inl ⟨rfl, by simpa [hstep, Except.bind, hfault, eq_comm] using hr⟩
    | false => exact .inr ⟨rfl, cesPrepend_eq_ok (by simpa [hstep, Except.bind, hfault] using hr)⟩

/-- A pass that takes an item and does not end the block found its entry and went on (R254, R255). -/
theorem cesLoop_open_ok {item : BitVec 24} (hphase : u.phase ≠ .terminating) (hfault : u.faultTerm = false)
    (hopen : ¬ (t.blockLen ≠ 0 ∧ cesCountUp (cesAtInput u).payloadCount = t.blockLen))
    (hr : cesLoop t (cap + 1) (item :: items) u = .ok r) :
    ∃ e r', t.table[(cesAtInput u).tstate.toNat * 2 ^ t.inputs.toNat + combination t.inputs.toNat item]? = some e ∧
      cesLoop t cap items (cesEncoded (cesAtInput u) e.next) = .ok r' ∧ r = { r' with out := e.out :: r'.out } := by
  obtain ⟨e, v, hentry, hend, hpass⟩ := cesLoop_payload_ok hphase hr
  rw [cesEndOfPayload_of_open (u := cesEncoded (cesAtInput u) e.next) hopen] at hend
  cases hend
  rcases hpass with ⟨hlatched, -⟩ | ⟨-, r', hr', heq⟩
  · simp [cesEncoded, hfault] at hlatched
  · exact ⟨e, r', hentry, hr', heq⟩

/-- The registers after a termination step (R257). -/
def cesTermNext (t : TceUnit) (u : CesUnit) (next : BitVec 32) : CesUnit :=
  { u with
    phase := if u.termCount + 1 = t.totalDelay then .init else u.phase
    tstate := next, termCount := u.termCount + 1 }

/-- A termination step emits the entry of the state and the sequence's next combination, and keeps its next
state. -/
theorem cesTermStep_of_entry {seq : List Nat} {c : Nat} {e : TrellisEntry}
    (hseq : t.term[u.termBase.toNat]? = some (some seq)) (hc : seq[u.termCount.toNat]? = some c)
    (he : t.table[u.tstate.toNat * 2 ^ t.inputs.toNat + c]? = some e) :
    cesTermStep t u = .ok (cesTermNext t u e.next, e.out) := by
  have hread : termRead t u.termBase.toNat u.termCount.toNat = .ok c := (termRead_ok _ _ _ _).mpr ⟨seq, hseq, hc⟩
  simp only [cesTermStep, hread, (trellisRead_ok _ _ _ _).mpr he, cesTermNext]
  split <;> rfl

/-- A pass in TERMINATING found its entry and went on. -/
theorem cesLoop_terminating_ok {seq : List Nat} {c : Nat} (hphase : u.phase = .terminating)
    (hseq : t.term[u.termBase.toNat]? = some (some seq)) (hc : seq[u.termCount.toNat]? = some c)
    (hr : cesLoop t (cap + 1) items u = .ok r) :
    ∃ e r', t.table[u.tstate.toNat * 2 ^ t.inputs.toNat + c]? = some e ∧
      cesLoop t cap items (cesTermNext t u e.next) = .ok r' ∧ r = { r' with out := e.out :: r'.out } := by
  have hread : termRead t u.termBase.toNat u.termCount.toNat = .ok c := (termRead_ok _ _ _ _).mpr ⟨seq, hseq, hc⟩
  cases he : t.table[u.tstate.toNat * 2 ^ t.inputs.toNat + c]? with
  | none => simp [cesLoop, hphase, cesTermStep, hread, trellisRead, he] at hr
  | some e =>
    rw [cesLoop_terminating hphase (cesTermStep_of_entry hseq hc he)] at hr
    obtain ⟨r', hr', heq⟩ := cesPrepend_eq_ok hr
    exact ⟨e, r', rfl, hr', heq⟩

end Pass

/-! ### Unbounded blocks (R255, R261) -/

/-- Without a block length a run stays out of TERMINATING and produces a vector for each item it takes. -/
theorem cesLoop_unbounded {t : TceUnit} (hblock : t.blockLen = 0) {cap : Nat} {items : List (BitVec 24)}
    {u : CesUnit} {r : CesRun} (hphase : u.phase ≠ .terminating) (hfault : u.faultTerm = false)
    (hr : cesLoop t cap items u = .ok r) :
    r.regs.phase ≠ .terminating ∧ r.out.length ≤ cap ∧ r.out.length + r.rest.length = items.length := by
  induction cap generalizing items u r with
  | zero => cases hr; exact ⟨hphase, Nat.le_refl _, Nat.zero_add _⟩
  | succ cap ih =>
    cases items with
    | nil => rw [cesLoop_starved hphase] at hr; cases hr; exact ⟨hphase, Nat.zero_le _, rfl⟩
    | cons item items =>
      obtain ⟨e, r', -, hr', rfl⟩ := cesLoop_open_ok hphase hfault (fun h => h.1 hblock) hr
      obtain ⟨hstays, hle, hcount⟩ := ih (u := cesEncoded (cesAtInput u) e.next)
        (by simp [cesEncoded, cesAtInput_phase hphase]) (by simpa [cesEncoded] using hfault) hr'
      exact ⟨hstays, by simpa using hle, by simp only [List.length_cons]; omega⟩

/-- Settles O57: an error changes no phase and counts nothing, and a run is one without a block length. -/
theorem cesStreaming : Obligations.CesStreaming := by
  intro cap avail s t hcap havail hblock hphase h
  by_cases hbuilt : s.tce.buildState = .built
  case neg =>
    cases (exec_cesWork_of_not_built hbuilt cap avail).symm.trans h
    exact ⟨hphase, rfl⟩
  cases hfault : s.ces.faultTerm with
  | true =>
    cases (exec_cesWork_of_fault hbuilt hfault cap avail).symm.trans h
    exact ⟨hphase, rfl⟩
  | false =>
    obtain ⟨r, hr⟩ := cesLoop_of_exec hbuilt hfault h
    obtain ⟨hstays, hle, hcount⟩ := cesLoop_unbounded hblock hphase hfault hr
    rw [State.cesWindow_length] at hcount
    have hval : r.out.length < 2 ^ 24 := hle.trans_lt hcap
    cases (exec_cesWork hbuilt hfault hr hval).symm.trans h
    refine ⟨hstays, ?_⟩
    rw [valField_answer rfl hval, rxField_answer rfl (by omega)]
    omega

/-! ### Terminated blocks (R257, R261) -/

section Block

variable {t : TceUnit}

/-- Starting a block at INIT shows in nothing but the registers the first input meets (R253, R256). -/
theorem cesLoop_of_init {u : CesUnit} (h : u.phase = .init) (cap : Nat) (item : BitVec 24)
    (items : List (BitVec 24)) :
    cesLoop t (cap + 1) (item :: items) u = cesLoop t (cap + 1) (item :: items) (cesStartBlock u) := by
  rw [cesLoop_payload (by simp [h]), cesLoop_payload (by simp [cesStartBlock]), if_pos h,
    if_neg (by simp [cesStartBlock])]

/-- The payload of a block: the outputs are the table's on the items, and the run goes on where the end-of-payload
test leaves it, unless the fault is latched. -/
theorem cesLoop_payload_outputs {u : CesUnit} {cap : Nat} {item : BitVec 24} {items : List (BitVec 24)} {r : CesRun}
    (hphase : u.phase = .encodingPayload) (hfault : u.faultTerm = false)
    (hlen : u.payloadCount.toNat + (items.length + 1) = t.blockLen.toNat)
    (hr : cesLoop t (items.length + 1 + cap) (item :: items) u = .ok r) (hclear : r.regs.faultTerm = false) :
    let cs := (item :: items).map (combination t.inputs.toNat)
    ∃ w v out, w.tstate.toNat = walk t.table (2 ^ t.inputs.toNat) u.tstate.toNat cs ∧
      w.payloadCount = t.blockLen ∧ cesEndOfPayload t w = .ok v ∧ v.faultTerm = false ∧
      cesLoop t cap [] v = .ok { r with out := out } ∧
      r.out = tableOutputs t.table (2 ^ t.inputs.toNat) u.tstate.toNat cs ++ out := by
  have hB := t.blockLen.isLt
  induction items generalizing item u r with
  | nil =>
    rw [List.length_nil, Nat.zero_add, Nat.add_comm 1 cap] at hr
    obtain ⟨e, v, hentry, hend, hpass⟩ := cesLoop_payload_ok (by simp [hphase]) hr
    rw [cesAtInput_of_encoding hphase] at hentry hend
    have hcount : cesCountUp u.payloadCount = t.blockLen := BitVec.eq_of_toNat_eq (by
      rw [cesCountUp_toNat]; simp only [List.length_nil] at hlen; omega)
    rcases hpass with ⟨hlatched, rfl⟩ | ⟨hv, r', hr', rfl⟩
    · simp [hlatched] at hclear
    · refine ⟨cesEncoded u e.next, v, r'.out, ?_, hcount, hend, hv, hr', ?_⟩
      · rw [List.map_singleton, walk_cons hentry]; rfl
      · rw [List.map_singleton, tableOutputs_cons hentry]; rfl
  | cons next items ih =>
    rw [List.length_cons] at hlen hr
    rw [show items.length + 1 + 1 + cap = items.length + 1 + cap + 1 by omega] at hr
    have hcount : (cesCountUp u.payloadCount).toNat = u.payloadCount.toNat + 1 := by
      rw [cesCountUp_toNat]; omega
    have hopen : ¬ (t.blockLen ≠ 0 ∧ cesCountUp (cesAtInput u).payloadCount = t.blockLen) := by
      rw [cesAtInput_of_encoding hphase]
      rintro ⟨-, heq⟩
      rw [heq] at hcount
      omega
    obtain ⟨e, r', hentry, hr', rfl⟩ := cesLoop_open_ok (by simp [hphase]) hfault hopen hr
    rw [cesAtInput_of_encoding hphase] at hentry hr'
    obtain ⟨w, v, out, hwalk, hcountw, hendw, hv, hloop, hout⟩ :=
      ih (u := cesEncoded u e.next) hphase hfault
        (show (cesCountUp u.payloadCount).toNat + _ = _ by omega) hr' hclear
    refine ⟨w, v, out, ?_, hcountw, hendw, hv, hloop, ?_⟩
    · rw [List.map_cons, walk_cons hentry]; exact hwalk
    · rw [List.map_cons, tableOutputs_cons hentry, List.cons_append]
      exact congrArg (e.out :: ·) hout

/-- The first combination of what is left of a sequence is the one the count points at. -/
theorem getElem?_of_drop {seq cs : List Nat} {k c : Nat} (h : seq.drop k = c :: cs) : seq[k]? = some c := by
  rw [← Nat.add_zero k, ← List.getElem?_drop, h]; rfl

theorem length_of_drop {seq cs : List Nat} {k c : Nat} (h : seq.drop k = c :: cs) :
    seq.length = k + 1 + cs.length := by
  have hlen := congrArg List.length h
  rw [List.length_drop, List.length_cons] at hlen
  omega

/-- The count of a termination in progress does not wrap. -/
theorem termCount_succ_toNat {seq cs : List Nat} {c : Nat} {k : BitVec 8} (hT : seq.length = t.totalDelay.toNat)
    (h : seq.drop k.toNat = c :: cs) : (k + 1).toNat = k.toNat + 1 := by
  have hlen := length_of_drop h
  have hlt := t.totalDelay.isLt
  rw [BitVec.toNat_add, show (1 : BitVec 8).toNat = 1 from rfl]
  omega

/-- The termination of a block: the outputs are the table's on what is left of the sequence, no item is taken, and
the stage is back at INIT. -/
theorem cesLoop_term_outputs {seq : List Nat} (hT : seq.length = t.totalDelay.toNat) {c : Nat} {cs : List Nat}
    {u : CesUnit} {items : List (BitVec 24)} {r : CesRun} (hphase : u.phase = .terminating)
    (hseq : t.term[u.termBase.toNat]? = some (some seq)) (hleft : seq.drop u.termCount.toNat = c :: cs)
    (hr : cesLoop t (cs.length + 1) items u = .ok r) :
    r.rest = items ∧ r.regs.phase = .init ∧
      r.regs.tstate.toNat = walk t.table (2 ^ t.inputs.toNat) u.tstate.toNat (c :: cs) ∧
      r.out = tableOutputs t.table (2 ^ t.inputs.toNat) u.tstate.toNat (c :: cs) := by
  induction cs generalizing c u r with
  | nil =>
    obtain ⟨e, r', hentry, hr', rfl⟩ := cesLoop_terminating_ok hphase hseq (getElem?_of_drop hleft) hr
    cases hr'
    have hdone : u.termCount + 1 = t.totalDelay := BitVec.eq_of_toNat_eq (by
      rw [termCount_succ_toNat hT hleft, ← hT, length_of_drop hleft]; rfl)
    rw [walk_cons hentry, tableOutputs_cons hentry]
    exact ⟨rfl, if_pos hdone, rfl, rfl⟩
  | cons c' cs ih =>
    obtain ⟨e, r', hentry, hr', rfl⟩ := cesLoop_terminating_ok hphase hseq (getElem?_of_drop hleft) hr
    have hcount := termCount_succ_toNat hT hleft
    have hmore : u.termCount + 1 ≠ t.totalDelay := fun heq => by
      have hnat := congrArg BitVec.toNat heq
      rw [hcount, ← hT, length_of_drop hleft, List.length_cons] at hnat
      omega
    have hdrop : seq.drop (cesTermNext t u e.next).termCount.toNat = c' :: cs := by
      show seq.drop (u.termCount + 1).toNat = _
      rw [hcount, ← List.tail_drop, hleft]; rfl
    obtain ⟨hrest, hinit, hwalk, hout⟩ :=
      ih (u := cesTermNext t u e.next) ((if_neg hmore).trans hphase) hseq hdrop hr'
    rw [walk_cons hentry, tableOutputs_cons hentry]
    exact ⟨hrest, hinit, hwalk, congrArg (e.out :: ·) hout⟩

/-- A code with termination reads a termination sequence, or finds that there is none, where a block ends (R257). -/
theorem term_of_cesEndOfPayload {u v : CesUnit} (hend : t.blockLen ≠ 0 ∧ u.payloadCount = t.blockLen)
    (h : t.doTerm = true ∧ t.totalDelay ≠ 0) (hv : cesEndOfPayload t u = .ok v) :
    ∃ seq, t.term[u.tstate.toNat]? = some seq := by
  rw [cesEndOfPayload, if_pos hend, if_pos (terminates_iff.mp h)] at hv
  cases hseq : t.term[u.tstate.toNat]? with
  | some seq => exact ⟨seq, rfl⟩
  | none => simp [cesEnterTerminating, termSequence, hseq] at hv

/-- From the end of the payload of a block on a built code with termination, T further passes drive the stage with
a sequence of T combinations to INIT at the end state; without delay there is nothing to drive. -/
theorem cesLoop_after_payload (hbuilt : BuiltInv t) (hdo : t.doTerm = true) {w v : CesUnit} {r : CesRun}
    (hend : t.blockLen ≠ 0 ∧ w.payloadCount = t.blockLen) (hv : cesEndOfPayload t w = .ok v)
    (hclear : v.faultTerm = false) (hstate : w.tstate.toNat < 2 ^ t.totalDelay.toNat)
    (hr : cesLoop t t.totalDelay.toNat [] v = .ok r) :
    r.rest = [] ∧ r.regs.phase = .init ∧ r.regs.tstate = t.endState ∧
      ∃ seq : List Nat, seq.length = t.totalDelay.toNat ∧
        (t.totalDelay ≠ 0 → t.term[w.tstate.toNat]? = some (some seq)) ∧
        r.out = tableOutputs t.table (2 ^ t.inputs.toNat) w.tstate.toNat seq := by
  obtain ⟨-, -, -, -, -, -, -, hterm⟩ := hbuilt
  obtain ⟨hendState, -, hseqs⟩ := hterm hdo
  by_cases hT : t.totalDelay = 0
  · rw [cesEndOfPayload_of_unterminated hend (fun h => h.2 hT)] at hv
    cases hv
    rw [hT] at hr hstate hendState
    cases hr
    refine ⟨rfl, rfl, BitVec.eq_of_toNat_eq ?_, [], by simp [hT], fun h => absurd hT h, rfl⟩
    exact (Nat.lt_one_iff.mp hstate).trans (Nat.lt_one_iff.mp hendState).symm
  · obtain ⟨q, hq⟩ := term_of_cesEndOfPayload hend ⟨hdo, hT⟩ hv
    rw [cesEndOfPayload_of_terminated hend ⟨hdo, hT⟩ hq] at hv
    cases hv
    obtain ⟨-, hsome⟩ := Bool.or_eq_false_iff.mp hclear
    obtain ⟨seq, rfl⟩ := Option.isSome_iff_exists.mp (Option.isNone_eq_false_iff.mp hsome)
    obtain ⟨hlen, -, hreach⟩ := hseqs _ seq hq
    cases seq with
    | nil => exact absurd (BitVec.eq_of_toNat_eq hlen.symm) hT
    | cons c cs =>
      rw [← hlen] at hr
      obtain ⟨hrest, hinit, hwalk, hout⟩ := cesLoop_term_outputs hlen rfl hq rfl hr
      exact ⟨hrest, hinit, BitVec.eq_of_toNat_eq (hwalk.trans hreach), c :: cs, hlen, fun _ => hq, hout⟩

/-- A walk from a state of a built code under combinations of its inputs stays among its states (R225). -/
theorem walk_lt (hbuilt : BuiltInv t) {cs : List Nat} (hcs : ∀ c ∈ cs, c < 2 ^ t.inputs.toNat) {st : Nat}
    (hst : st < 2 ^ t.totalDelay.toNat) :
    walk t.table (2 ^ t.inputs.toNat) st cs < 2 ^ t.totalDelay.toNat := by
  obtain ⟨-, -, -, -, -, hlen, hentries, -⟩ := hbuilt
  induction cs generalizing st with
  | nil => exact hst
  | cons c cs ih =>
    obtain ⟨hc, hcs⟩ := List.forall_mem_cons.mp hcs
    exact ih hcs (tableNext_lt _ _ _ _ _ hlen (fun e he => (hentries e he).1) hst hc)

/-- A terminated block from INIT that latches no fault: its outputs are the table's on the items and then on the
sequence `TERM` holds for the state they lead to, and the stage is back at INIT at the end state. -/
theorem cesLoop_terminated_block (hbuilt : BuiltInv t) (hdo : t.doTerm = true) (hpos : t.blockLen ≠ 0) {u : CesUnit}
    {items : List (BitVec 24)} {r : CesRun} (hphase : u.phase = .init) (hfault : u.faultTerm = false)
    (hlen : items.length = t.blockLen.toNat) (hr : cesLoop t (items.length + t.totalDelay.toNat) items u = .ok r)
    (hclear : r.regs.faultTerm = false) :
    r.rest = [] ∧ r.regs.phase = .init ∧ r.regs.tstate = t.endState ∧
      let cs := items.map (combination t.inputs.toNat)
      ∃ seq : List Nat, seq.length = t.totalDelay.toNat ∧
        (t.totalDelay ≠ 0 → t.term[walk t.table (2 ^ t.inputs.toNat) 0 cs]? = some (some seq)) ∧
        r.out = tableOutputs t.table (2 ^ t.inputs.toNat) 0 (cs ++ seq) := by
  cases items with
  | nil => exact absurd (BitVec.eq_of_toNat_eq hlen.symm) hpos
  | cons item items =>
    have hstarted : cesLoop t (items.length + 1 + t.totalDelay.toNat) (item :: items) (cesStartBlock u) = .ok r := by
      rw [← hr, List.length_cons, Nat.add_right_comm, cesLoop_of_init hphase]
    obtain ⟨w, v, out, hwalk, hcount, hend, hv, hloop, hout⟩ :=
      cesLoop_payload_outputs (u := cesStartBlock u) rfl hfault ((Nat.zero_add _).trans hlen) hstarted hclear
    have hstart : (cesStartBlock u).tstate.toNat = 0 := rfl
    rw [hstart] at hwalk hout
    have hstate : w.tstate.toNat < 2 ^ t.totalDelay.toNat := by
      rw [hwalk]
      refine walk_lt hbuilt (fun c hc => ?_) (Nat.two_pow_pos _)
      obtain ⟨x, -, rfl⟩ := List.mem_map.mp hc
      exact combination_lt _ x
    obtain ⟨hrest, hinit, hends, seq, hseq, hterm, htail⟩ :=
      cesLoop_after_payload hbuilt hdo ⟨hpos, hcount⟩ hend hv hstate hloop
    rw [hwalk] at hterm htail
    exact ⟨hrest, hinit, hends, seq, hseq, hterm, by rw [hout, tableOutputs_append]; exact congrArg (_ ++ ·) htail⟩

end Block

/-- The fault is latched in TERMINATING alone (R258). -/
theorem CesRunning.faultTerm_eq_false {t : TceUnit} {u : CesUnit} (h : CesRunning t u)
    (hphase : u.phase ≠ .terminating) : u.faultTerm = false := by
  obtain ⟨-, -, hfault, -⟩ := h
  exact hfault hphase

/-- One termination step as a whole next state: no item of the window is taken (R257). -/
theorem exec_cesWork_termination {s : State} (avail : Nat) {seq : List Nat} {c : Nat} {e : TrellisEntry}
    (hbuilt : s.tce.buildState = .built) (hfault : s.ces.faultTerm = false) (hphase : s.ces.phase = .terminating)
    (hseq : s.tce.term[s.ces.termBase.toNat]? = some (some seq)) (hc : seq[s.ces.termCount.toNat]? = some c)
    (he : s.tce.table[s.ces.tstate.toNat * 2 ^ s.tce.inputs.toNat + c]? = some e) :
    exec (.cesWork 1 avail) s =
      .next { s with
        ces := cesTermNext s.tce s.ces e.next
        win := { s.win with cesOut := e.out :: s.win.cesOut.drop 1 }
        freeCount := s.freeCount + 1
        response := answer 0 0 1 (some 0) } := by
  have hrun := cesLoop_terminating hphase (cesTermStep_of_entry hseq hc he) 0 (s.cesWindow avail)
  rw [exec_cesWork hbuilt hfault hrun (show 1 < 2 ^ 24 by decide)]
  simp

/-- Settles O58: the step is one pass of the loop, and the block is the run of `cesLoop_terminated_block`. -/
theorem cesTerminatedBlock : Obligations.CesTerminatedBlock := by
  refine ⟨fun avail s seq c e _ hbuilt hfault hphase hseq hc he => ?step,
    fun s t hinv hbuilt hdo hpos hphase hfits h hclear => ?block⟩
  case step =>
    rw [exec_cesWork_termination avail hbuilt hfault hphase hseq hc he, cesTermNext, hphase]
  case block =>
    obtain ⟨-, -, htce, hces⟩ := hinv
    obtain ⟨-, -, -, -, hcode⟩ := (tceInv_iff_of_built _ hbuilt).mp htce
    have hrunning : CesRunning s.tce s.ces := ((cesInv_iff _ _).mp hces).2 hbuilt
    have hfault : s.ces.faultTerm = false := hrunning.faultTerm_eq_false (by simp [hphase])
    have hlen := s.cesWindow_length s.tce.blockLen.toNat
    obtain ⟨r, hr, -, hle, -⟩ := cesLoop_spec s.tce hcode (s.tce.blockLen.toNat + s.tce.totalDelay.toNat)
      (s.cesWindow s.tce.blockLen.toNat) s.ces hrunning hfault
    have hval : r.out.length < 2 ^ 24 := hle.trans_lt hfits
    cases (exec_cesWork hbuilt hfault hr hval).symm.trans h
    obtain ⟨hrest, hinit, hend, seq, hseq, hterm, hout⟩ :=
      cesLoop_terminated_block hcode hdo hpos hphase hfault hlen (by rwa [hlen]) hclear
    have hcount : r.out.length = s.tce.blockLen.toNat + s.tce.totalDelay.toNat := by
      rw [hout, tableOutputs_length, List.length_append, List.length_map, hlen, hseq]
    rw [valField_answer rfl hval, rxField_answer rfl (by omega), hrest]
    exact ⟨hcount, rfl, hinit, hend, seq, hseq, hterm, (writeWindow_take _ _).trans hout⟩

end Sys2Proof.Machine
end

section
/-! The WORK commands complete, each with its counts and its frame (O20, O27, O55; 46_host_commands.md R274). -/

namespace Sys2Proof.Machine

/-! ### STR -/

/-- Settles O20: the command writes back its run, and the loop bounds the counts and forms the tags. -/
theorem strWorkCompletes : Obligations.StrWorkCompletes := by
  intro cap avail s hcap _
  obtain ⟨-, -, -, htags⟩ := strLoop_spec Config.interp Config.track cap (s.strWindow avail) s.str
  have hle := strRun_length_le s cap avail
  exact ⟨_, _, _, hle, strRun_consumed_le s cap avail, htags, exec_strWork rfl (hle.trans_lt hcap)⟩

/-! ### FSD -/

/-- A window has no classes exactly when some tag has none (42_field_sync_demux.md R142; log 12). -/
theorem classifyWindow_eq_none_iff (w : List TaggedSymbol) :
    classifyWindow w = none ↔ ∃ x ∈ w, markerClass x.tag = none := by
  simpa [Option.isSome_iff_ne_none] using not_congr (classifyWindow_isSome w)

/-- Classifying a window keeps its samples and gives each item the class of its tag (R142). -/
theorem classifyWindow_items {w : List TaggedSymbol} {ms : List MarkedSample} (h : classifyWindow w = some ms) :
    ms.map MarkedSample.sample = w.map TaggedSymbol.sample ∧
      ms.map (fun x => some x.marker) = w.map (fun x => markerClass x.tag) := by
  induction w generalizing ms with
  | nil => cases h; exact ⟨rfl, rfl⟩
  | cons x xs ih =>
    unfold classifyWindow at h
    split at h
    · next c rest hc hrest =>
      cases h
      obtain ⟨hsamples, hmarkers⟩ := ih hrest
      simp [hsamples, hmarkers, hc]
    · cases h

@[simp] theorem State.fsdWindow_length (s : State) (n : Nat) : (s.fsdWindow n).length = n :=
  inputWindow_length _ n _

/-- `FSD.WORK` on a window with a tag without a class is refused (log 12). -/
theorem exec_fsdWork_of_unclassified {s : State} {avail : Nat} (h : classifyWindow (s.fsdWindow avail) = none)
    (cap : Nat) : exec (.fsdWork cap avail) s = .refused .reservedFieldMark := by
  show execFsdWork cap avail s = _
  rw [execFsdWork, h]

/-- `FSD.WORK` as a whole next state, for a run whose count of segments fits VAL (R152). -/
theorem exec_fsdWork {s : State} {cap avail : Nat} {items : List MarkedSample} {r : FsdRun}
    (hitems : classifyWindow (s.fsdWindow avail) = some items)
    (hr : fsdRun Config.SEGS_PER_FIELD cap s.fsd items = r) (hval : r.out.length < 2 ^ 24) :
    exec (.fsdWork cap avail) s =
      .next { s with
        fsd := r.regs, win := { s.win with fsdOut := r.out ++ s.win.fsdOut.drop r.out.length }
        freeCount := s.freeCount + 1
        response := answer 0
          (flagAt (decide (r.out.length < cap) && !r.loss) 0 + flagAt r.loss 1 + flagAt r.overflow 2)
          r.out.length (some (BitVec.ofNat 32 (avail - r.rest.length))) } := by
  have hlen : items.length = avail := (classifyWindow_length _ _ hitems).trans (s.fsdWindow_length avail)
  show execFsdWork cap avail s = _
  simp only [execFsdWork, hitems, hr, hlen, respond_eq, valOf_toNat _ hval]
  rfl

/-- What a run of the state machine can do (R148, R149, R152; 20_memory.md R67, R74). -/
theorem fsdRun_spec (cap : Nat) (u : FsdUnit) (items : List MarkedSample) :
    let r := fsdRun Config.SEGS_PER_FIELD cap u items
    r.out.length ≤ cap ∧ r.rest.length ≤ items.length ∧
      ∀ d ∈ r.out, d.segmentNumber.toNat < Config.SEGS_PER_FIELD ∧
        (d.fieldFlag = 1 ∨ d.fieldFlag = 2) ∧ d.payload.length = 832 := by
  obtain ⟨hpos, hlt⟩ := Config.SEGS_PER_FIELD_range
  obtain ⟨hle, hrest, -, -, -, hsegs⟩ := fsdLoop_spec _ hpos hlt (items.length / Config.SEG_LEN + 1) cap u items
  exact ⟨hle, hrest, hsegs⟩

/-- Settles O27: a window is refused or classified item by item, and then the command writes back its run. -/
theorem fsdWorkCompletes : Obligations.FsdWorkCompletes := by
  intro cap avail s hcap _
  refine ⟨fun hnone => exec_fsdWork_of_unclassified ((classifyWindow_eq_none_iff _).mpr hnone) cap,
    fun hall => ?_⟩
  cases hitems : classifyWindow (s.fsdWindow avail) with
  | none =>
    obtain ⟨x, hx, hnone⟩ := (classifyWindow_eq_none_iff _).mp hitems
    exact absurd hnone (hall x hx)
  | some items =>
    obtain ⟨hsamples, hmarkers⟩ := classifyWindow_items hitems
    obtain ⟨hle, hrest, hsegs⟩ := fsdRun_spec cap s.fsd items
    rw [classifyWindow_length _ _ hitems, State.fsdWindow_length] at hrest
    exact ⟨items, rfl, hsamples, hmarkers, hle, hrest, hsegs, exec_fsdWork hitems rfl (hle.trans_lt hcap)⟩

/-! ### CES -/

/-- Settles O55: under the invariant the loop answers on a built code, and the command writes back its run. -/
theorem cesWorkCompletes : Obligations.CesWorkCompletes := by
  intro cap avail s hcap _ hinv hbuilt hfault
  obtain ⟨-, -, htce, hces⟩ := hinv
  obtain ⟨-, -, -, -, hcode⟩ := (tceInv_iff_of_built _ hbuilt).mp htce
  obtain ⟨-, hrunning⟩ := (cesInv_iff _ _).mp hces
  obtain ⟨r, hr, -, hle, -, hcount⟩ :=
    cesLoop_spec s.tce hcode cap (s.cesWindow avail) s.ces (hrunning hbuilt) hfault
  rw [State.cesWindow_length] at hcount
  exact ⟨r.regs, r.out, avail - r.rest.length, hle, Nat.sub_le _ _, hcount,
    exec_cesWork hbuilt hfault hr (hle.trans_lt hcap)⟩

end Sys2Proof.Machine
end

section
/-! The error statuses (O13, O14; 60_exceptions.md R291, R293, R299, R301): what status a command of each unit can
answer, and what it has changed then. -/

namespace Sys2Proof.Machine

/-! ### The status of an answer -/

theorem statusOf_respond (s : State) (e : Events) (val : BitVec 24) (rx : Option Word) :
    statusOf (s.respond e val rx) = some 0 := statusOf_packRw _ .ok e val rx rfl

theorem statusOf_raise (s : State) (e : Status) (hasRx : Bool) :
    statusOf (s.raise e hasRx) = some (statusCode e).toNat := statusOf_packRw _ e {} 0 _ rfl

/-- The error statuses with which a command of a unit changes nothing (R293, R299); E_CONFIG is apart. -/
def errorsOf : Nat → List Status
  | 4 => [.state, .range]
  | 5 => [.state, .term]
  | _ => [.range]

/-- The codes of these statuses are 2, 3 and 5 (R291). -/
theorem statusCode_of_mem_errorsOf {k : Nat} {e : Status} (h : e ∈ errorsOf k) :
    (statusCode e).toNat ≤ 5 ∧ (statusCode e).toNat ≠ 4 := by
  have hall : ∀ e ∈ errorsOf k, e = .state ∨ e = .range ∨ e = .term := by
    unfold errorsOf; split <;> simp
  rcases hall e h with rfl | rfl | rfl <;> decide

/-- The units below TCE raise E_RANGE alone (R293). -/
theorem eq_range_of_mem_errorsOf {k : Nat} (hk : k ≤ 3) {e : Status} (h : e ∈ errorsOf k) : e = .range := by
  unfold errorsOf at h
  split at h
  · omega
  · omega
  · exact List.mem_singleton.mp h

/-- How a command answers: OK (`Leaves` says what that leaves), an error status of its unit with nothing else
changed, or a failed construction (R291; 44_trellis_code_engine.md R228). -/
inductive Answers (s : State) : Instr → State → Prop
  | ok {i : Instr} {t : State} (h : statusOf t = some 0) : Answers s i t
  | raised {i : Instr} (e : Status) (hasRx : Bool) (he : e ∈ errorsOf (unitOf i)) : Answers s i (s.raise e hasRx)
  | failed (u : TceUnit) (n : Nat) (hfailed : u.buildState = .failed)
      (hcause : s.tce.errDim = false → s.tce.errBlocklen = false → u.errDim = !u.errBlocklen) :
      Answers s .tceBuild { s with tce := u, freeCount := n, response := answer 4 0 0 none }

/-! ### One lemma per command whose answer depends on the state or its operands -/

theorem answers_of_raised {i : Instr} {s t : State} {e : Status} {hasRx : Bool}
    (h : raised s e hasRx = .next t) (he : e ∈ errorsOf (unitOf i)) : Answers s i t := by
  cases h; exact .raised e hasRx he

theorem execSysRdreg_answers {s t : State} {reg : BitVec 8} (h : execSysRdreg reg s = .next t) :
    Answers s (.sysRdreg reg) t := by
  unfold execSysRdreg at h
  split at h
  · cases h; exact .ok (statusOf_respond ..)
  · exact answers_of_raised h (List.mem_singleton_self _)

theorem answerForecast_answers_range {i : Instr} {s t : State} {n : Nat} (h : answerForecast s n = .next t)
    (hi : .range ∈ errorsOf (unitOf i)) : Answers s i t := by
  unfold answerForecast at h
  split at h
  · exact answers_of_raised h hi
  · cases h; exact .ok (statusOf_respond ..)

theorem execFsdWork_answers {s t : State} {cap avail : Nat} (h : execFsdWork cap avail s = .next t) :
    Answers s (.fsdWork cap avail) t := by
  unfold execFsdWork at h
  split at h
  · cases h
  · cases h; exact .ok (statusOf_respond ..)

theorem execLfsrWhiten_answers {s t : State} {n : Nat} (h : execLfsrWhiten n s = .next t) :
    Answers s (.lfsrWhiten n) t := by
  unfold execLfsrWhiten at h
  split at h
  · exact answers_of_raised h (List.mem_singleton_self _)
  · cases h; exact .ok (statusOf_respond ..)

theorem configure_answers {i : Instr} {s t : State} {u : TceUnit} (h : configure s u = .next t)
    (hi : .state ∈ errorsOf (unitOf i)) : Answers s i t := by
  unfold configure at h
  split at h
  · cases h; exact .ok (statusOf_respond ..)
  · exact answers_of_raised h hi

theorem configureEntry_answers {instr : Instr} {s t : State} {u : TceUnit} {maxStreams i o : Nat}
    (h : configureEntry maxStreams i o s u = .next t) (hunit : unitOf instr = 4) : Answers s instr t := by
  unfold configureEntry at h
  split at h
  · split at h
    · exact answers_of_raised h (by rw [hunit]; decide)
    · cases h; exact .ok (statusOf_respond ..)
  · exact answers_of_raised h (by rw [hunit]; decide)

/-- A construction that ends with E_CONFIG has failed and recorded one cause (R228). -/
theorem tceBuild_answers {s t : State} {ms mt : Nat} (h : tceBuild ms mt s = .next t) :
    Answers s .tceBuild t := by
  unfold tceBuild at h
  split at h
  · exact answers_of_raised h (by decide)
  split at h
  · cases h
    exact .failed { s.tce with errDim := true, buildState := .failed } s.freeCount rfl
      fun _ hblock => by simp [hblock]
  dsimp only at h
  split at h
  · cases h
    exact .failed { analyse s.freeCount s.tce with errBlocklen := true, buildState := .failed } _ rfl
      fun hdim _ => hdim
  split at h
  · cases h
  split at h
  · cases h
  split at h
  · cases h
  · cases h; exact .ok (statusOf_respond ..)

theorem execTceLookup_answers {s t : State} {v : BitVec 24} {st : BitVec 32}
    (h : execTceLookup v st s = .next t) : Answers s (.tceLookup v st) t := by
  unfold execTceLookup at h
  split at h
  · exact answers_of_raised h (List.mem_cons_self ..)
  split at h
  · exact answers_of_raised h (List.mem_cons_of_mem _ (List.mem_singleton_self _))
  split at h
  · cases h; exact .ok (statusOf_respond ..)
  · cases h

theorem execCesForecast_answers {s t : State} {n : Nat} (h : execCesForecast n s = .next t) :
    Answers s (.cesForecast n) t := by
  unfold execCesForecast at h
  split at h
  · exact answers_of_raised h (List.mem_cons_self ..)
  · cases h; exact .ok (statusOf_respond ..)

theorem execCesWork_answers {s t : State} {cap avail : Nat} (h : execCesWork cap avail s = .next t) :
    Answers s (.cesWork cap avail) t := by
  unfold execCesWork at h
  split at h
  · exact answers_of_raised h (List.mem_cons_self ..)
  split at h
  · exact answers_of_raised h (List.mem_cons_of_mem _ (List.mem_singleton_self _))
  split at h
  · cases h
  · cases h; exact .ok (statusOf_respond ..)

/-- How any command answers: the inversion of `exec` by status. -/
theorem exec_answers {i : Instr} {s t : State} (h : exec i s = .next t) : Answers s i t := by
  cases i with
  | sysRdreg => exact execSysRdreg_answers h
  | strForecast => exact answerForecast_answers_range h (List.mem_singleton_self _)
  | fsdForecast => exact answerForecast_answers_range h (List.mem_singleton_self _)
  | fsdWork => exact execFsdWork_answers h
  | lfsrWhiten => exact execLfsrWhiten_answers h
  | tceCfgDim | tceCfgBlock | tceCfgEnd => exact configure_answers h (List.mem_cons_self ..)
  | tceCfgGen | tceCfgFb => exact configureEntry_answers h rfl
  | tceBuild => exact tceBuild_answers h
  | tceLookup => exact execTceLookup_answers h
  | cesForecast => exact execCesForecast_answers h
  | cesWork => exact execCesWork_answers h
  | strWork | lfsrReset | lfsrOut | lfsrClk | lfsrDewhiten => cases h; exact .ok (statusOf_respond ..)

/-- Settles O13: a status other than OK is raised with nothing else changed, or is that of a failed
construction. -/
theorem errorStatusesChangeNothing : Obligations.ErrorStatusesChangeNothing := by
  intro i s t code h hcode hne
  cases exec_answers h with
  | ok hok => exact absurd (Option.some.inj (hcode.symm.trans hok)) hne
  | raised e hasRx he =>
    cases (statusOf_raise s e hasRx).symm.trans hcode
    obtain ⟨hle, hnotConfig⟩ := statusCode_of_mem_errorsOf he
    refine ⟨hle, ?_, fun _ => rfl, fun hconfig => absurd hconfig hnotConfig⟩
    rw [raise_eq]
    cases hasRx
    · exact .inl rfl
    · exact .inr rfl
  | failed u n hfailed hcause =>
    cases (statusOf_answer rfl (by decide)).symm.trans hcode
    exact ⟨by decide, .inl rfl, fun hother => absurd rfl hother, fun _ => ⟨rfl, rfl, hfailed, hcause⟩⟩

/-! ### The gates on the build state (R293) -/

/-- A command accepted while UNBUILT only is E_STATE otherwise (44_trellis_code_engine.md R207). -/
theorem exec_of_not_unbuilt {i : Instr} {s : State} (hi : needsUnbuilt i = true)
    (h : s.tce.buildState ≠ .unbuilt) : exec i s = .next { s with response := answer 2 0 0 none } := by
  cases i with
  | tceCfgDim | tceCfgBlock | tceCfgEnd => exact (configure_eq s _).trans (if_neg h)
  | tceCfgGen | tceCfgFb => exact configureEntry_of_not_unbuilt h _ _ _ _
  | tceBuild => exact tceBuild_of_not_unbuilt h _ _
  | _ => cases hi

theorem exec_tceLookup_of_not_built {s : State} (h : s.tce.buildState ≠ .built) (v : BitVec 24)
    (st : BitVec 32) : exec (.tceLookup v st) s = .next { s with response := answer 2 0 0 (some 0) } := by
  show execTceLookup v st s = _
  rw [execTceLookup, if_pos h, raised_eq, raise_eq]; rfl

/-- A command accepted while BUILT only is E_STATE otherwise (44_trellis_code_engine.md R207). -/
theorem exec_of_not_built {i : Instr} {s : State} (hi : needsBuilt i = true)
    (h : s.tce.buildState ≠ .built) : exec i s = .next { s with response := answer 2 0 0 (some 0) } := by
  cases i with
  | tceLookup v st => exact exec_tceLookup_of_not_built h v st
  | cesForecast n => rw [cesForecast n s, if_neg h]
  | cesWork cap avail => exact exec_cesWork_of_not_built h cap avail
  | _ => cases hi

/-- The units SYS, STR, FSD and LFSR never answer E_STATE. -/
theorem statusOf_ne_state {i : Instr} {s t : State} (hunit : unitOf i ≤ 3) (h : exec i s = .next t) :
    statusOf t ≠ some 2 := by
  cases exec_answers h with
  | ok hok => simp [hok]
  | raised e hasRx he =>
    cases eq_range_of_mem_errorsOf hunit he
    rw [statusOf_raise]; decide
  | failed => exact absurd hunit (by decide)

/-- Settles O14: the two gates, and the inversion of `exec` by status for the units without one. -/
theorem stateGates : Obligations.StateGates := fun _ _ =>
  ⟨exec_of_not_unbuilt, exec_of_not_built, fun hunit _ => statusOf_ne_state hunit⟩

end Sys2Proof.Machine
end

section
/-! The state after a power-up reset (O8, O17; 70_reset_and_hazards.md R320 to R322). -/

namespace Sys2Proof.Machine

/-- The hardware reset changes nothing of a machine that has just powered up (R320). -/
theorem hardwareReset_reset : hardwareReset State.reset = State.reset := rfl

/-- Settles O8: the power-up state is what the hardware reset leaves of it, and that has the invariant. -/
theorem resetHasInvariant : Obligations.ResetHasInvariant := by
  have h := hardwareReset_inv State.reset
  rwa [hardwareReset_reset] at h

/-! ### The status registers at reset -/

/-- `SYS.RDREG` of an assigned register answers OK with the map's value (46_host_commands.md R273). -/
theorem exec_sysRdreg_of_registerMap {s : State} {r : BitVec 8} {v : Nat}
    (h : registerMap s r.toNat = some v) :
    exec (.sysRdreg r) s = .next { s with response := answer 0 0 0 (some (BitVec.ofNat 32 v)) } := by
  rw [rdregAnswersTheMap r s, h]

/-- Every assigned register but `LFSR_STATE` has all its fields 0 after a power-up reset (R321). -/
theorem registerMap_reset_eq_zero :
    ∀ r ∈ [0x10, 0x20, 0x21, 0x22, 0x31, 0x40, 0x41, 0x42, 0x43, 0x44, 0x50, 0x51, 0x52, 0x53],
      registerMap State.reset (BitVec.ofNat 8 r).toNat = some 0 := by decide

/-- `LFSR_STATE` holds the preload after a power-up reset (R321). -/
theorem registerMap_reset_lfsrState :
    registerMap State.reset (0x30 : BitVec 8).toNat = some Config.PRELOAD.toNat := rfl

/-- Settles O17: the registers by the definition of the power-up state, row by row of R321; the status registers
by their map in that state. -/
theorem resetValues : Obligations.ResetValues := by
  refine ⟨hardwareReset_lutBuilt, rfl, rfl, rfl, rfl, rfl, rfl, fun r hr => ?zeroes, ?lfsrState⟩
  case zeroes => exact exec_sysRdreg_of_registerMap (registerMap_reset_eq_zero r hr)
  case lfsrState =>
    rw [exec_sysRdreg_of_registerMap registerMap_reset_lfsrState, BitVec.ofNat_toNat]

end Sys2Proof.Machine
end

section
/-! Words and commands, both ways (O1, O2, O4; 30_encoding.md R91 to R106): what the decoder takes is the encoding
of what it reads. -/

namespace Sys2Proof

/-- Settles O1. -/
theorem decodeOfEncode : Obligations.DecodeOfEncode := fun _ rest h => decode_encode_append h rest

/-! ### A command word from its fields (R91, R98 to R101) -/

theorem packCw_fields (cw : Word) : packCw (cwUnit cw) (cwOp cw) (cwArg cw) = cw := by
  apply BitVec.eq_of_toNat_eq
  rw [packCw_toNat, cwUnit_toNat, cwOp_toNat, cwArg_toNat]
  omega

theorem setWidth_argLow {arg : BitVec 24} (h : arg.toNat < 2 ^ 8) : (argLow arg).setWidth 24 = arg := by
  apply BitVec.eq_of_toNat_eq
  simp only [argLow, BitVec.toNat_setWidth, BitVec.extractLsb'_toNat, Nat.shiftRight_zero]
  omega

theorem packArg_argLow_argHigh {arg : BitVec 24} (h : arg.toNat < 2 ^ 16) :
    packArg (argLow arg) (argHigh arg) = arg := by
  apply BitVec.eq_of_toNat_eq
  simp only [packArg_toNat, argLow, argHigh, BitVec.extractLsb'_toNat, Nat.shiftRight_eq_div_pow]
  omega

/-- An `ARG` of one bit is 0 or 1, as its flag says (R101). -/
theorem flag_eq_arg {arg : BitVec 24} (h : arg.toNat < 2 ^ 1) : (if arg.getLsbD 0 then 1 else 0) = arg := by
  obtain rfl | rfl : arg = 0 ∨ arg = 1 := by
    simp only [← BitVec.toNat_inj, BitVec.ofNat_eq_ofNat, BitVec.toNat_ofNat]
    omega
  · rfl
  · rfl

theorem arg_eq_zero {arg : BitVec 24} (h : arg.toNat < 2 ^ 0) : arg = 0 :=
  BitVec.eq_of_toNat_eq (Nat.lt_one_iff.mp h)

/-! ### A row's pair and its extension word (R93, R97) -/

/-- The pair (UNIT, OP) of a row: the opcode map read backwards. -/
def opcodePair : Opcode → BitVec 4 × BitVec 4
  | .sysRdreg => (0, 1)
  | .strForecast => (1, 0)
  | .strWork => (1, 1)
  | .fsdForecast => (2, 0)
  | .fsdWork => (2, 1)
  | .lfsrReset => (3, 0)
  | .lfsrOut => (3, 1)
  | .lfsrClk => (3, 2)
  | .lfsrWhiten => (3, 3)
  | .lfsrDewhiten => (3, 4)
  | .tceCfgDim => (4, 0)
  | .tceCfgGen => (4, 1)
  | .tceCfgFb => (4, 2)
  | .tceCfgBlock => (4, 3)
  | .tceCfgEnd => (4, 4)
  | .tceBuild => (4, 5)
  | .tceLookup => (4, 6)
  | .cesForecast => (5, 0)
  | .cesWork => (5, 1)

/-- No two pairs share a row (R97). -/
theorem eq_opcodePair_of_opcodeMap {unit op : Nat} {o : Opcode} (h : opcodeMap unit op = some o) :
    unit = (opcodePair o).1.toNat ∧ op = (opcodePair o).2.toNat := by
  unfold opcodeMap at h
  split at h <;> cases h <;> exact ⟨rfl, rfl⟩

/-- A legal word is its row's pair packed with its `ARG`. -/
theorem eq_packCw_of_classifyCw {cw : Word} {o : Opcode} (h : classifyCw cw = .ok o) :
    cw = packCw (opcodePair o).1 (opcodePair o).2 (cwArg cw) := by
  obtain ⟨hmap, -⟩ := (classifyCw_eq_ok_iff cw o).mp h
  obtain ⟨hunit, hop⟩ := eq_opcodePair_of_opcodeMap hmap
  rw [← BitVec.eq_of_toNat_eq hunit, ← BitVec.eq_of_toNat_eq hop, packCw_fields]

/-- The words that follow the command word of a row: its extension word, if it has one. -/
def extWords (o : Opcode) (ew : Word) : List Word := if hasExt o then [ew] else []

/-! ### What the decoder takes and what it reads (R98 to R102, R106) -/

/-- A command comes from a legal command word and the extension word its row asks for: the inversion of `decode`. -/
theorem decode_eq_command {words rest : List Word} {i : Instr} (h : decode words = .command i rest) :
    ∃ cw o ew, classifyCw cw = .ok o ∧ i = assemble o (cwArg cw) ew ∧
      words = cw :: extWords o ew ++ rest := by
  cases words with
  | nil => cases h
  | cons cw tail =>
    cases hc : classifyCw cw with
    | error why => simp [decode, hc] at h
    | ok o =>
      cases hext : hasExt o with
      | false =>
        rw [decode_of_plain tail hc hext] at h
        cases h
        exact ⟨cw, o, 0, hc, rfl, by simp [extWords, hext]⟩
      | true =>
        cases tail with
        | nil => rw [decode_of_missing_ext hc hext] at h; cases h
        | cons ew tail =>
          rw [decode_of_ext ew tail hc hext] at h
          cases h
          exact ⟨cw, o, ew, hc, rfl, by simp [extWords, hext]⟩

/-- Operands read from fields fit the fields. -/
theorem assemble_wellFormed (o : Opcode) (arg : BitVec 24) (ew : Word) : (assemble o arg ew).WellFormed := by
  cases o with
  | strForecast | fsdForecast | lfsrWhiten | lfsrDewhiten | cesForecast => exact arg.isLt
  | strWork | fsdWork | cesWork => exact ⟨arg.isLt, ew.isLt⟩
  | tceCfgGen | tceCfgFb => exact ⟨(argLow arg).isLt, (argHigh arg).isLt⟩
  | sysRdreg | lfsrReset | lfsrOut | lfsrClk | tceCfgDim | tceCfgBlock | tceCfgEnd | tceBuild
  | tceLookup => trivial

/-- The operands read from a word are packed back into it, if `ARG` has no bit set that the row does not assign. -/
theorem encode_assemble {o : Opcode} {arg : BitVec 24} (ew : Word) (h : arg.toNat < 2 ^ assignedWidth o) :
    encode (assemble o arg ew) = packCw (opcodePair o).1 (opcodePair o).2 arg :: extWords o ew := by
  cases o with
  | sysRdreg => simp [assemble, encode, opcodePair, extWords, hasExt, setWidth_argLow h]
  | tceCfgDim | tceCfgGen | tceCfgFb =>
    simp [assemble, encode, opcodePair, extWords, hasExt, packArg_argLow_argHigh h]
  | tceCfgBlock => simp only [assemble, encode, flag_eq_arg h]; rfl
  | lfsrReset | lfsrOut | lfsrClk | tceCfgEnd | tceBuild => rw [arg_eq_zero h]; rfl
  | strForecast | strWork | fsdForecast | fsdWork | lfsrWhiten | lfsrDewhiten | tceLookup
  | cesForecast | cesWork => simp [assemble, encode, opcodePair, extWords, hasExt]

/-- Settles O2: the command is assembled from a legal word's fields, and its encoding packs the same fields. -/
theorem encodeOfDecode : Obligations.EncodeOfDecode := by
  intro words i rest h
  obtain ⟨cw, o, ew, hclass, rfl, rfl⟩ := decode_eq_command h
  obtain ⟨-, harg⟩ := (classifyCw_eq_ok_iff cw o).mp hclass
  exact ⟨assemble_wellFormed o (cwArg cw) ew,
    by rw [encode_assemble ew harg, ← eq_packCw_of_classifyCw hclass]⟩

/-! ### The words of the test vectors -/

theorem decode_of_encode_eq {i : Instr} {words : List Word} (h : i.WellFormed) (hwords : encode i = words) :
    decode words = .command i [] := by
  rw [← hwords, ← List.append_nil (encode i), decode_encode_append h]

/-- A word that the decoder classifies as illegal is taken alone (R105). -/
theorem decode_of_classifyCw_error {cw : Word} {why : IllegalReason} (rest : List Word)
    (h : classifyCw cw = .error why) : decode (cw :: rest) = .illegal why rest := by
  simp [decode, h]

/-- Settles O4: the words of V-DEC-1 are the encodings of its commands, and those of V-DEC-2 are illegal each for
its own reason. -/
theorem vectorWordsDecode : Obligations.VectorWordsDecode :=
  ⟨decode_of_encode_eq trivial (by decide),
    decode_of_encode_eq ⟨by decide, by decide⟩ (by decide),
    decode_of_encode_eq ⟨by decide, by decide⟩ (by decide),
    decode_of_encode_eq (i := .lfsrWhiten 5) (by decide : fitsArg 5) (by decide),
    decode_of_encode_eq trivial (by decide),
    decode_of_encode_eq ⟨by decide, by decide⟩ (by decide),
    decode_of_encode_eq trivial (by decide),
    decode_of_encode_eq trivial (by decide),
    decode_of_encode_eq ⟨by decide, by decide⟩ (by decide),
    decode_of_classifyCw_error [] (by decide),
    decode_of_classifyCw_error [] (by decide),
    decode_of_classifyCw_error [] (by decide)⟩

end Sys2Proof
end
